-- ==== Sys2Proof/Word.lean ====
section
/-! DEFINITION. The word types of the CRYPT26 core: a register is 32 bits (10_state.md R30), a text
byte 8 bits (20_memory.md R100), ERRINFO and the lengths 16 bits (R41, R44, R45). -/

namespace Sys2Proof

/-- A 32-bit register value or command word. -/
abbrev Word := BitVec 32

/-- A text byte. -/
abbrev Byte := BitVec 8

/-- A 16-bit detail value or length. -/
abbrev Half := BitVec 16

end Sys2Proof
end

