-- ==== Sys2Proof/Config.lean ====
section
/-! DEFINITION. What one build of the core fixes (00_scope.md section 4, R5 to R7, R11), the platform's
base address (20_memory.md R104), and the free value behind every drawn read (10_state.md R60,
70_reset_and_hazards.md R461), and the free values of the host notation (30_encoding.md R148). -/

namespace Sys2Proof

/-- The value a drawn host read returns, one for each draw: 10_state.md R60 and 70_reset_and_hazards.md
R461 leave it unconstrained. It has no body, so nothing can be proved of its value (log 2). -/
opaque Config.freeWord : Nat → Word

/-- The value of a host-local name nobody has assigned: 30_encoding.md R148 states none (DESIGN CHOICE,
log 11). A free value for each name. -/
opaque Config.unassignedName : Nat → Int

/-- `x div y` where 30_encoding.md R148 states no result: y = 0, or operands that are not both positive and
do not divide exactly, where the rounding is not stated (DESIGN CHOICE, log 11). A free value. -/
opaque Config.freeQuotient : Int → Int → Int

/-- `ceil(x / 0)`, for which 30_encoding.md R148 states no result (DESIGN CHOICE, log 11). A free value. -/
opaque Config.freeCeiling : Int → Int

/-- The 32-bit value a write puts on the bus for an integer outside [0, 2^32): 00_scope.md R16 writes "the
32-bit value v" and 30_encoding.md R148 states no conversion (DESIGN CHOICE, log 11). A free value. -/
opaque Config.freeWriteWord : Int → Word

/-- 00_scope.md R7: 25 bytes, each an upper-case ASCII letter, pairwise distinct, none of them 'J'. -/
def Config.squareOk (square : List Byte) : Bool :=
  square.length == 25
    && square.all (fun b => decide (0x41 ≤ b.toNat) && decide (b.toNat ≤ 0x5A) && b != 0x4A#8)
    && decide square.Nodup

/-- The legal values of the build parameters: 00_scope.md R5 (N_MAX), R6 (TEXT_MAX), R7 (KEY_SQUARE). -/
def Config.buildOk (nMax textMax : Nat) (square : List Byte) : Bool :=
  decide (2 ≤ nMax) && decide (nMax ≤ 5) && decide (2 ≤ textMax) && decide (textMax ≤ 4095)
    && Config.squareOk square

/-- The parameters of one machine. A build that breaks a constraint "is not a CRYPT26 core" and "a model
refuses such a parameter" (00_scope.md R7): the field `legal` leaves no such build. CORE_BASE is the
platform's and has no constraint (20_memory.md R104). -/
structure Build where
  /-- N_MAX, R5. -/
  nMax : Nat
  /-- TEXT_MAX, R6. -/
  textMax : Nat
  /-- KEY_SQUARE in row-major order, R7. -/
  square : List Byte
  /-- CORE_BASE, the address of the window in the host's address space, R104. -/
  coreBase : Nat
  /-- R5, R6 and R7 hold. -/
  legal : Config.buildOk nMax textMax square = true
  deriving DecidableEq, Repr

/-- Refusing an illegal parameter (R7): a build exactly when the constraints hold. -/
def Build.mk? (nMax textMax : Nat) (square : List Byte) (coreBase : Nat) : Option Build :=
  if h : Config.buildOk nMax textMax square = true then some ⟨nMax, textMax, square, coreBase, h⟩ else none

/-- REF_SQUARE, 00_scope.md R9, rows PLAYF, IRBCD, EGHKM, NOQST, UVWXZ. -/
def Config.refSquare : List Byte :=
  [0x50, 0x4C, 0x41, 0x59, 0x46] ++ [0x49, 0x52, 0x42, 0x43, 0x44] ++ [0x45, 0x47, 0x48, 0x4B, 0x4D]
    ++ [0x4E, 0x4F, 0x51, 0x53, 0x54] ++ [0x55, 0x56, 0x57, 0x58, 0x5A]

/-- The reference build (R5: N_MAX = 4, R6: TEXT_MAX = 256, R9: REF_SQUARE). CORE_BASE = 0 is a DESIGN
CHOICE (log 3). Unsafe as the build of State.reset: another build is another machine. -/
def Config.refBuild : Build :=
  ⟨4, 256, Config.refSquare, 0, by decide⟩

end Sys2Proof
end

