-- ==== Sys2Proof/Syntax.lean ====
section
/-! DEFINITION. The fifteen commands of 30_encoding.md R144, one constructor per row of
spec/opcode_table.json. -/

namespace Sys2Proof

/-- The M field of MVMUL, 30_encoding.md R147: KEY is M = 0, RMAT is M = 1. -/
inductive MatrixSelect
  | key
  | rmat
  deriving DecidableEq, Repr

/-- The M field of DGRULE, 30_encoding.md R147: ENC is M = 0, DEC is M = 1. -/
inductive Direction
  | enc
  | dec
  deriving DecidableEq, Repr

/-- A command. `row` and `col` are the R and C fields, unsigned (30_encoding.md R142); that each is at
most 7 is checked in WellFormed. -/
inductive Instr
  | nop
  | det
  | subm (row col : Nat)
  | cof (row col : Nat)
  | adj
  | modinv
  | invkey
  | mvmul (m : MatrixSelect)
  | menc
  | mdec
  | findpos
  | dgrule (m : Direction)
  | norm
  | denc
  | ddec
  deriving DecidableEq, Repr

end Sys2Proof
end

