-- ==== Sys2Proof/Machine/State.lean ====
section
/-! DEFINITION. The state of the core (10_state.md), of the host that drives it (30_encoding.md R148) and
of the schedule that says who moves next, as plain data; the reasons a step can stop; the state after
reset (70_reset_and_hazards.md R450). -/

namespace Sys2Proof.Machine

/-- An array of storage as a list of (index, value) pairs, indexes strictly rising (`Memory.wf`). An
index that is not listed has no value: it is the "unwritten" of 10_state.md R60. With `α := Byte` this is
a list of `Host.Cell`. -/
abbrev Memory (α : Type) := List (Nat × α)

/-- Why a step stops, or why the host agent has stopped. None of them is an error of the core: those are
completions with a code (60_exceptions.md R400). -/
inductive Fault
  /-- UNWRITTEN_OPERAND, 60_exceptions.md R406, 10_state.md R60, 40_control.md R183: a command reads a KEY,
  VEC, RMAT or IN entry nobody has written. Raised by the commands' reads. Safe: the chip goes on with
  whatever its storage holds, the model gives that run no value. -/
  | unwrittenOperand
  /-- Host bus error, 20_memory.md R101, 60_exceptions.md R406: a width other than 4 bytes or an offset
  that is not a multiple of 4. Raised by the host agent's access, which stops the host agent. Safe. -/
  | busError
  /-- A host access while rst is asserted, which the platform must not issue (70_reset_and_hazards.md R450,
  93_implementation_defined.md section 2). Raised by the host agent's access. Safe. -/
  | accessInReset
  /-- A host access outside the offsets 0x0000 to 0x3FFF the core decodes (20_memory.md R104). Raised by
  the host agent's access. Safe. -/
  | outsideWindow
  deriving DecidableEq, Repr

/-- Why an instruction has no meaning. -/
inductive Refusal
  /-- An instruction without a meaning yet; raised by `exec` alone. Safe. No arm of `exec` uses it. -/
  | notModelled (mnemonic : String)
  deriving DecidableEq, Repr

/-- The hidden command sequencer, 10_state.md R59: idle, or busy with the latched command word
(40_control.md R180). STATUS.BUSY is its phase (R35). -/
inductive Sequencer
  | idle
  | busy (latch : Word)
  deriving DecidableEq, Repr

/-- Host-local expressions, 30_encoding.md R148: "integers, +, -, *, div, ceil, and the host-local
names". `ceilDiv a b` is `ceil(a / b)`. A name is a number. -/
inductive HostExpr
  | lit (z : Int)
  | name (x : Nat)
  | add (a b : HostExpr)
  | sub (a b : HostExpr)
  | mul (a b : HostExpr)
  | div (a b : HostExpr)
  | ceilDiv (a b : HostExpr)
  deriving DecidableEq, Repr

/-- Comparisons of host-local values, 30_encoding.md R148. -/
inductive HostRel
  | eq
  | ne
  | lt
  | ge
  deriving DecidableEq, Repr

/-- What the host does in one turn: what the statements of 30_encoding.md R148 expand to. Offsets are
relative to CORE_BASE, widths are in bytes, and a jump's label stands as the position it marks. -/
inductive HostOp
  /-- `name <- MemRead(CORE_BASE + off, width)` -/
  | read (width : Nat) (off : HostExpr) (name : Nat)
  /-- `MemWrite(CORE_BASE + off, width, v)` -/
  | write (width : Nat) (off v : HostExpr)
  /-- One round of the loop of WAIT: `RD 0x00C -> s; if s[0] = 1 goto loop`, with `name` for s. -/
  | poll (name : Nat)
  | assign (name : Nat) (e : HostExpr)
  /-- A conditional jump to the operation at position `target`. -/
  | branch (rel : HostRel) (a b : HostExpr) (target : Nat)
  /-- A jump to the operation at position `target`. -/
  | goto (target : Nat)
  deriving DecidableEq, Repr

/-- The host agent: its program, its position in it, its host-local names, and the fault that has stopped
it, if any (20_memory.md R101: "a host fault that stops the host agent"). -/
structure HostAgent where
  program : List HostOp
  position : Nat
  names : Memory Int
  halted : Option Fault
  deriving DecidableEq, Repr

/-- Who moves next (40_control.md R183: "two agents: the host and the core", and the platform's rst). -/
inductive Turn
  /-- The host performs its next operation. -/
  | host
  /-- The core completes the command in progress, if there is one. -/
  | core
  /-- A host operation and a completion in the same bus cycle (10_state.md R36). -/
  | sameCycle
  /-- The platform asserts rst, or power is applied (70_reset_and_hazards.md R450, R454, R455). -/
  | rstAssert
  /-- The platform releases rst (R450). -/
  | rstRelease
  deriving DecidableEq, Repr

/-- Everything the spec gives the machine. A register with reserved bits holds only its defined bits, so
the reserved bits read 0 (10_state.md R57); RES_POS and RES_PAIR are held whole. -/
structure State where
  /-- N_MAX, TEXT_MAX, KEY_SQUARE (which CFG and KSQ show) and CORE_BASE; constant. -/
  build : Build
  /-- The rst input, R450. -/
  rst : Bool
  /-- CTRL.IE, 10_state.md R33. -/
  ie : Bool
  /-- STATUS.BUSY and the latched command word, R35, R59. -/
  seq : Sequencer
  /-- STATUS.DONE, R36. -/
  done : Bool
  /-- STATUS.WBUSY, R38. -/
  wbusy : Bool
  /-- ERRCODE[3:0], R40. -/
  errcode : BitVec 4
  /-- ERRINFO[15:0], R41. -/
  errinfo : Half
  /-- NDIM[2:0], R42. -/
  ndim : BitVec 3
  /-- OPERAND, R43. -/
  operand : Word
  /-- IN_LEN[15:0], R44. -/
  inLen : Half
  /-- OUT_LEN[15:0], R45. -/
  outLen : Half
  /-- RES_SCALAR, R46. -/
  resScalar : Word
  /-- RES_DETMOD[4:0], R47. -/
  resDetmod : BitVec 5
  /-- RES_POS, R48. -/
  resPos : Word
  /-- RES_PAIR, R49. -/
  resPair : Word
  /-- KEY[i][j][4:0] at index 8·i + j, R50. -/
  key : Memory (BitVec 5)
  /-- RMAT[i][j] at index 8·i + j, R51. -/
  rmat : Memory Word
  /-- VEC[j][4:0] at index j, R52. -/
  vec : Memory (BitVec 5)
  /-- RVEC[i][4:0] at index i, R53. -/
  rvec : Memory (BitVec 5)
  /-- IN[k] at index k, R55. -/
  inBuf : Memory Byte
  /-- OUT[k] at index k, R56. -/
  outBuf : Memory Byte
  /-- The host agent, 30_encoding.md R148. -/
  host : HostAgent
  /-- The model's own: whose turn it is, next first (log 4). -/
  turns : List Turn
  /-- The model's own: how many reads have drawn a value (log 2). -/
  draws : Nat
  deriving DecidableEq, Repr

/-- The machine right after reset: 70_reset_and_hazards.md R450, with rst released. The build is the
reference build (log 3), no host program is loaded (log 14), the schedule is empty (log 4). -/
def State.reset : State where
  build := Config.refBuild
  rst := false
  ie := false
  seq := .idle
  done := false
  wbusy := false
  errcode := 0
  errinfo := 0
  ndim := 0
  operand := 0
  inLen := 0
  outLen := 0
  resScalar := 0
  resDetmod := 0
  resPos := 0
  resPair := 0
  key := []
  rmat := []
  vec := []
  rvec := []
  inBuf := []
  outBuf := []
  host := ⟨[], 0, [], none⟩
  turns := []
  draws := 0

end Sys2Proof.Machine
end

