-- ==== Sys2Proof/Machine/Ops.lean ====
section
/-! DEFINITION. The named operations over the core's storage, and the two ways a command ends: `complete`
and `raise E(info)` (00_scope.md R17, 40_control.md R182, 60_exceptions.md R400, R401). An error is this
core's only "exception", and its entry is the error completion below; there is no return from it
(60_exceptions.md R407, R408): the next issue clears ERRCODE and ERRINFO. -/

namespace Sys2Proof.Machine

/-! ### Storage: lists of (index, value) pairs in canonical form -/

/-- The value at an index, or none where nobody has written one (10_state.md R60). -/
def Memory.read {α : Type} : Memory α → Nat → Option α
  | [], _ => none
  | (k, v) :: m, a => if k = a then some v else Memory.read m a

/-- Store a value, keeping the indexes strictly rising. -/
def Memory.write {α : Type} : Memory α → Nat → α → Memory α
  | [], a, v => [(a, v)]
  | (k, x) :: m, a, v =>
    if a < k then (a, v) :: (k, x) :: m
    else if a = k then (a, v) :: m
    else (k, x) :: Memory.write m a v

/-- Every index of the list is above `a`, and the indexes rise. -/
def Memory.risingFrom {α : Type} : Nat → Memory α → Bool
  | _, [] => true
  | a, (k, _) :: m => decide (a < k) && Memory.risingFrom k m

/-- The canonical form: indexes strictly rising. An unlisted index has no value, so no entry equals
what an unlisted index reads as. -/
def Memory.wf {α : Type} : Memory α → Bool
  | [] => true
  | (k, _) :: m => Memory.risingFrom k m

/-- Store `f 0 … f (n-1)` at the `n` indexes from `base`. -/
def Memory.writeRange {α : Type} (m : Memory α) (base : Nat) : Nat → (Nat → α) → Memory α
  | 0, _ => m
  | n + 1, f => Memory.write (Memory.writeRange m base n f) (base + n) (f n)

/-- Where KEY[i][j] and RMAT[i][j] stand in their register files: 10_state.md R50 and R51 put them
8·i + j words above the file's first. -/
def entryIndex (i j : Nat) : Nat := 8 * i + j

/-- Store `f i j` at the entries [i][j] of the first `rows` rows and `cols` columns. -/
def Memory.writeBlock {α : Type} (m : Memory α) : Nat → Nat → (Nat → Nat → α) → Memory α
  | 0, _, _ => m
  | i + 1, cols, f => Memory.writeRange (Memory.writeBlock m i cols f) (entryIndex i 0) cols (f i)

/-! ### How many entries a build has -/

/-- IN_WORDS = ceil(TEXT_MAX / 4), 10_state.md R55. -/
def inWords (b : Build) : Nat := (b.textMax + 3) / 4

/-- OUT_WORDS = ceil((TEXT_MAX + 1) / 4), 10_state.md R56. -/
def outWords (b : Build) : Nat := (b.textMax + 1 + 3) / 4

/-! ### Text bytes in words -/

/-- Byte k of a word: bits [8·k+7 : 8·k], 20_memory.md R100. -/
def wordByte (w : Word) (k : Nat) : Byte := w.extractLsb' (8 * k) 8

/-- The word whose bytes are f 0, f 1, f 2, f 3 from the low end, 20_memory.md R100. -/
def packWord (f : Nat → Byte) : Word := f 3 ++ f 2 ++ f 1 ++ f 0

/-! ### Errors and completion -/

/-- The error codes of 60_exceptions.md R400. -/
inductive ErrorCode
  | invalidBlockLength
  | invalidCharacter
  | notFound
  | notInvertible
  | invalidKey
  | invalidArgument
  | illegalCommand
  deriving DecidableEq, Repr

/-- The numbers of 60_exceptions.md R400. -/
def ErrorCode.code : ErrorCode → BitVec 4
  | .invalidBlockLength => 1
  | .invalidCharacter => 2
  | .notFound => 3
  | .notInvertible => 4
  | .invalidKey => 5
  | .invalidArgument => 6
  | .illegalCommand => 7

/-- What ends a command's pseudocode before `complete`: `raise E(info)` (00_scope.md R17) or a model
fault (60_exceptions.md R406). -/
inductive Stop
  | raise (e : ErrorCode) (info : Half)
  | fault (f : Fault)
  deriving DecidableEq, Repr

/-- A piece of a command's pseudocode: a value, or the first stop met (40_control.md R184). -/
abbrev Check (α : Type) := Except Stop α

/-- zext_16 of a number (00_scope.md R12); every use is below 2^16 (60_exceptions.md R405). -/
def half (n : Nat) : Half := BitVec.ofNat 16 n

/-- `if not p then raise E(info)`. -/
def require (p : Bool) (e : ErrorCode) (info : Half) : Check Unit :=
  if p then .ok () else .error (.raise e info)

/-- An entry a command reads: UNWRITTEN_OPERAND where nobody has written it (10_state.md R60). -/
def written {α : Type} (v : Option α) : Check α :=
  match v with
  | some x => .ok x
  | none => .error (.fault .unwrittenOperand)

/-- `for x in [a, a + n): f x`, stopping at the first stop (00_scope.md R19, 40_control.md R184). -/
def scan (f : Nat → Check Unit) : Nat → Nat → Check Unit
  | _, 0 => .ok ()
  | a, n + 1 =>
    match f a with
    | .ok _ => scan f (a + 1) n
    | .error e => .error e

/-- The completion event of 40_control.md R182 without the result writes: ERRCODE, ERRINFO, DONE ← 1,
BUSY ← 0. -/
def State.finish (s : State) (code : BitVec 4) (info : Half) : State :=
  { s with errcode := code, errinfo := info, done := true, seq := .idle }

/-- How a command ends (40_control.md R182): with its result writes and no error, with an error and no
result write at all (60_exceptions.md R401, R402), or in the model fault. -/
def conclude (s : State) (r : Check State) : Host.Outcome State Fault Refusal :=
  match r with
  | .ok t => .next (t.finish 0 0)
  | .error (.raise e info) => .next (s.finish e.code info)
  | .error (.fault f) => .fault f

/-- A reset of the core: every register and array as 70_reset_and_hazards.md R450 tabulates, so a command
in progress is aborted (R454). The build is constant (R453), and rst, the host agent, the schedule and
the draw counter are no state of the core (log 17). -/
def State.resetCore (s : State) : State :=
  { s with
    ie := false, seq := .idle, done := false, wbusy := false, errcode := 0, errinfo := 0,
    ndim := 0, operand := 0, inLen := 0, outLen := 0,
    resScalar := 0, resDetmod := 0, resPos := 0, resPair := 0,
    key := [], rmat := [], vec := [], rvec := [], inBuf := [], outBuf := [] }

end Sys2Proof.Machine
end

