-- ==== Sys2Proof/Machine/Arith.lean ====
section
/-! DEFINITION. The modular-arithmetic unit's functions on exact integers (00_scope.md R8, R13, R14;
41_linear_algebra.md R200 to R213). A matrix is a function of row and column, of which only the m×m
block in question is used. -/

namespace Sys2Proof.Machine

/-- An m×m matrix of exact integers, 41_linear_algebra.md R200: entry [i][j] is `A i j`. -/
abbrev Grid := Nat → Nat → Int

/-- mod26(x), the Euclidean residue, 00_scope.md R14. -/
def mod26 (x : Int) : Nat := (x % 26).toNat

/-- sum_{j in [0,n)} f j, exact, 00_scope.md R19. -/
def sumTo : Nat → (Nat → Int) → Int
  | 0, _ => 0
  | n + 1, f => sumTo n f + f n

/-- sign(r, c), 41_linear_algebra.md R203. -/
def sign (r c : Nat) : Int := if (r + c) % 2 = 0 then 1 else -1

/-- An index of a submatrix as one of the matrix without row or column r, R202. -/
def skip (r i : Nat) : Nat := if i < r then i else i + 1

/-- sub(A, r, c), 41_linear_algebra.md R202. -/
def sub (A : Grid) (r c : Nat) : Grid := fun i j => A (skip r i) (skip c j)

/-- det(A) of an m×m matrix, 41_linear_algebra.md R201. There is no 0×0 matrix (R200: m ≥ 1); the value
there is used nowhere (log 20). -/
def det : Nat → Grid → Int
  | 0, _ => 1
  | 1, A => A 0 0
  | 2, A => A 0 0 * A 1 1 - A 0 1 * A 1 0
  | m + 3, A => sumTo (m + 3) fun i => sign 0 i * A 0 i * det (m + 2) (sub A 0 i)

/-- cof(A, r, c) of an m×m matrix, 41_linear_algebra.md R204. -/
def cof (m : Nat) (A : Grid) (r c : Nat) : Int := sign r c * det (m - 1) (sub A r c)

/-- adj(A), 41_linear_algebra.md R206: the transpose of the cofactor matrix. -/
def adj (m : Nat) (A : Grid) : Grid := fun i j => cof m A j i

/-- modInverse(r), 41_linear_algebra.md R208: the least k in [0,26) with mod26(r·k) = 1, or none. -/
def modInverse (r : Nat) : Option Nat := (List.range 26).find? fun k => mod26 (r * k) == 1

/-- invKey(K) with k the inverse of the determinant's residue, 41_linear_algebra.md R211. -/
def invKey (m k : Nat) (A : Grid) : Grid := fun i j => mod26 (k * adj m A i j)

/-- mvmod(A, v)[i], 41_linear_algebra.md R213. -/
def mvmod (n : Nat) (A : Grid) (v : Nat → Int) (i : Nat) : Nat := mod26 (sumTo n fun j => A i j * v j)

/-- An exact integer in a 32-bit two's-complement register, 00_scope.md R13. -/
def intWord (x : Int) : Word := BitVec.ofInt 32 x

end Sys2Proof.Machine
end

