-- ==== Sys2Proof/Machine/Letters.lean ====
section
/-! DEFINITION. Letters as ASCII bytes (00_scope.md R18) and normalisation (44_digraph_cipher.md R314 to
R316). -/

namespace Sys2Proof.Machine

/-- letter(v), 00_scope.md R18. -/
def letter (v : Nat) : Byte := BitVec.ofNat 8 (0x41 + v)

/-- offset(b), 00_scope.md R18. -/
def offset (b : Byte) : Nat := b.toNat - 0x41

/-- isUpper(b), 00_scope.md R18. -/
def isUpper (b : Byte) : Bool := decide (0x41 ≤ b.toNat) && decide (b.toNat ≤ 0x5A)

/-- isLower(b), 00_scope.md R18. -/
def isLower (b : Byte) : Bool := decide (0x61 ≤ b.toNat) && decide (b.toNat ≤ 0x7A)

/-- isAlpha(b), 00_scope.md R18. -/
def isAlpha (b : Byte) : Bool := isUpper b || isLower b

/-- upper(b), 00_scope.md R18. -/
def upper (b : Byte) : Byte := if isLower b then b - 0x20#8 else b

/-- The letters of a text, upper-cased, before padding: the loop of 44_digraph_cipher.md R315. -/
def lettersOf (b : List Byte) : List Byte := (b.filter isAlpha).map upper

/-- normalize(b), 44_digraph_cipher.md R315: strip, upper-case, append 'X' when the count is odd. -/
def normalize (b : List Byte) : List Byte :=
  if (lettersOf b).length % 2 = 1 then lettersOf b ++ [0x58#8] else lettersOf b

end Sys2Proof.Machine
end

