-- ==== Sys2Proof/Machine/Operands.lean ====
section
/-! DEFINITION. Every operand form of the commands: the key matrix (40_control.md R185), the dimension
alone (R186), RMAT as a matrix and VEC (41_linear_algebra.md R220), the index fields (R215, R216), the
scalar OPERAND (10_state.md R43) and the input text (40_control.md R187). -/

namespace Sys2Proof.Machine

/-- n, NDIM[2:0] (10_state.md R42). -/
def State.dim (s : State) : Nat := s.ndim.toNat

/-- CheckDim, 40_control.md R186. -/
def checkDim (s : State) : Check Unit :=
  require (decide (2 ≤ s.dim) && decide (s.dim ≤ s.build.nMax)) .invalidKey 0xFFFF#16

/-- One entry of CheckKey's loop, 40_control.md R185: written, and at most 25. -/
def checkKeyEntry (s : State) (i j : Nat) : Check Unit := do
  let v ← written (s.key.read (entryIndex i j))
  require (decide (v.toNat ≤ 25)) .invalidKey (half (8 * i + j))

/-- The key matrix K, 40_control.md R185: K[i][j] = KEY[i][j][4:0]. -/
def State.keyGrid (s : State) : Grid := fun i j => (((s.key.read (entryIndex i j)).getD 0).toNat : Int)

/-- CheckKey, 40_control.md R185: the dimension, then every entry in row-major order. -/
def checkKey (s : State) : Check Unit := do
  checkDim s
  scan (fun i => scan (checkKeyEntry s i) 0 s.dim) 0 s.dim

/-- RMAT as signed integers, 41_linear_algebra.md R220. -/
def State.rmatGrid (s : State) : Grid := fun i j => ((s.rmat.read (entryIndex i j)).getD 0).toInt

/-- The loop over RMAT of 41_linear_algebra.md R220: every entry of the n×n block is written. -/
def checkRmat (s : State) : Check Unit :=
  scan (fun i => scan (fun j => (written (s.rmat.read (entryIndex i j))).map fun _ => ()) 0 s.dim) 0 s.dim

/-- One entry of VEC, 41_linear_algebra.md R220: written, and at most 25. -/
def checkVecEntry (s : State) (j : Nat) : Check Unit := do
  let v ← written (s.vec.read j)
  require (decide (v.toNat ≤ 25)) .invalidCharacter (half j)

/-- The loop over VEC of 41_linear_algebra.md R220. -/
def checkVec (s : State) : Check Unit := scan (checkVecEntry s) 0 s.dim

/-- v[j] = VEC[j][4:0], 41_linear_algebra.md R220. -/
def State.vecAt (s : State) (j : Nat) : Int := (((s.vec.read j).getD 0).toNat : Int)

/-- The check of the R and C fields, 41_linear_algebra.md R215 and R216. -/
def checkIndex (s : State) (r c : Nat) : Check Unit :=
  require (decide (r < s.dim) && decide (c < s.dim)) .invalidArgument (half (8 * r + c))

/-- OPERAND as a signed integer, sext_32 (10_state.md R43, 41_linear_algebra.md R218). -/
def State.operandInt (s : State) : Int := s.operand.toInt

/-- OPERAND[7:0] (10_state.md R43). -/
def State.operandByte0 (s : State) : Byte := wordByte s.operand 0

/-- OPERAND[15:8] (10_state.md R43). -/
def State.operandByte1 (s : State) : Byte := wordByte s.operand 1

/-- L, IN_LEN[15:0] (10_state.md R44). -/
def State.textLen (s : State) : Nat := s.inLen.toNat

/-- ReadIn(k), 40_control.md R187. -/
def readIn (s : State) (k : Nat) : Check Byte := written (s.inBuf.read k)

/-- IN[k] where it is written. -/
def State.inAt (s : State) (k : Nat) : Byte := (s.inBuf.read k).getD 0

/-- `for k in [0, L): b[k] <- ReadIn(k)`, 44_digraph_cipher.md R317 and R319. -/
def checkText (s : State) : Check Unit := scan (fun k => (readIn s k).map fun _ => ()) 0 s.textLen

/-- The bytes IN[0..L). -/
def State.text (s : State) : List Byte := (List.range s.textLen).map s.inAt

/-- `if L > TEXT_MAX then raise INVALID_ARGUMENT(L)`, 44_digraph_cipher.md R317, R319, R321. -/
def checkTextMax (s : State) : Check Unit :=
  require (decide (s.textLen ≤ s.build.textMax)) .invalidArgument s.inLen

/-- `if x[IN_LEN][15:0] != n then raise INVALID_BLOCK_LENGTH`, 42_matrix_cipher.md R261. -/
def checkBlock (s : State) : Check Unit := require (s.textLen == s.dim) .invalidBlockLength s.inLen

/-- One byte of the block, 42_matrix_cipher.md R262 and R263: written, and a letter 'A' to 'Z'. -/
def checkLetter (s : State) (j : Nat) : Check Unit := do
  let b ← readIn s j
  require (isUpper b) .invalidCharacter (half j)

/-- The character loop of 42_matrix_cipher.md R262 and R263. -/
def checkLetters (s : State) : Check Unit := scan (checkLetter s) 0 s.dim

/-- p[j] = offset(IN[j]), 42_matrix_cipher.md R262. -/
def State.blockAt (s : State) (j : Nat) : Int := (offset (s.inAt j) : Int)

/-- modInverse of a residue, raising NOT_INVERTIBLE(r) (41_linear_algebra.md R218, R219;
42_matrix_cipher.md R263). -/
def requireInverse (r : Nat) : Check Nat :=
  match modInverse r with
  | some k => .ok k
  | none => .error (.raise .notInvertible (half r))

/-! ### Result writes -/

/-- Every RMAT entry: `f i j` in the n×n block and 0 elsewhere (41_linear_algebra.md R215, R217, R219). -/
def State.writeRmat (s : State) (n : Nat) (f : Nat → Nat → Word) : State :=
  { s with
    rmat := s.rmat.writeBlock s.build.nMax s.build.nMax fun i j => if i < n ∧ j < n then f i j else 0 }

/-- Every RVEC entry: the residues for i < n and 0 for i ≥ n (41_linear_algebra.md R220). -/
def State.writeRvec (s : State) (n : Nat) (f : Nat → Nat) : State :=
  { s with rvec := s.rvec.writeRange 0 s.build.nMax fun i => if i < n then BitVec.ofNat 5 (f i) else 0 }

/-- OUT[k] ← t[k] for k < len(t), and OUT_LEN ← len(t) (10_state.md R45, R56). -/
def State.writeOut (s : State) (t : List Byte) : State :=
  { s with outBuf := s.outBuf.writeRange 0 t.length (fun k => t.getD k 0), outLen := half t.length }

end Sys2Proof.Machine
end

