-- ==== Sys2Proof/Machine/Control.lean ====
section
/-! DEFINITION. The control command (40_control.md section 3). -/

namespace Sys2Proof.Machine

/-- NOP, 40_control.md R188. -/
def execNop (s : State) : Host.Outcome State Fault Refusal := conclude s (.ok s)

end Sys2Proof.Machine
end

