-- ==== Sys2Proof/Machine/KeySquare.lean ====
section
/-! DEFINITION. The key square's geometry: SQ (00_scope.md R15), pos (43_key_square.md R290) and the
substitution rule (44_digraph_cipher.md R310, R311). -/

namespace Sys2Proof.Machine

/-- A position (row, col) in the key square. -/
structure Position where
  row : Nat
  col : Nat
  deriving DecidableEq, Repr

/-- SQ(row, col) = KEY_SQUARE[5·row + col], 00_scope.md R15. Rows and columns are below 5 and the
sequence has 25 bytes, so the default is never read. -/
def sq (b : Build) (row col : Nat) : Byte := b.square.getD (5 * row + col) 0

/-- pos(b), 43_key_square.md R290: the first match in row-major order, or none for NotFound. -/
def pos (b : Build) (c : Byte) : Option Position :=
  ((List.range 25).find? fun k => sq b (k / 5) (k % 5) == c).map fun k => ⟨k / 5, k % 5⟩

/-- One application of the substitution rule: the replacement bytes and the case applied. -/
structure Pair where
  out1 : Byte
  out2 : Byte
  case : Nat
  deriving DecidableEq, Repr

/-- The shift of the aligned cases, 44_digraph_cipher.md R310: 1, or 4 = -1 mod 5. -/
def Direction.shift : Direction → Nat
  | .enc => 1
  | .dec => 4

/-- subst(p1, p2, dir), 44_digraph_cipher.md R310, the cases tried in the order of R311. -/
def subst (b : Build) (p1 p2 : Position) (dir : Direction) : Pair :=
  let s := Direction.shift dir
  if p1.row = p2.row then
    ⟨sq b p1.row ((p1.col + s) % 5), sq b p2.row ((p2.col + s) % 5), 0⟩
  else if p1.col = p2.col then
    ⟨sq b ((p1.row + s) % 5) p1.col, sq b ((p2.row + s) % 5) p2.col, 1⟩
  else
    ⟨sq b p1.row p2.col, sq b p2.row p1.col, 2⟩

/-- RES_POS with both positions, 10_state.md R48. -/
def posWord (p1 p2 : Position) : Word :=
  BitVec.ofNat 32 p1.row ||| BitVec.ofNat 32 p1.col <<< 4
    ||| BitVec.ofNat 32 p2.row <<< 8 ||| BitVec.ofNat 32 p2.col <<< 12

/-- RES_PAIR, 10_state.md R49. -/
def pairWord (p : Pair) : Word :=
  p.out1.zeroExtend 32 ||| p.out2.zeroExtend 32 <<< 8 ||| BitVec.ofNat 32 p.case <<< 16

/-- A lookup that raises NOT_FOUND(idx), 60_exceptions.md R405. -/
def lookup (b : Build) (c : Byte) (idx : Nat) : Check Position :=
  match pos b c with
  | some p => .ok p
  | none => .error (.raise .notFound (half idx))

/-- The digraph loop of 44_digraph_cipher.md R319 and R321: `n` pairs from pair `q` on, letter k read by
`rd k`, each letter looked up before the next is read. The answer is the output text. -/
def digraphs (b : Build) (dir : Direction) (rd : Nat → Check Byte) : Nat → Nat → Check (List Byte)
  | _, 0 => .ok []
  | q, n + 1 => do
    let a ← rd (2 * q)
    let p1 ← lookup b a (2 * q)
    let c ← rd (2 * q + 1)
    let p2 ← lookup b c (2 * q + 1)
    let u := subst b p1 p2 dir
    let rest ← digraphs b dir rd (q + 1) n
    .ok (u.out1 :: u.out2 :: rest)

end Sys2Proof.Machine
end

