-- ==== Sys2Proof/Machine/DigraphCipher.lean ====
section
/-! DEFINITION. The digraph-substitution unit's commands (44_digraph_cipher.md). -/

namespace Sys2Proof.Machine

/-- DGRULE ENC | DEC, 44_digraph_cipher.md R313: ch1 is looked up before ch2. -/
def execDgrule (m : Direction) (s : State) : Host.Outcome State Fault Refusal :=
  conclude s do
    let p1 ← lookup s.build s.operandByte0 0
    let p2 ← lookup s.build s.operandByte1 1
    .ok { s with resPair := pairWord (subst s.build p1 p2 m), resPos := posWord p1 p2 }

/-- NORM, 44_digraph_cipher.md R317. -/
def execNorm (s : State) : Host.Outcome State Fault Refusal :=
  conclude s do
    checkTextMax s
    checkText s
    .ok (s.writeOut (normalize s.text))

/-- DENC, 44_digraph_cipher.md R319: all of IN is read, then normalised, then looked up pair by pair. -/
def execDenc (s : State) : Host.Outcome State Fault Refusal :=
  conclude s do
    checkTextMax s
    checkText s
    let t := normalize s.text
    let u ← digraphs s.build .enc (fun k => .ok (t.getD k 0)) 0 (t.length / 2)
    .ok (s.writeOut u)

/-- `if L is odd then raise INVALID_BLOCK_LENGTH(L)`, 44_digraph_cipher.md R320, R321. -/
def checkEven (s : State) : Check Unit := require (s.textLen % 2 == 0) .invalidBlockLength s.inLen

/-- DDEC, 44_digraph_cipher.md R321: IN is not normalised (R320). -/
def execDdec (s : State) : Host.Outcome State Fault Refusal :=
  conclude s do
    checkTextMax s
    checkEven s
    let u ← digraphs s.build .dec (readIn s) 0 (s.textLen / 2)
    .ok (s.writeOut u)

end Sys2Proof.Machine
end

