-- ==== Sys2Proof/Machine/KeySquareIndex.lean ====
section
/-! DEFINITION. The key-square lookup command (43_key_square.md). -/

namespace Sys2Proof.Machine

/-- FINDPOS, 43_key_square.md R292: row2 = col2 = 0. -/
def execFindpos (s : State) : Host.Outcome State Fault Refusal :=
  conclude s do
    let p ← lookup s.build s.operandByte0 0
    .ok { s with resPos := posWord p ⟨0, 0⟩ }

end Sys2Proof.Machine
end

