-- ==== Sys2Proof/Machine/LinearAlgebra.lean ====
section
/-! DEFINITION. The modular-arithmetic unit's commands (41_linear_algebra.md section 2). -/

namespace Sys2Proof.Machine

/-- DET, 41_linear_algebra.md R214. -/
def execDet (s : State) : Host.Outcome State Fault Refusal :=
  conclude s do
    checkKey s
    let d := det s.dim s.keyGrid
    .ok { s with resScalar := intWord d, resDetmod := BitVec.ofNat 5 (mod26 d) }

/-- SUBM r, c, 41_linear_algebra.md R215. -/
def execSubm (r c : Nat) (s : State) : Host.Outcome State Fault Refusal :=
  conclude s do
    checkKey s
    checkIndex s r c
    .ok (s.writeRmat (s.dim - 1) fun i j => intWord (sub s.keyGrid r c i j))

/-- COF r, c, 41_linear_algebra.md R216. -/
def execCof (r c : Nat) (s : State) : Host.Outcome State Fault Refusal :=
  conclude s do
    checkKey s
    checkIndex s r c
    .ok { s with resScalar := intWord (cof s.dim s.keyGrid r c) }

/-- ADJ, 41_linear_algebra.md R217. -/
def execAdj (s : State) : Host.Outcome State Fault Refusal :=
  conclude s do
    checkKey s
    .ok (s.writeRmat s.dim fun i j => intWord (adj s.dim s.keyGrid i j))

/-- MODINV, 41_linear_algebra.md R218. -/
def execModinv (s : State) : Host.Outcome State Fault Refusal :=
  conclude s do
    let k ← requireInverse (mod26 s.operandInt)
    .ok { s with resScalar := BitVec.ofNat 32 k }

/-- INVKEY, 41_linear_algebra.md R219. -/
def execInvkey (s : State) : Host.Outcome State Fault Refusal :=
  conclude s do
    checkKey s
    let d := det s.dim s.keyGrid
    let k ← requireInverse (mod26 d)
    .ok { s.writeRmat s.dim (fun i j => intWord (invKey s.dim k s.keyGrid i j)) with
      resScalar := intWord d, resDetmod := BitVec.ofNat 5 (mod26 d) }

/-- The matrix of MVMUL, 41_linear_algebra.md R220: KEY under CheckKey, or RMAT under CheckDim. -/
def checkMatrix (m : MatrixSelect) (s : State) : Check Grid :=
  match m with
  | .key => do
    checkKey s
    .ok s.keyGrid
  | .rmat => do
    checkDim s
    checkRmat s
    .ok s.rmatGrid

/-- MVMUL KEY | RMAT, 41_linear_algebra.md R220. -/
def execMvmul (m : MatrixSelect) (s : State) : Host.Outcome State Fault Refusal :=
  conclude s do
    let A ← checkMatrix m s
    checkVec s
    .ok (s.writeRvec s.dim (mvmod s.dim A s.vecAt))

end Sys2Proof.Machine
end

