-- ==== Sys2Proof/Machine/MatrixCipher.lean ====
section
/-! DEFINITION. The matrix cipher's commands (42_matrix_cipher.md). -/

namespace Sys2Proof.Machine

/-- The output text of a block: letter(u[i]) for i < n, 42_matrix_cipher.md R262 and R263. -/
def blockText (n : Nat) (u : Nat → Nat) : List Byte := (List.range n).map fun i => letter (u i)

/-- MENC, 42_matrix_cipher.md R262. -/
def execMenc (s : State) : Host.Outcome State Fault Refusal :=
  conclude s do
    checkKey s
    checkBlock s
    checkLetters s
    .ok (s.writeOut (blockText s.dim (mvmod s.dim s.keyGrid s.blockAt)))

/-- MDEC, 42_matrix_cipher.md R263: the inverse before the characters. -/
def execMdec (s : State) : Host.Outcome State Fault Refusal :=
  conclude s do
    checkKey s
    checkBlock s
    let k ← requireInverse (mod26 (det s.dim s.keyGrid))
    checkLetters s
    .ok (s.writeOut (blockText s.dim (mvmod s.dim (invKey s.dim k s.keyGrid) s.blockAt)))

end Sys2Proof.Machine
end

