-- ==== Sys2Proof/Machine/Dispatch.lean ====
section
/-! DEFINITION. Which meaning each command has: the completion of the command i from the state s in which
it is in progress (40_control.md R182, R183). -/

namespace Sys2Proof.Machine

/-- The completion step of 40_control.md R183, after decoding. -/
def exec (i : Instr) (s : State) : Host.Outcome State Fault Refusal :=
  match i with
  | .nop => Sys2Proof.Machine.execNop s
  | .det => Sys2Proof.Machine.execDet s
  | .subm row col => Sys2Proof.Machine.execSubm row col s
  | .cof row col => Sys2Proof.Machine.execCof row col s
  | .adj => Sys2Proof.Machine.execAdj s
  | .modinv => Sys2Proof.Machine.execModinv s
  | .invkey => Sys2Proof.Machine.execInvkey s
  | .mvmul m => Sys2Proof.Machine.execMvmul m s
  | .menc => Sys2Proof.Machine.execMenc s
  | .mdec => Sys2Proof.Machine.execMdec s
  | .findpos => Sys2Proof.Machine.execFindpos s
  | .dgrule m => Sys2Proof.Machine.execDgrule m s
  | .norm => Sys2Proof.Machine.execNorm s
  | .denc => Sys2Proof.Machine.execDenc s
  | .ddec => Sys2Proof.Machine.execDdec s

end Sys2Proof.Machine
end

