-- ==== Sys2Proof/WellFormed.lean ====
section
/-! DEFINITION. Which commands have a command word: R and C are three-bit fields (30_encoding.md R142,
R147: "each 0..7"). -/

namespace Sys2Proof

/-- A value of the three-bit R or C field, 30_encoding.md R142. -/
def indexOk (x : Nat) : Bool := decide (x ≤ 7)

/-- A command whose every field fits its bits. Only SUBM and COF have fields that might not. -/
def Instr.wf : Instr → Bool
  | .nop => true
  | .det => true
  | .subm r c => indexOk r && indexOk c
  | .cof r c => indexOk r && indexOk c
  | .adj => true
  | .modinv => true
  | .invkey => true
  | .mvmul _ => true
  | .menc => true
  | .mdec => true
  | .findpos => true
  | .dgrule _ => true
  | .norm => true
  | .denc => true
  | .ddec => true

end Sys2Proof
end

