-- ==== Sys2Proof/Decode.lean ====
section
/-! DEFINITION. Command words: decoding (30_encoding.md R141 to R146, 40_control.md R181), encoding
(R144, R145) and the assembler's notation (R147). -/

namespace Sys2Proof

/-- Why a word is illegal (30_encoding.md R146). Both are answered by ILLEGAL_COMMAND when the command
completes (40_control.md R181); neither stops the machine. -/
inductive DecodeError
  /-- w[7:0] is not an opcode of R144. -/
  | reservedOpcode
  /-- A known opcode with a nonzero unused or reserved bit. -/
  | nonzeroUnusedBit
  deriving DecidableEq, Repr

/-- w[7:0], the OP field (R141). -/
def opField (w : Word) : Byte := w.extractLsb' 0 8

/-- w[8], the M field (R141). -/
def mField (w : Word) : Bool := w.getLsbD 8

/-- w[18:16], the R field, zero-extended (R141, R142). -/
def rField (w : Word) : Nat := (w.extractLsb' 16 3).toNat

/-- w[22:20], the C field, zero-extended (R141, R142). -/
def cField (w : Word) : Nat := (w.extractLsb' 20 3).toNat

/-- M of MVMUL: 0 selects KEY, 1 RMAT (R147). -/
def MatrixSelect.ofBit (m : Bool) : MatrixSelect := if m then .rmat else .key

/-- M of DGRULE: 0 is ENC, 1 is DEC (R147). -/
def Direction.ofBit (m : Bool) : Direction := if m then .dec else .enc

/-- One row of the opcode map of R144. -/
structure OpcodeRow where
  op : Byte
  mask : Word
  value : Word
  command : Word → Instr

/-- The opcode map, row by row as R144 lists it. -/
def opcodeMap : List OpcodeRow :=
  [ ⟨0x00, 0xFFFFFFFF, 0x00000000, fun _ => .nop⟩,
    ⟨0x01, 0xFFFFFFFF, 0x00000001, fun _ => .det⟩,
    ⟨0x02, 0xFF88FFFF, 0x00000002, fun w => .subm (rField w) (cField w)⟩,
    ⟨0x03, 0xFF88FFFF, 0x00000003, fun w => .cof (rField w) (cField w)⟩,
    ⟨0x04, 0xFFFFFFFF, 0x00000004, fun _ => .adj⟩,
    ⟨0x05, 0xFFFFFFFF, 0x00000005, fun _ => .modinv⟩,
    ⟨0x06, 0xFFFFFFFF, 0x00000006, fun _ => .invkey⟩,
    ⟨0x07, 0xFFFFFEFF, 0x00000007, fun w => .mvmul (.ofBit (mField w))⟩ ] ++
  [ ⟨0x08, 0xFFFFFFFF, 0x00000008, fun _ => .menc⟩,
    ⟨0x09, 0xFFFFFFFF, 0x00000009, fun _ => .mdec⟩,
    ⟨0x10, 0xFFFFFFFF, 0x00000010, fun _ => .findpos⟩,
    ⟨0x11, 0xFFFFFEFF, 0x00000011, fun w => .dgrule (.ofBit (mField w))⟩,
    ⟨0x12, 0xFFFFFFFF, 0x00000012, fun _ => .norm⟩,
    ⟨0x13, 0xFFFFFFFF, 0x00000013, fun _ => .denc⟩,
    ⟨0x14, 0xFFFFFFFF, 0x00000014, fun _ => .ddec⟩ ]

/-- The legality check and the command it names (30_encoding.md R143, 40_control.md R181). -/
def decode (w : Word) : Except DecodeError Instr :=
  match opcodeMap.find? (fun row => row.op == opField w) with
  | none => .error .reservedOpcode
  | some row => if w &&& row.mask = row.value then .ok (row.command w) else .error .nonzeroUnusedBit

/-- A row and a column index at w[18:16] and w[22:20] (R141, R145). -/
def indexBits (r c : Nat) : Word := BitVec.ofNat 32 r <<< 16 ||| BitVec.ofNat 32 c <<< 20

/-- MVMUL's M bit at w[8] (R141, R145, R147). -/
def MatrixSelect.bit : MatrixSelect → Word
  | .key => 0x00000000
  | .rmat => 0x00000100

/-- DGRULE's M bit at w[8] (R141, R145, R147). -/
def Direction.bit : Direction → Word
  | .enc => 0x00000000
  | .dec => 0x00000100

/-- The command word, from the bit patterns of R145. -/
def encode : Instr → Word
  | .nop => 0x00000000
  | .det => 0x00000001
  | .subm r c => 0x00000002 ||| indexBits r c
  | .cof r c => 0x00000003 ||| indexBits r c
  | .adj => 0x00000004
  | .modinv => 0x00000005
  | .invkey => 0x00000006
  | .mvmul m => 0x00000007 ||| m.bit
  | .menc => 0x00000008
  | .mdec => 0x00000009
  | .findpos => 0x00000010
  | .dgrule m => 0x00000011 ||| m.bit
  | .norm => 0x00000012
  | .denc => 0x00000013
  | .ddec => 0x00000014

/-- The host's question: the command the decoder reads from a table word. A command is one 32-bit bus
word (R140), so the table's numbering is the word's own; bits above `nbits` are 0. -/
def decodeTableWord (nbits w : Nat) : Option Instr :=
  match decode (BitVec.ofNat 32 (w % 2 ^ nbits)) with
  | .ok i => some i
  | .error _ => none

/-- An operand as the assembler's notation of R147 writes it. -/
inductive AsmOperand
  | num (n : Nat)
  | key
  | rmat
  | enc
  | dec
  deriving DecidableEq, Repr

/-- The assembler of 30_encoding.md R147: "rejects an operand out of range and any operand on a command
that takes none"; a mnemonic it does not list, or operands of the wrong number or kind, are no command
of the notation and are rejected too. -/
def assemble (mnemonic : String) (operands : List AsmOperand) : Option Instr :=
  match mnemonic, operands with
  | "NOP", [] => some .nop
  | "DET", [] => some .det
  | "SUBM", [.num r, .num c] => if indexOk r && indexOk c then some (.subm r c) else none
  | "COF", [.num r, .num c] => if indexOk r && indexOk c then some (.cof r c) else none
  | "ADJ", [] => some .adj
  | "MODINV", [] => some .modinv
  | "INVKEY", [] => some .invkey
  | "MVMUL", [.key] => some (.mvmul .key)
  | "MVMUL", [.rmat] => some (.mvmul .rmat)
  | "MENC", [] => some .menc
  | "MDEC", [] => some .mdec
  | "FINDPOS", [] => some .findpos
  | "DGRULE", [.enc] => some (.dgrule .enc)
  | "DGRULE", [.dec] => some (.dgrule .dec)
  | "NORM", [] => some .norm
  | "DENC", [] => some .denc
  | "DDEC", [] => some .ddec
  | _, _ => none

end Sys2Proof
end

