-- ==== Sys2Proof/Machine/Flags.lean ====
section
/-! DEFINITION. The core's only flags, BUSY, DONE, ERR and WBUSY (10_state.md R62), and the interrupt
output computed from them (60_exceptions.md R420). There are no arithmetic flags. -/

namespace Sys2Proof.Machine

/-- One flag as a bit of a register. -/
def flagBit (b : Bool) (pos : Nat) : Word := (if b then 1#32 else 0#32) <<< pos

/-- STATUS.BUSY, 10_state.md R35: the sequencer's phase. -/
def State.busy (s : State) : Bool :=
  match s.seq with
  | .idle => false
  | .busy _ => true

/-- STATUS.ERR, 10_state.md R37: 1 exactly when ERRCODE ≠ 0. -/
def State.err (s : State) : Bool := s.errcode != 0

/-- STATUS as the host reads it, 10_state.md R34. -/
def State.statusWord (s : State) : Word :=
  flagBit s.busy 0 ||| flagBit s.done 1 ||| flagBit s.err 2 ||| flagBit s.wbusy 3

/-- CTRL as the host reads it, 10_state.md R33. -/
def State.ctrlWord (s : State) : Word := flagBit s.ie 0

/-- A host write of v to STATUS, 10_state.md R34: v[1] clears DONE, v[3] clears WBUSY, nothing else. -/
def State.writeStatus (s : State) (v : Word) : State :=
  { s with done := s.done && !v.getLsbD 1, wbusy := s.wbusy && !v.getLsbD 3 }

/-- A host write of v to CTRL, 10_state.md R33: only bit 0 is kept. -/
def State.writeCtrl (s : State) (v : Word) : State := { s with ie := v.getLsbD 0 }

/-- The interrupt output, 60_exceptions.md R420: a level, DONE & IE. -/
def State.irq (s : State) : Bool := s.done && s.ie

end Sys2Proof.Machine
end

