-- ==== Sys2Proof/Machine/Bus.lean ====
section
/-! DEFINITION. The register space as the host reaches it: the map of 10_state.md section 1, reads
(R57, R60, R103; 70_reset_and_hazards.md R461) and writes (R34, R38, R39, R57, R58; R460). Offsets here
are multiples of 4 below 2^14; what other accesses do is in HostAgent. -/

namespace Sys2Proof.Machine

/-- What stands at an offset of the register space (10_state.md section 1). -/
inductive Reg
  | id
  | cfg
  | ctrl
  | status
  | cmd
  | errcode
  | errinfo
  | ndim
  | operand
  | inLen
  | outLen
  | resScalar
  | resDetmod
  | resPos
  | resPair
  | key (i j : Nat)
  | rmat (i j : Nat)
  | vec (j : Nat)
  | rvec (i : Nat)
  | ksq (w : Nat)
  | inWord (w : Nat)
  | outWord (w : Nat)
  | reserved
  deriving DecidableEq, Repr

/-- The registers at offsets 0x000 to 0x038, by word. -/
def scalarReg : Nat → Reg
  | 0 => .id
  | 1 => .cfg
  | 2 => .ctrl
  | 3 => .status
  | 4 => .cmd
  | 5 => .errcode
  | 6 => .errinfo
  | 7 => .ndim
  | 8 => .operand
  | 9 => .inLen
  | 10 => .outLen
  | 11 => .resScalar
  | 12 => .resDetmod
  | 13 => .resPos
  | 14 => .resPair
  | _ => .reserved

/-- The entry [i][j] at offset `base + 0x20·i + 4·j` of a register file, reserved outside the N_MAX × N_MAX
block (10_state.md R50, R51). `rel` is the offset less the base. -/
def blockReg (b : Build) (mk : Nat → Nat → Reg) (rel : Nat) : Reg :=
  if rel / 0x20 < b.nMax ∧ rel % 0x20 / 4 < b.nMax then mk (rel / 0x20) (rel % 0x20 / 4) else .reserved

/-- Entry `rel / 4` of a file of `n` words, reserved beyond it. -/
def lineReg (n : Nat) (mk : Nat → Reg) (rel : Nat) : Reg :=
  if rel / 4 < n then mk (rel / 4) else .reserved

/-- The register map of 10_state.md section 1. -/
def regAt (b : Build) (off : Nat) : Reg :=
  if off < 0x040 then scalarReg (off / 4)
  else if off < 0x100 then .reserved
  else if off < 0x200 then blockReg b .key (off - 0x100)
  else if off < 0x300 then blockReg b .rmat (off - 0x200)
  else if off < 0x320 then lineReg b.nMax .vec (off - 0x300)
  else if off < 0x340 then lineReg b.nMax .rvec (off - 0x320)
  else if off < 0x380 then .reserved
  else if off < 0x39C then lineReg 7 .ksq (off - 0x380)
  else if off < 0x1000 then .reserved
  else if off < 0x2000 then lineReg (inWords b) .inWord (off - 0x1000)
  else if off < 0x3000 then lineReg (outWords b) .outWord (off - 0x2000)
  else .reserved

/-! ### Reads -/

/-- ID, 10_state.md R31. -/
def idWord : Word := 0x43523236

/-- CFG = {1, TEXT_MAX, 0, N_MAX}, 10_state.md R32. -/
def cfgWord (b : Build) : Word :=
  BitVec.ofNat 32 b.nMax ||| BitVec.ofNat 32 b.textMax <<< 16 ||| 1#32 <<< 28

/-- KSQ word w, 10_state.md R54: bytes 4·w to 4·w + 3 of KEY_SQUARE, 0 beyond its 25 bytes. -/
def ksqWord (b : Build) (w : Nat) : Word := packWord fun k => b.square.getD (4 * w + k) 0

/-- A host read: a fixed value, or bits of a drawn one. -/
inductive ReadValue
  /-- The register's value. -/
  | known (v : Word)
  /-- `f d` for a drawn d: a value unconstrained in the defined bits (10_state.md R60,
  70_reset_and_hazards.md R461). -/
  | drawn (f : Word → Word)

/-- A result register: drawn in its defined bits while BUSY = 1 (70_reset_and_hazards.md R461). -/
def resultRead (s : State) (defined v : Word) : ReadValue :=
  if s.busy then .drawn fun d => d &&& defined else .known v

/-- An entry of a register file: its value, or drawn in its defined bits where unwritten (10_state.md
R60). -/
def entryRead {n : Nat} (defined : Word) (v : Option (BitVec n)) : ReadValue :=
  match v with
  | some x => .known (x.zeroExtend 32)
  | none => .drawn fun d => d &&& defined

/-- Word w of a text buffer: each byte as written, the unwritten ones drawn (10_state.md R55, R56, R60). -/
def bufferRead (m : Memory Byte) (w : Nat) : ReadValue :=
  if (List.range 4).all fun k => (m.read (4 * w + k)).isSome then
    .known (packWord fun k => (m.read (4 * w + k)).getD 0)
  else
    .drawn fun d => packWord fun k => (m.read (4 * w + k)).getD (wordByte d k)

/-- A result array: drawn whole while BUSY = 1 (70_reset_and_hazards.md R461). -/
def resultArrayRead (s : State) (defined : Word) (r : ReadValue) : ReadValue :=
  if s.busy then .drawn fun d => d &&& defined else r

/-- What a host read of a register gives. -/
def regRead (s : State) : Reg → ReadValue
  | .id => .known idWord
  | .cfg => .known (cfgWord s.build)
  | .ctrl => .known s.ctrlWord
  | .status => .known s.statusWord
  | .cmd => .known 0
  | .errcode => .known (s.errcode.zeroExtend 32)
  | .errinfo => .known (s.errinfo.zeroExtend 32)
  | .ndim => .known (s.ndim.zeroExtend 32)
  | .operand => .known s.operand
  | .inLen => .known (s.inLen.zeroExtend 32)
  | .outLen => resultRead s 0x0000FFFF (s.outLen.zeroExtend 32)
  | .resScalar => resultRead s 0xFFFFFFFF s.resScalar
  | .resDetmod => resultRead s 0x0000001F (s.resDetmod.zeroExtend 32)
  | .resPos => resultRead s 0x00007777 s.resPos
  | .resPair => resultRead s 0x0003FFFF s.resPair
  | .key i j => entryRead 0x0000001F (s.key.read (entryIndex i j))
  | .rmat i j => resultArrayRead s 0xFFFFFFFF (entryRead 0xFFFFFFFF (s.rmat.read (entryIndex i j)))
  | .vec j => entryRead 0x0000001F (s.vec.read j)
  | .rvec i => resultArrayRead s 0x0000001F (entryRead 0x0000001F (s.rvec.read i))
  | .ksq w => .known (ksqWord s.build w)
  | .inWord w => bufferRead s.inBuf w
  | .outWord w => resultArrayRead s 0xFFFFFFFF (bufferRead s.outBuf w)
  | .reserved => .known 0

/-- The word a read returns: a drawn one uses the draw the counter points at. -/
def ReadValue.word (r : ReadValue) (draws : Nat) : Word :=
  match r with
  | .known v => v
  | .drawn f => f (Config.freeWord draws)

/-- A drawn read uses up its draw, so that the next one may differ (20_memory.md R103). -/
def ReadValue.used (r : ReadValue) : Nat :=
  match r with
  | .known _ => 0
  | .drawn _ => 1

/-- MemRead of the aligned word at `off`, answered by the core (00_scope.md R16). -/
def busRead (off : Nat) (s : State) : Word × State :=
  let r := regRead s (regAt s.build off)
  (r.word s.draws, { s with draws := s.draws + r.used })

/-! ### Writes -/

/-- Issue, 40_control.md R180: "Issue writes nothing else". -/
def State.issue (s : State) (w : Word) : State :=
  { s with seq := .busy w, done := false, errcode := 0, errinfo := 0 }

/-- A host write to a register while BUSY = 0. Read-only registers and reserved offsets ignore it
(10_state.md R57, R58), reserved bits are dropped (R57). -/
def regWrite (s : State) (r : Reg) (v : Word) : State :=
  match r with
  | .id => s
  | .cfg => s
  | .ctrl => s.writeCtrl v
  | .status => s.writeStatus v
  | .cmd => s.issue v
  | .errcode => s
  | .errinfo => s
  | .ndim => { s with ndim := v.extractLsb' 0 3 }
  | .operand => { s with operand := v }
  | .inLen => { s with inLen := v.extractLsb' 0 16 }
  | .outLen => s
  | .resScalar => s
  | .resDetmod => s
  | .resPos => s
  | .resPair => s
  | .key i j => { s with key := s.key.write (entryIndex i j) (v.extractLsb' 0 5) }
  | .rmat _ _ => s
  | .vec j => { s with vec := s.vec.write j (v.extractLsb' 0 5) }
  | .rvec _ => s
  | .ksq _ => s
  | .inWord w => { s with inBuf := s.inBuf.writeRange (4 * w) 4 (wordByte v) }
  | .outWord _ => s
  | .reserved => s

/-- A host write to a register while BUSY = 1, 70_reset_and_hazards.md R460: dropped with WBUSY ← 1, but
for CTRL and STATUS. -/
def regWriteBusy (s : State) (r : Reg) (v : Word) : State :=
  match r with
  | .ctrl => s.writeCtrl v
  | .status => s.writeStatus v
  | _ => { s with wbusy := true }

/-- MemWrite of the aligned word at `off`, performed by the core (00_scope.md R16). -/
def busWrite (off : Nat) (v : Word) (s : State) : State :=
  if s.busy then regWriteBusy s (regAt s.build off) v else regWrite s (regAt s.build off) v

end Sys2Proof.Machine
end

