-- ==== Sys2Proof/Machine/HostAgent.lean ====
section
/-! DEFINITION. The host agent: its bus accesses (20_memory.md R101, R104, R106), its host-local statements,
and the statements of the host notation with their exact expansions (30_encoding.md R148). -/

namespace Sys2Proof.Machine

/-! ### Host-local values -/

/-- `x div y`. The quotient where x ≥ 0 and y > 0, or y divides x; a free value elsewhere (log 11). -/
def quotient (x y : Int) : Int :=
  if 0 ≤ x ∧ 0 < y ∨ y ≠ 0 ∧ x % y = 0 then x / y else Config.freeQuotient x y

/-- `ceil(x / y)`, the least integer not below the exact quotient; a free value for y = 0 (log 11). -/
def ceiling (x y : Int) : Int := if y = 0 then Config.freeCeiling x else -((-x).fdiv y)

/-- The value of a host-local expression, 30_encoding.md R148. A name nobody has assigned has a free value
(log 11). -/
def HostExpr.eval (names : Memory Int) : HostExpr → Int
  | .lit z => z
  | .name x => (names.read x).getD (Config.unassignedName x)
  | .add a b => a.eval names + b.eval names
  | .sub a b => a.eval names - b.eval names
  | .mul a b => a.eval names * b.eval names
  | .div a b => quotient (a.eval names) (b.eval names)
  | .ceilDiv a b => ceiling (a.eval names) (b.eval names)

/-- A comparison of two host-local values. -/
def HostRel.holds : HostRel → Int → Int → Bool
  | .eq, x, y => decide (x = y)
  | .ne, x, y => decide (x ≠ y)
  | .lt, x, y => decide (x < y)
  | .ge, x, y => decide (x ≥ y)

/-- The 32-bit value a write puts on the bus (00_scope.md R16): the integer itself within [0, 2^32), a free
value outside (log 11). -/
def wordOf (x : Int) : Word :=
  if ((BitVec.ofInt 32 x).toNat : Int) = x then BitVec.ofInt 32 x else Config.freeWriteWord x

/-! ### The host agent's moves -/

/-- The host agent stops (20_memory.md R101, 60_exceptions.md R406): the core's state is unchanged. -/
def State.haltHost (s : State) (f : Fault) : State :=
  { s with host := { s.host with halted := some f } }

/-- On to the next operation of the program. -/
def State.advanceHost (s : State) : State :=
  { s with host := { s.host with position := s.host.position + 1 } }

/-- On to another operation of the program. -/
def State.jumpHost (s : State) (p : Nat) : State :=
  { s with host := { s.host with position := p } }

/-- `name <- v`. -/
def State.setName (s : State) (x : Nat) (v : Int) : State :=
  { s with host := { s.host with names := s.host.names.write x v } }

/-- CORE_BASE + off, 30_encoding.md R148. -/
def hostAddress (b : Build) (off : Int) : Int := (b.coreBase : Int) + off

/-- The offset an address has in the window of 2^14 bytes at CORE_BASE, if it lies there (10_state.md R30,
20_memory.md R104). -/
def windowOffset (b : Build) (addr : Int) : Option Nat :=
  if (b.coreBase : Int) ≤ addr ∧ addr < (b.coreBase : Int) + 0x4000 then
    some (addr - (b.coreBase : Int)).toNat
  else none

/-- The offset of an access the core accepts, or why the host agent stops (20_memory.md R101, R104;
70_reset_and_hazards.md R450). -/
def accessOffset (s : State) (width : Nat) (off : Int) : Except Fault Nat :=
  if s.rst then .error .accessInReset
  else
    match windowOffset s.build (hostAddress s.build off) with
    | none => .error .outsideWindow
    | some o => if width = 4 ∧ o % 4 = 0 then .ok o else .error .busError

/-- A host read of `width` bytes: the value and the state after, or why the host agent stops. -/
def hostRead (s : State) (width : Nat) (off : Int) : Except Fault (Word × State) :=
  match accessOffset s width off with
  | .ok o => .ok (busRead o s)
  | .error f => .error f

/-- A host write of `width` bytes. -/
def hostWrite (s : State) (width : Nat) (off : Int) (v : Word) : Except Fault State :=
  match accessOffset s width off with
  | .ok o => .ok (busWrite o v s)
  | .error f => .error f

/-- `name <- v` for a word v read from the bus. The integer the name gets is the word as an unsigned number:
the model's choice, since 00_scope.md R16 and 30_encoding.md R148 do not say how a later comparison or sum
reads the 32 bits (DESIGN CHOICE, log 25). -/
def State.receive (s : State) (x : Nat) (v : Word) : State := s.setName x (v.toNat : Int)

/-- One operation of the host program (30_encoding.md R148). An access is checked before the value it carries
is looked at, so a bad width or offset is a bus error whatever the value (20_memory.md R101). -/
def hostOp (op : HostOp) (s : State) : State :=
  match op with
  | .read width off x =>
    match hostRead s width (off.eval s.host.names) with
    | .error f => s.haltHost f
    | .ok (v, t) => (t.receive x v).advanceHost
  | .write width off e =>
    match hostWrite s width (off.eval s.host.names) (wordOf (e.eval s.host.names)) with
    | .error f => s.haltHost f
    | .ok t => t.advanceHost
  | .poll x =>
    match hostRead s 4 0x00C with
    | .error f => s.haltHost f
    | .ok (v, t) => if v.getLsbD 0 then t.receive x v else (t.receive x v).advanceHost
  | .assign x e => (s.setName x (e.eval s.host.names)).advanceHost
  | .branch rel a b p =>
    if rel.holds (a.eval s.host.names) (b.eval s.host.names) then s.jumpHost p else s.advanceHost
  | .goto p => s.jumpHost p

/-- One host turn: a host that has stopped, or whose program is over, does nothing. -/
def hostStep (s : State) : State :=
  match s.host.halted with
  | some _ => s
  | none =>
    match s.host.program[s.host.position]? with
    | none => s
    | some op => hostOp op s

/-! ### The host notation -/

/-- The statements of 30_encoding.md R148, row by row. -/
inductive HostStmt
  | wr (off v : HostExpr)
  | rd (off : HostExpr) (name : Nat)
  | issue (i : Instr)
  | wait
  | ldkey (n : Nat) (rows : List (List Nat))
  | ldvec (values : List Nat)
  | ldtext (text : List Byte)
  | clrdone
  | assign (name : Nat) (e : HostExpr)
  | label (l : Nat)
  | branch (rel : HostRel) (a b : HostExpr) (l : Nat)
  | goto (l : Nat)
  deriving DecidableEq, Repr

/-- `WR off, v` with a known offset and value: MemWrite(CORE_BASE + off, 4, v). -/
def wrOp (off v : Nat) : HostOp := .write 4 (.lit (off : Int)) (.lit (v : Int))

/-- word_w(s): bytes 4w to 4w+3 of the text, little-endian, padded with 0x00 (30_encoding.md R148). -/
def textWord (text : List Byte) (w : Nat) : Word := packWord fun k => text.getD (4 * w + k) 0

/-- The entries of LDKEY in row-major order: (i, j, a_ij) for i, j < n. -/
def keyEntries (n : Nat) (rows : List (List Nat)) : List (Nat × Nat × Nat) :=
  (rows.take n).zipIdx.flatMap fun (row, i) => (row.take n).zipIdx.map fun (a, j) => (i, j, a)

/-- The number of the host-local name `s` that WAIT's expansion assigns (30_encoding.md R148, log 12). -/
def waitName : Nat := 0

/-- The expansion of a statement, 30_encoding.md R148. `target` gives the position each label marks; a label
is no operation. -/
def HostStmt.expand (target : Nat → Nat) : HostStmt → List HostOp
  | .wr off v => [.write 4 off v]
  | .rd off x => [.read 4 off x]
  | .issue i => [wrOp 0x010 (encode i).toNat]
  | .wait => [.poll waitName]
  | .ldkey n rows =>
    wrOp 0x01C n :: (keyEntries n rows).map fun (i, j, a) => wrOp (0x100 + 0x20 * i + 4 * j) a
  | .ldvec values => values.zipIdx.map fun (v, j) => wrOp (0x300 + 4 * j) v
  | .ldtext text =>
    ((List.range ((text.length + 3) / 4)).map fun w => wrOp (0x1000 + 4 * w) (textWord text w).toNat)
      ++ [wrOp 0x024 text.length]
  | .clrdone => [wrOp 0x00C 0x00000002]
  | .assign x e => [.assign x e]
  | .label _ => []
  | .branch rel a b l => [.branch rel a b (target l)]
  | .goto l => [.goto (target l)]

/-- Where each label of a program stands, the program's first operation being at position `p`. -/
def labelPositions : Nat → List HostStmt → List (Nat × Nat)
  | _, [] => []
  | p, st :: rest =>
    match st with
    | .label l => (l, p) :: labelPositions p rest
    | _ => labelPositions (p + (st.expand id).length) rest

/-- A statement of the notation, among the labels of its program: a command the assembler accepts
(30_encoding.md R147), a jump to a label that marks a statement (R148). -/
def HostStmt.accepted (labels : List (Nat × Nat)) : HostStmt → Bool
  | .issue i => i.wf
  | .branch _ _ _ l => (labels.lookup l).isSome
  | .goto l => (labels.lookup l).isSome
  | _ => true

/-- A host program, expanded; none where it is no program of the notation: a statement is not accepted, or
two statements bear one label. -/
def hostProgram (stmts : List HostStmt) : Option (List HostOp) :=
  let labels := labelPositions 0 stmts
  if stmts.all (HostStmt.accepted labels) && decide (labels.map Prod.fst).Nodup then
    some (stmts.flatMap (HostStmt.expand fun l => (labels.lookup l).getD 0))
  else none

/-- The machine with an expanded host program loaded from outside, at its first operation (log 14). -/
def State.withProgram (s : State) (program : List HostOp) : State :=
  { s with host := ⟨program, 0, [], none⟩ }

end Sys2Proof.Machine
end

