-- ==== Sys2Proof/Machine/Sequencer.lean ====
section
/-! DEFINITION. The core's one step, completion (40_control.md R181 to R183), and whose turn it is: the
schedule (log 4), reset (70_reset_and_hazards.md R450, R454) and the weak fairness of completion (R470). -/

namespace Sys2Proof.Machine

/-- The word the next completion decodes: LATCH, 40_control.md R180, R181. -/
def State.latch (s : State) : Option Word :=
  match s.seq with
  | .idle => none
  | .busy w => some w

/-- `raise ILLEGAL_COMMAND(zext_16(LATCH[7:0]))`, 40_control.md R181, 30_encoding.md R146. -/
def execIllegal (w : Word) (s : State) : Host.Outcome State Fault Refusal :=
  conclude s (.error (.raise .illegalCommand ((opField w).zeroExtend 16)))

/-- The completion of the command in progress, 40_control.md R181 to R183; an idle core has no step. -/
def coreStep (s : State) : Host.Outcome State Fault Refusal :=
  match s.latch with
  | none => .next s
  | some w =>
    match decode w with
    | .ok i => exec i s
    | .error _ => execIllegal w s

/-- The core's turn: while rst is asserted the core does nothing (70_reset_and_hazards.md R450). -/
def coreTurn (s : State) : Host.Outcome State Fault Refusal :=
  if s.rst then .next s else coreStep s

/-- A host operation and a completion in the same bus cycle: the access first, so that a completion and a
clearing write leave DONE = 1 (10_state.md R36, log 6). An idle core has no completion to make. -/
def sameCycleTurn (s : State) : Host.Outcome State Fault Refusal :=
  if s.busy then coreTurn (hostStep s) else .next (hostStep s)

/-- One scheduled turn. -/
def takeTurn (t : Turn) (s : State) : Host.Outcome State Fault Refusal :=
  match t with
  | .host => .next (hostStep s)
  | .core => coreTurn s
  | .sameCycle => sameCycleTurn s
  | .rstAssert => .next { s.resetCore with rst := true }
  | .rstRelease => .next { s with rst := false }

/-- A host with nothing more to wait for: its next operation, or the fault that has stopped it (60_exceptions.md
R406). -/
def hostOrFault (s : State) : Host.Outcome State Fault Refusal :=
  match s.host.halted with
  | some f => .fault f
  | none => .next (hostStep s)

/-- The move when the schedule is used up (log 4): nothing while rst is asserted, a command in progress
completes (70_reset_and_hazards.md R470: completion is eventually taken), else the host goes on. -/
def unscheduledTurn (s : State) : Host.Outcome State Fault Refusal :=
  if s.rst then .next s
  else if s.busy then coreStep s
  else hostOrFault s

end Sys2Proof.Machine
end

