-- ==== Sys2Proof/Machine/Step.lean ====
section
/-! DEFINITION. One step of the machine, and how a command word is placed so that the next step runs it. -/

namespace Sys2Proof.Machine

/-- One step: the turn the schedule names next, or the move made without a schedule. -/
def step (s : State) : Host.Outcome State Fault Refusal :=
  match s.turns with
  | t :: ts => takeTurn t { s with turns := ts }
  | [] => unscheduledTurn s

/-- The state in which the command word `w` has just been issued (40_control.md R180) and the core moves
next, so that the very next step decodes and completes it. The machine fetches nothing (20_memory.md R112):
a command reaches the core by the host's write of CMD, for which this stands (log 14). -/
def State.withFetchWord (s : State) (nbits w : Nat) : State :=
  { s.issue (BitVec.ofNat 32 (w % 2 ^ nbits)) with rst := false, turns := .core :: s.turns }

end Sys2Proof.Machine
end

