-- ==== Sys2Proof/Safety.lean ====
section
/-! DEFINITION. The terms claims use: which operands make a command complete with its own effect, the
invariant of the machine, and what a run without a stop is. -/

namespace Sys2Proof.Machine

/-! ### Operands a command finds ready (40_control.md R185 to R187, 70_reset_and_hazards.md R456) -/

/-- 2 ≤ n ≤ N_MAX for n = NDIM, 40_control.md R185, R186. -/
abbrev State.DimOk (s : State) : Prop := 2 ≤ s.dim ∧ s.dim ≤ s.build.nMax

/-- KEY[i][j] is written and at most 25, 40_control.md R185. -/
abbrev State.KeyEntryOk (s : State) (i j : Nat) : Prop :=
  ((s.key.read (entryIndex i j)).any fun v => decide (v.toNat ≤ 25)) = true

/-- CheckKey passes, 40_control.md R185. -/
abbrev State.KeyReady (s : State) : Prop :=
  s.DimOk ∧ ∀ i, i < s.dim → ∀ j, j < s.dim → s.KeyEntryOk i j

/-- VEC[j] is written and at most 25, 41_linear_algebra.md R220. -/
abbrev State.VecEntryOk (s : State) (j : Nat) : Prop :=
  ((s.vec.read j).any fun v => decide (v.toNat ≤ 25)) = true

/-- VEC[j] for j < n are ready, 41_linear_algebra.md R220. -/
abbrev State.VecReady (s : State) : Prop := ∀ j, j < s.dim → s.VecEntryOk j

/-- The n×n block of RMAT is written, 41_linear_algebra.md R220. -/
abbrev State.RmatReady (s : State) : Prop :=
  s.DimOk ∧ ∀ i, i < s.dim → ∀ j, j < s.dim → (s.rmat.read (entryIndex i j)).isSome = true

/-- IN[0..L) is written and L ≤ TEXT_MAX, 44_digraph_cipher.md R317, R319. -/
abbrev State.TextReady (s : State) : Prop :=
  s.textLen ≤ s.build.textMax ∧ ∀ k, k < s.textLen → (s.inBuf.read k).isSome = true

/-- IN[j] is written and an upper-case letter, 42_matrix_cipher.md R260. -/
abbrev State.LetterOk (s : State) (j : Nat) : Prop := ((s.inBuf.read j).any isUpper) = true

/-- IN_LEN = n and IN[0..n) are upper-case letters, 42_matrix_cipher.md R260, R261. -/
abbrev State.BlockReady (s : State) : Prop := s.textLen = s.dim ∧ ∀ j, j < s.dim → s.LetterOk j

/-- A byte that is a letter of the key square. -/
abbrev InSquare (b : Build) (c : Byte) : Prop := c ∈ b.square

/-- The n×n block of a grid as a matrix of the library. -/
def gridMatrix (n : Nat) (A : Grid) : Matrix (Fin n) (Fin n) ℤ := Matrix.of fun i j => A i j

/-- The key matrix K, 41_linear_algebra.md R200. -/
abbrev State.keyMatrix (s : State) : Matrix (Fin s.dim) (Fin s.dim) ℤ := gridMatrix s.dim s.keyGrid

/-- A key whose determinant has a multiplicative inverse mod 26, 41_linear_algebra.md R210. -/
abbrev State.KeyInvertible (s : State) : Prop := Int.gcd s.keyMatrix.det 26 = 1

/-! ### The invariant -/

/-- Every array, and the host's names, are in canonical form: indexes strictly rising. -/
abbrev State.Canonical (s : State) : Prop :=
  s.key.wf = true ∧ s.rmat.wf = true ∧ s.vec.wf = true ∧ s.rvec.wf = true ∧ s.inBuf.wf = true
    ∧ s.outBuf.wf = true ∧ s.host.names.wf = true

/-- An index 8·i + j with i, j < N_MAX. -/
def inBlock (b : Build) (x : Nat) : Bool := decide (x / 8 < b.nMax) && decide (x % 8 < b.nMax)

/-- Only entries that exist hold a value (10_state.md R50 to R53, R55, R56). -/
abbrev State.EntriesExist (s : State) : Prop :=
  (s.key.all fun e => inBlock s.build e.1) = true
    ∧ (s.rmat.all fun e => inBlock s.build e.1) = true
    ∧ (s.vec.all fun e => decide (e.1 < s.build.nMax)) = true
    ∧ (s.rvec.all fun e => decide (e.1 < s.build.nMax)) = true
    ∧ (s.inBuf.all fun e => decide (e.1 < 4 * inWords s.build)) = true
    ∧ (s.outBuf.all fun e => decide (e.1 < 4 * outWords s.build)) = true

/-- A three-bit field of RES_POS at bit `pos`, 10_state.md R48. -/
def posField (w : Word) (pos : Nat) : Nat := (w.extractLsb' pos 3).toNat

/-- The registers hold only values the spec lets them hold: 10_state.md R40 with 60_exceptions.md R400
(ERRCODE), R45 (OUT_LEN), R47 (RES_DETMOD), R48 (RES_POS), R49 (RES_PAIR), R53 (RVEC). -/
abbrev State.ValuesLegal (s : State) : Prop :=
  s.errcode.toNat ≤ 7
    ∧ (s.errcode = 0 → s.errinfo = 0)
    ∧ s.outLen.toNat ≤ 4 * outWords s.build
    ∧ s.resDetmod.toNat ≤ 25
    ∧ s.resPos &&& ~~~(0x00007777 : Word) = 0
    ∧ (posField s.resPos 0 ≤ 4 ∧ posField s.resPos 4 ≤ 4 ∧ posField s.resPos 8 ≤ 4 ∧ posField s.resPos 12 ≤ 4)
    ∧ s.resPair &&& ~~~(0x0003FFFF : Word) = 0
    ∧ (s.resPair.extractLsb' 16 2).toNat ≠ 3
    ∧ (s.rvec.all fun e => decide (e.2.toNat ≤ 25)) = true

/-- The phase agrees with the flags: DONE, ERRCODE and ERRINFO are 0 while BUSY = 1 (40_control.md R180,
70_reset_and_hazards.md R461), and while rst is asserted the core holds its reset state (R450). -/
abbrev State.PhaseOk (s : State) : Prop :=
  (s.busy = true → s.done = false ∧ s.errcode = 0 ∧ s.errinfo = 0) ∧ (s.rst = true → s.resetCore = s)

/-- The invariant every step keeps. -/
def State.Inv (s : State) : Prop := s.Canonical ∧ s.EntriesExist ∧ s.ValuesLegal ∧ s.PhaseOk

/-! ### Endings, written out -/

/-- What the completion event leaves besides the result writes, 40_control.md R182: ERRCODE, ERRINFO,
DONE = 1 and BUSY = 0. -/
def State.ended (s : State) (code : BitVec 4) (info : Half) : State :=
  { s with errcode := code, errinfo := info, done := true, seq := .idle }

/-- The command completes without error and writes no result but what `t` holds. -/
def Completes (i : Instr) (s t : State) : Prop := exec i s = .next (t.ended 0 0)

/-- The command completes with the error code and the detail value given, and nothing else changes
(60_exceptions.md R401). -/
def Raises (i : Instr) (s : State) (code : BitVec 4) (info : Half) : Prop := exec i s = .next (s.ended code info)

/-- The mask and match columns of 30_encoding.md R144, row by row. -/
def maskMatch : List (Word × Word) :=
  [(0xFFFFFFFF, 0x00000000), (0xFFFFFFFF, 0x00000001), (0xFF88FFFF, 0x00000002), (0xFF88FFFF, 0x00000003),
    (0xFFFFFFFF, 0x00000004), (0xFFFFFFFF, 0x00000005), (0xFFFFFFFF, 0x00000006), (0xFFFFFEFF, 0x00000007),
    (0xFFFFFFFF, 0x00000008), (0xFFFFFFFF, 0x00000009), (0xFFFFFFFF, 0x00000010), (0xFFFFFEFF, 0x00000011),
    (0xFFFFFFFF, 0x00000012), (0xFFFFFFFF, 0x00000013), (0xFFFFFFFF, 0x00000014)]

/-- The commands that begin with CheckKey, 40_control.md R185. -/
def UsesKey : Instr → Bool
  | .det => true
  | .subm _ _ => true
  | .cof _ _ => true
  | .adj => true
  | .invkey => true
  | .mvmul .key => true
  | .menc => true
  | .mdec => true
  | .nop => false
  | .modinv => false
  | .mvmul .rmat => false
  | .findpos => false
  | .dgrule _ => false
  | .norm => false
  | .denc => false
  | .ddec => false

/-- The same key under the same dimension and build, and a block of the same length. -/
structure SameKey (s t : State) : Prop where
  build : s.build = t.build
  ndim : s.ndim = t.ndim
  inLen : s.inLen = t.inLen
  key : ∀ i, i < s.dim → ∀ j, j < s.dim → s.key.read (entryIndex i j) = t.key.read (entryIndex i j)

/-! ### Runs -/

/-- The outcome is a next state: neither a fault nor a refusal. -/
def Runs (o : Host.Outcome State Fault Refusal) : Prop := ∃ t, o = .next t

/-- The registers and arrays commands write to pass results (10_state.md R61). -/
structure Results where
  resScalar : Word
  resDetmod : BitVec 5
  resPos : Word
  resPair : Word
  outLen : Half
  rmat : Memory Word
  rvec : Memory (BitVec 5)
  outBuf : Memory Byte
  deriving DecidableEq, Repr

/-- The result registers of a state (10_state.md R61). -/
def State.results (s : State) : Results :=
  ⟨s.resScalar, s.resDetmod, s.resPos, s.resPair, s.outLen, s.rmat, s.rvec, s.outBuf⟩

/-- A state with its result registers as given, and nothing else changed. -/
def State.withResults (s : State) (r : Results) : State :=
  { s with
    resScalar := r.resScalar, resDetmod := r.resDetmod, resPos := r.resPos, resPair := r.resPair,
    outLen := r.outLen, rmat := r.rmat, rvec := r.rvec, outBuf := r.outBuf }

/-- The operands as far as a command in bounds may read them agree (20_memory.md R113): the scalars whole,
KEY, RMAT and VEC inside the n×n block, IN below IN_LEN, and the build parameters. -/
structure SameOperands (s t : State) : Prop where
  build : s.build = t.build
  ndim : s.ndim = t.ndim
  operand : s.operand = t.operand
  inLen : s.inLen = t.inLen
  key : ∀ i, i < s.dim → ∀ j, j < s.dim → s.key.read (entryIndex i j) = t.key.read (entryIndex i j)
  rmat : ∀ i, i < s.dim → ∀ j, j < s.dim → s.rmat.read (entryIndex i j) = t.rmat.read (entryIndex i j)
  vec : ∀ j, j < s.dim → s.vec.read j = t.vec.read j
  text : ∀ k, k < s.textLen → s.inBuf.read k = t.inBuf.read k

end Sys2Proof.Machine
end

