-- ==== Sys2Proof/Certificates/Slice0/Obligations.lean ====
section
/-! DEFINITION. The statements about the model, from the numbered rules of spec/. -/

open Sys2Proof Sys2Proof.Machine

/-! ### Command words -/

/-- 30_encoding.md R145 and R141: no bit of a command word is dropped. -/
def Obligations.DecodeOfEncodeIsTheCommand : Prop :=
  ∀ i : Instr, i.wf = true → decode (encode i) = .ok i

/-- 30_encoding.md R143: a legal word has one meaning and is that command's word. -/
def Obligations.LegalWordIsItsCommandsEncoding : Prop :=
  ∀ (w : Word) (i : Instr), decode w = .ok i → i.wf = true ∧ encode i = w

/-- 30_encoding.md R143: legality is exactly one of the fifteen mask/match pairs of R144. -/
def Obligations.WordIsLegalExactlyByMaskAndMatch : Prop :=
  ∀ w : Word, (∃ i, decode w = .ok i) ↔ ∃ r ∈ maskMatch, w &&& r.1 = r.2

/-- The example words of 30_encoding.md R145, one word of every unit's family. -/
def Obligations.WrittenOutWordsDecode : Prop :=
  decode 0x00000000 = .ok .nop ∧ decode 0x00000001 = .ok .det ∧ decode 0x00210002 = .ok (.subm 1 2)
    ∧ decode 0x00020003 = .ok (.cof 2 0) ∧ decode 0x00000107 = .ok (.mvmul .rmat)
    ∧ decode 0x00000009 = .ok .mdec ∧ decode 0x00000010 = .ok .findpos
    ∧ decode 0x00000111 = .ok (.dgrule .dec) ∧ decode 0x00000014 = .ok .ddec

/-- 30_encoding.md R146: a reserved opcode is illegal, and so is a known opcode with a nonzero unused or reserved
bit; an illegal word still issues; it completes with ILLEGAL_COMMAND and its opcode field, and changes no other
register. -/
def Obligations.IllegalCommandIssuesAndCompletes : Prop :=
  (∀ w : Word, 0x0A ≤ (w &&& 0xFF#32).toNat ∧ (w &&& 0xFF#32).toNat ≤ 0x0F ∨ 0x15 ≤ (w &&& 0xFF#32).toNat →
      ∃ e, decode w = .error e)
    ∧ (∀ w : Word, ∀ r ∈ maskMatch, w &&& 0xFF#32 = r.2 → w &&& r.1 ≠ r.2 → ∃ e, decode w = .error e)
    ∧ ∀ (s : State) (w : Word) (e : DecodeError), decode w = .error e → s.busy = false →
      (busWrite 0x010 w s).busy = true
        ∧ coreStep (busWrite 0x010 w s) = .next (s.ended 7 ((w &&& 0xFF#32).setWidth 16))

/-! ### Lifecycle -/

/-- 40_control.md R180: what a host write to CMD does, idle and busy. -/
def Obligations.CommandWriteIssuesOrIsDropped : Prop :=
  ∀ (s : State) (w : Word),
    (s.busy = false → busWrite 0x010 w s = { s with seq := .busy w, done := false, errcode := 0, errinfo := 0 })
      ∧ (s.busy = true → busWrite 0x010 w s = { s with wbusy := true })

/-- 40_control.md R181, R183: the core's turn is the meaning of the decoded word. Whose turn it is, is the
model's choice (log 4). -/
def Obligations.CoreTurnRunsTheDecodedCommand : Prop :=
  ∀ (s : State) (w : Word) (i : Instr), s.rst = false → s.seq = .busy w → decode w = .ok i →
    (∀ ts, step { s with turns := .core :: ts } = exec i { s with turns := ts })
      ∧ step { s with turns := [] } = exec i { s with turns := [] }

/-- 40_control.md R182: a completion is a success with result writes alone, or an error with none; both
set DONE, clear BUSY and write ERRCODE and ERRINFO. -/
def Obligations.CompletionIsSuccessOrErrorWithoutResults : Prop :=
  ∀ s t : State, s.busy = true → coreStep s = .next t →
    (∃ r : Results, t = (s.withResults r).ended 0 0)
      ∨ ∃ (code : BitVec 4) (info : Half), 1 ≤ code.toNat ∧ code.toNat ≤ 7 ∧ t = s.ended code info

/-- 60_exceptions.md R402: a command that raises an error writes no result register, an illegal word included. -/
def Obligations.FailedCommandWritesNoResult : Prop :=
  ∀ s t : State, s.busy = true → coreStep s = .next t → t.errcode ≠ 0 → t.results = s.results

/-- 70_reset_and_hazards.md R457: no command writes an operand register. -/
def Obligations.CommandsKeepOperandRegisters : Prop :=
  ∀ s t : State, s.busy = true → coreStep s = .next t →
    t.ndim = s.ndim ∧ t.operand = s.operand ∧ t.inLen = s.inLen ∧ t.key = s.key ∧ t.vec = s.vec
      ∧ t.inBuf = s.inBuf ∧ t.ie = s.ie

/-- 20_memory.md R113, 40_control.md R183: the outcome of a command is a function of the operands inside
its bounds. Every result register and entry is written with the same value from both states, or from
neither. -/
def Obligations.OutcomeReadsOnlyOperandsInBounds : Prop :=
  ∀ (i : Instr) (s s' : State), SameOperands s s' →
    (∀ f, exec i s = .fault f → exec i s' = .fault f)
      ∧ ∀ t, exec i s = .next t → ∃ t', exec i s' = .next t'
        ∧ t'.errcode = t.errcode ∧ t'.errinfo = t.errinfo
        ∧ (t'.resScalar = t.resScalar ∨ t.resScalar = s.resScalar ∧ t'.resScalar = s'.resScalar)
        ∧ (t'.resDetmod = t.resDetmod ∨ t.resDetmod = s.resDetmod ∧ t'.resDetmod = s'.resDetmod)
        ∧ (t'.resPos = t.resPos ∨ t.resPos = s.resPos ∧ t'.resPos = s'.resPos)
        ∧ (t'.resPair = t.resPair ∨ t.resPair = s.resPair ∧ t'.resPair = s'.resPair)
        ∧ (t'.outLen = t.outLen ∨ t.outLen = s.outLen ∧ t'.outLen = s'.outLen)
        ∧ (∀ x, t'.rmat.read x = t.rmat.read x ∨ t.rmat.read x = s.rmat.read x ∧ t'.rmat.read x = s'.rmat.read x)
        ∧ (∀ x, t'.rvec.read x = t.rvec.read x ∨ t.rvec.read x = s.rvec.read x ∧ t'.rvec.read x = s'.rvec.read x)
        ∧ ∀ x, t'.outBuf.read x = t.outBuf.read x
            ∨ t.outBuf.read x = s.outBuf.read x ∧ t'.outBuf.read x = s'.outBuf.read x

/-- 40_control.md R188: NOP completes and writes only what completion writes. -/
def Obligations.NopCompletes : Prop := ∀ s : State, Completes .nop s s

/-- 70_reset_and_hazards.md R470: a command in progress completes within the turns of any schedule and one
more, unless reset stops it (BUSY = 0 too) or it reads an unwritten operand. That the core moves when the schedule
is used up is the model's choice (log 4). -/
def Obligations.CommandInProgressCompletes : Prop :=
  ∀ s : State, s.busy = true → s.rst = false →
    ∃ k, k ≤ s.turns.length + 1
      ∧ ((∃ t : State, Host.Core.run Sys2Proof.core k s = .next t ∧ t.busy = false)
        ∨ Host.Core.run Sys2Proof.core k s = .fault Fault.unwrittenOperand)

/-- 70_reset_and_hazards.md R454 with the table of R450: the platform asserts rst at any time, a command in progress
included, and the state is the tabulated one. -/
def Obligations.ResetGivesTheTabulatedState : Prop :=
  ∀ s : State, ∃ t, takeTurn .rstAssert s = .next t
    ∧ t.ie = false ∧ t.seq = .idle ∧ t.done = false ∧ t.wbusy = false ∧ t.errcode = 0 ∧ t.errinfo = 0
    ∧ t.ndim = 0 ∧ t.operand = 0 ∧ t.inLen = 0 ∧ t.results = ⟨0, 0, 0, 0, 0, [], [], []⟩
    ∧ t.key = [] ∧ t.vec = [] ∧ t.inBuf = [] ∧ t.irq = false
    ∧ (busRead 0x000 t).1 = (busRead 0x000 s).1 ∧ (busRead 0x004 t).1 = (busRead 0x004 s).1
    ∧ t.build.square = s.build.square

/-! ### CheckKey and CheckDim -/

/-- 40_control.md R186: MVMUL RMAT under a dimension out of range. -/
def Obligations.DimensionOutOfRangeStopsMvmulRmat : Prop :=
  ∀ s : State, (s.dim < 2 ∨ s.build.nMax < s.dim) → Raises (.mvmul .rmat) s 5 0xFFFF

/-- 40_control.md R185: the first failing check of CheckKey decides, before anything else a command
checks. -/
def Obligations.CheckKeyReportsTheFirstFailure : Prop :=
  ∀ (i : Instr) (s : State), UsesKey i = true →
    (s.dim < 2 ∨ s.build.nMax < s.dim → Raises i s 5 0xFFFF)
      ∧ ∀ r c, s.DimOk → r < s.dim → c < s.dim →
        (∀ r' c', r' < s.dim → c' < s.dim → r' < r ∨ r' = r ∧ c' < c → s.KeyEntryOk r' c') →
          (s.key.read (8 * r + c) = none → exec i s = .fault .unwrittenOperand)
            ∧ ∀ v : BitVec 5, s.key.read (8 * r + c) = some v → 25 < v.toNat →
              Raises i s 5 (BitVec.ofNat 16 (8 * r + c))

/-! ### Exact integers -/

/-- 41_linear_algebra.md R201: the expansion computes the determinant. -/
def Obligations.DeterminantIsTheLibrarysDeterminant : Prop :=
  ∀ (n : Nat) (A : Grid), 1 ≤ n → det n A = (gridMatrix n A).det

/-- 00_scope.md R8: the bound, and that determinants, cofactors and adjugate entries fit 32 bits. -/
def Obligations.ExactResultsFitThirtyTwoBits : Prop :=
  ∀ (n : Nat) (A : Grid), 1 ≤ n → n ≤ 5 →
    (∀ i, i < n → ∀ j, j < n → 0 ≤ A i j ∧ A i j ≤ 25) →
      |det n A| ≤ n.factorial * 25 ^ n ∧ (intWord (det n A)).toInt = det n A
        ∧ (2 ≤ n → ∀ r c, r < n → c < n → |cof n A r c| ≤ n.factorial * 25 ^ n
          ∧ (intWord (cof n A r c)).toInt = cof n A r c ∧ (intWord (adj n A r c)).toInt = adj n A r c)

/-- 41_linear_algebra.md R212: K · invKey(K) is the identity mod 26 for every invertible key. -/
def Obligations.InverseKeyIdentity : Prop :=
  ∀ (n k : Nat) (A : Grid), 2 ≤ n → modInverse (mod26 (det n A)) = some k →
    ∀ i, i < n → ∀ j, j < n →
      mod26 (sumTo n fun l => A i l * invKey n k A l j) = if i = j then 1 else 0

/-! ### The modular-arithmetic unit's commands -/

/-- 41_linear_algebra.md R214. -/
def Obligations.DetWritesTheDeterminant : Prop :=
  ∀ s : State, s.KeyReady →
    Completes .det s { s with
      resScalar := BitVec.ofInt 32 s.keyMatrix.det
      resDetmod := BitVec.ofInt 5 (s.keyMatrix.det % 26) }

/-- 41_linear_algebra.md R215: RMAT is K without row r and column c, zero-filled; nothing else is a
result. -/
def Obligations.SubmWritesTheSubmatrix : Prop :=
  ∀ (s : State) (r c : Nat), s.KeyReady → r < s.dim → c < s.dim →
    ∃ m : Memory Word, Completes (.subm r c) s { s with rmat := m }
      ∧ (∀ i j, i < s.build.nMax → j < s.build.nMax →
          m.read (8 * i + j) =
            if i < s.dim - 1 ∧ j < s.dim - 1 then
              (s.key.read (8 * (if i < r then i else i + 1) + if j < c then j else j + 1)).map fun v => v.setWidth 32
            else some 0)
      ∧ ∀ x, ¬ (x / 8 < s.build.nMax ∧ x % 8 < s.build.nMax) → m.read x = s.rmat.read x

/-- 41_linear_algebra.md R215, R216: R or C not below n. -/
def Obligations.SubmAndCofRejectIndexesOutOfRange : Prop :=
  ∀ (s : State) (r c : Nat), s.KeyReady → s.dim ≤ r ∨ s.dim ≤ c →
    Raises (.subm r c) s 6 (BitVec.ofNat 16 (8 * r + c)) ∧ Raises (.cof r c) s 6 (BitVec.ofNat 16 (8 * r + c))

/-- 41_linear_algebra.md R216 with R206: the cofactor (r, c) is the adjugate's entry (c, r). -/
def Obligations.CofWritesTheCofactor : Prop :=
  ∀ (s : State) (r c : Fin s.dim), s.KeyReady →
    Completes (.cof r c) s { s with resScalar := BitVec.ofInt 32 (s.keyMatrix.adjugate c r) }

/-- 41_linear_algebra.md R217: RMAT is the exact adjugate, zero-filled. -/
def Obligations.AdjWritesTheAdjugate : Prop :=
  ∀ s : State, s.KeyReady →
    ∃ m : Memory Word, Completes .adj s { s with rmat := m }
      ∧ (∀ i j : Fin s.dim, m.read (8 * i + j) = some (BitVec.ofInt 32 (s.keyMatrix.adjugate i j)))
      ∧ (∀ i j, i < s.build.nMax → j < s.build.nMax → s.dim ≤ i ∨ s.dim ≤ j → m.read (8 * i + j) = some 0)
      ∧ ∀ x, ¬ (x / 8 < s.build.nMax ∧ x % 8 < s.build.nMax) → m.read x = s.rmat.read x

/-- 41_linear_algebra.md R218: the inverse of the signed OPERAND, or NOT_INVERTIBLE with the residue. -/
def Obligations.ModinvWritesTheInverse : Prop :=
  ∀ s : State,
    (Int.gcd s.operand.toInt 26 = 1 →
      ∃ k : Nat, k < 26 ∧ s.operand.toInt * k % 26 = 1
        ∧ Completes .modinv s { s with resScalar := BitVec.ofNat 32 k })
      ∧ (Int.gcd s.operand.toInt 26 ≠ 1 → Raises .modinv s 4 (BitVec.ofInt 16 (s.operand.toInt % 26)))

/-- 41_linear_algebra.md R219, R212: RMAT is the inverse key mod 26, zero-filled, with entries in [0,25]; a key
that is not invertible ends in NOT_INVERTIBLE with the determinant's residue. -/
def Obligations.InvkeyWritesTheInverseKey : Prop :=
  ∀ s : State, s.KeyReady →
    (¬ s.KeyInvertible → Raises .invkey s 4 (BitVec.ofInt 16 (s.keyMatrix.det % 26)))
      ∧ (s.KeyInvertible → ∃ m : Memory Word,
        Completes .invkey s { s with
          rmat := m
          resScalar := BitVec.ofInt 32 s.keyMatrix.det
          resDetmod := BitVec.ofInt 5 (s.keyMatrix.det % 26) }
        ∧ (∃ X : Matrix (Fin s.dim) (Fin s.dim) ℤ,
            (∀ i j, 0 ≤ X i j ∧ X i j ≤ 25 ∧ m.read (8 * i + j) = some (BitVec.ofInt 32 (X i j)))
              ∧ ∀ i j, (s.keyMatrix * X) i j % 26 = (1 : Matrix (Fin s.dim) (Fin s.dim) ℤ) i j)
        ∧ (∀ i j, i < s.build.nMax → j < s.build.nMax → s.dim ≤ i ∨ s.dim ≤ j → m.read (8 * i + j) = some 0)
        ∧ ∀ x, ¬ (x / 8 < s.build.nMax ∧ x % 8 < s.build.nMax) → m.read x = s.rmat.read x)

/-- 41_linear_algebra.md R220: RVEC is the product mod 26 of KEY or RMAT with VEC, zero-filled. -/
def Obligations.MvmulWritesTheProduct : Prop :=
  ∀ (m : MatrixSelect) (s : State), (match m with | .key => s.KeyReady | .rmat => s.RmatReady) → s.VecReady →
    ∃ u : Memory (BitVec 5), Completes (.mvmul m) s { s with rvec := u }
      ∧ (∀ i : Fin s.dim, u.read i = some (BitVec.ofInt 5
          ((gridMatrix s.dim (match m with | .key => s.keyGrid | .rmat => s.rmatGrid)).mulVec
            (fun j => s.vecAt j) i % 26)))
      ∧ (∀ i, s.dim ≤ i → i < s.build.nMax → u.read i = some 0)
      ∧ ∀ x, s.build.nMax ≤ x → u.read x = s.rvec.read x

/-- 41_linear_algebra.md R220: the first failing VEC entry, after the matrix; an unwritten RMAT entry. -/
def Obligations.MvmulReportsTheFirstFailure : Prop :=
  ∀ (m : MatrixSelect) (s : State),
    ((match m with | .key => s.KeyReady | .rmat => s.RmatReady) → ∀ j, j < s.dim →
      (∀ j', j' < j → s.VecEntryOk j') →
        (s.vec.read j = none → exec (.mvmul m) s = .fault .unwrittenOperand)
          ∧ ∀ v : BitVec 5, s.vec.read j = some v → 25 < v.toNat → Raises (.mvmul m) s 2 (BitVec.ofNat 16 j))
      ∧ (m = .rmat → s.DimOk → (∃ i j, i < s.dim ∧ j < s.dim ∧ s.rmat.read (8 * i + j) = none) →
        exec (.mvmul m) s = .fault .unwrittenOperand)

/-! ### The matrix cipher -/

/-- 42_matrix_cipher.md R262: OUT[i] is the letter of (K · p)[i] mod 26; bytes at n and beyond are kept. -/
def Obligations.MencEncryptsTheBlock : Prop :=
  ∀ s : State, s.KeyReady → s.BlockReady →
    ∃ m : Memory Byte, Completes .menc s { s with outBuf := m, outLen := BitVec.ofNat 16 s.dim }
      ∧ (∀ i : Fin s.dim, m.read i = some (BitVec.ofInt 8
          (0x41 + s.keyMatrix.mulVec (fun j => ((s.inAt j).toNat : Int) - 0x41) i % 26)))
      ∧ ∀ x, s.dim ≤ x → m.read x = s.outBuf.read x

/-- 42_matrix_cipher.md R263: OUT is the block p of letters with K · p the input block mod 26; bytes at n
and beyond are kept. -/
def Obligations.MdecDecryptsTheBlock : Prop :=
  ∀ s : State, s.KeyReady → s.KeyInvertible → s.BlockReady →
    ∃ m : Memory Byte, Completes .mdec s { s with outBuf := m, outLen := BitVec.ofNat 16 s.dim }
      ∧ (∃ p : Fin s.dim → Nat,
          (∀ i, p i < 26 ∧ m.read i = some (BitVec.ofNat 8 (0x41 + p i)))
            ∧ ∀ i : Fin s.dim, s.keyMatrix.mulVec (fun j => (p j : Int)) i % 26 = ((s.inAt i).toNat : Int) - 0x41)
      ∧ ∀ x, s.dim ≤ x → m.read x = s.outBuf.read x

/-- 42_matrix_cipher.md R261 to R263: the length first, then (MDEC) the inverse, then the characters in
order. -/
def Obligations.MatrixCipherReportsTheFirstFailure : Prop :=
  ∀ s : State, s.KeyReady →
    (s.textLen ≠ s.dim → Raises .menc s 1 s.inLen ∧ Raises .mdec s 1 s.inLen)
      ∧ (s.textLen = s.dim → ¬ s.KeyInvertible → Raises .mdec s 4 (BitVec.ofInt 16 (s.keyMatrix.det % 26)))
      ∧ ∀ (i : Instr) (j : Nat), s.textLen = s.dim → i = .menc ∨ i = .mdec ∧ s.KeyInvertible → j < s.dim →
        (∀ j', j' < j → s.LetterOk j') →
          (s.inBuf.read j = none → exec i s = .fault .unwrittenOperand)
            ∧ ∀ b : Byte, s.inBuf.read j = some b → b.toNat < 0x41 ∨ 0x5A < b.toNat →
              Raises i s 2 (BitVec.ofNat 16 j)

/-- 42_matrix_cipher.md R264: decrypting what MENC gave, with the same invertible key, gives the block back. -/
def Obligations.MatrixCipherRoundTrip : Prop :=
  ∀ s t s' : State, s.KeyReady → s.KeyInvertible → s.BlockReady → exec .menc s = .next t → SameKey s s' →
    (∀ k, k < s.dim → s'.inBuf.read k = t.outBuf.read k) →
      ∃ u, exec .mdec s' = .next u ∧ u.errcode = 0 ∧ u.outLen.toNat = s.dim
        ∧ ∀ k, k < s.dim → u.outBuf.read k = s.inBuf.read k

/-! ### The key square -/

/-- 43_key_square.md R290, R291: pos finds exactly the square's letters, each at its place; 'J' and every
byte that is no upper-case letter are NotFound. -/
def Obligations.PosFindsExactlyTheSquaresLetters : Prop :=
  ∀ (b : Build) (c : Byte),
    (∀ p : Position, pos b c = some p ↔ p.row < 5 ∧ p.col < 5 ∧ b.square[5 * p.row + p.col]? = some c)
      ∧ (c = 0x4A ∨ c.toNat < 0x41 ∨ 0x5A < c.toNat → pos b c = none)

/-- 43_key_square.md R292: RES_POS from OPERAND[7:0], or NOT_FOUND(0). -/
def Obligations.FindposWritesThePosition : Prop :=
  ∀ s : State,
    (∀ r c, r < 5 → c < 5 → s.build.square[5 * r + c]? = some (s.operand.setWidth 8) →
      Completes .findpos s { s with resPos := BitVec.ofNat 32 (r + 16 * c) })
      ∧ (¬ InSquare s.build (s.operand.setWidth 8) → Raises .findpos s 3 0)

/-- 44_digraph_cipher.md R310, R313: the three cases in order; RES_PAIR and RES_POS. -/
def Obligations.DgruleAppliesTheRule : Prop :=
  ∀ (m : Direction) (s : State) (r1 c1 r2 c2 k : Nat),
    r1 < 5 → c1 < 5 → r2 < 5 → c2 < 5 → k = (match m with | .enc => 1 | .dec => 4) →
    s.build.square[5 * r1 + c1]? = some (s.operand.extractLsb' 0 8) →
    s.build.square[5 * r2 + c2]? = some (s.operand.extractLsb' 8 8) →
      ∃ o1 o2 : Byte, ∃ case : Nat,
        Completes (.dgrule m) s { s with
          resPair := BitVec.ofNat 32 (o1.toNat + 0x100 * o2.toNat + 0x10000 * case)
          resPos := BitVec.ofNat 32 (r1 + 0x10 * c1 + 0x100 * r2 + 0x1000 * c2) }
        ∧ (r1 = r2 → case = 0 ∧ s.build.square[5 * r1 + (c1 + k) % 5]? = some o1
            ∧ s.build.square[5 * r2 + (c2 + k) % 5]? = some o2)
        ∧ (r1 ≠ r2 → c1 = c2 → case = 1 ∧ s.build.square[5 * ((r1 + k) % 5) + c1]? = some o1
            ∧ s.build.square[5 * ((r2 + k) % 5) + c2]? = some o2)
        ∧ (r1 ≠ r2 → c1 ≠ c2 → case = 2 ∧ s.build.square[5 * r1 + c2]? = some o1
            ∧ s.build.square[5 * r2 + c1]? = some o2)

/-- 44_digraph_cipher.md R313: ch1 is looked up before ch2. -/
def Obligations.DgruleReportsTheFirstLetterNotFound : Prop :=
  ∀ (m : Direction) (s : State),
    (¬ InSquare s.build (s.operand.extractLsb' 0 8) → Raises (.dgrule m) s 3 0)
      ∧ (InSquare s.build (s.operand.extractLsb' 0 8) → ¬ InSquare s.build (s.operand.extractLsb' 8 8) →
        Raises (.dgrule m) s 3 1)

/-- 44_digraph_cipher.md R312: the rectangle's letters stand at (r1, c2) and (r2, c1), and either direction undoes
it; DEC undoes ENC in all three cases. -/
def Obligations.DecUndoesEncOnEveryPair : Prop :=
  ∀ (b : Build) (p1 p2 : Position), p1.row < 5 → p1.col < 5 → p2.row < 5 → p2.col < 5 →
    (p1.row ≠ p2.row → p1.col ≠ p2.col → ∀ d d' : Direction,
      pos b (subst b p1 p2 d).out1 = some ⟨p1.row, p2.col⟩ ∧ pos b (subst b p1 p2 d).out2 = some ⟨p2.row, p1.col⟩
        ∧ subst b ⟨p1.row, p2.col⟩ ⟨p2.row, p1.col⟩ d' = ⟨sq b p1.row p1.col, sq b p2.row p2.col, 2⟩)
      ∧ ∃ q1 q2, pos b (subst b p1 p2 .enc).out1 = some q1 ∧ pos b (subst b p1 p2 .enc).out2 = some q2
        ∧ (subst b q1 q2 .dec).out1 = sq b p1.row p1.col ∧ (subst b q1 q2 .dec).out2 = sq b p2.row p2.col

/-! ### Normalisation and the digraph cipher -/

/-- 44_digraph_cipher.md R314, R315: the bytes A-Z and a-z of the text in order, upper-cased, and 0x58 appended
exactly when their count is odd; "The result has even length, at most L + 1, and holds only upper-case letters";
even-length upper-case text is left alone (90_conflicts.md C3). -/
def Obligations.NormalisedTextIsEvenAndUpperCase : Prop :=
  ∀ t : List Byte,
    (∃ u : List Byte,
      u = (t.filter fun b => decide (0x41 ≤ b.toNat ∧ b.toNat ≤ 0x5A ∨ 0x61 ≤ b.toNat ∧ b.toNat ≤ 0x7A)).map
          (fun b => if 0x61 ≤ b.toNat then BitVec.ofNat 8 (b.toNat - 0x20) else b)
        ∧ normalize t = if u.length % 2 = 1 then u ++ [0x58] else u)
      ∧ (normalize t).length % 2 = 0 ∧ (normalize t).length ≤ t.length + 1
      ∧ (∀ b ∈ normalize t, 0x41 ≤ b.toNat ∧ b.toNat ≤ 0x5A) ∧ normalize (normalize t) = normalize t
      ∧ (t.length % 2 = 0 → (∀ b ∈ t, 0x41 ≤ b.toNat ∧ b.toNat ≤ 0x5A) → normalize t = t)

/-- 44_digraph_cipher.md R317: OUT is the normalised text, OUT_LEN its length; later bytes are kept. -/
def Obligations.NormWritesTheNormalisedText : Prop :=
  ∀ s : State, s.TextReady →
    ∃ m : Memory Byte,
      Completes .norm s { s with outBuf := m, outLen := BitVec.ofNat 16 (normalize s.text).length }
      ∧ (∀ k, k < (normalize s.text).length → m.read k = (normalize s.text)[k]?)
      ∧ ∀ k, (normalize s.text).length ≤ k → m.read k = s.outBuf.read k

/-- 44_digraph_cipher.md R319: OUT is the pairwise encryption of the normalised text. -/
def Obligations.DencEncryptsTheNormalisedText : Prop :=
  ∀ s : State, s.TextReady → (∀ b ∈ normalize s.text, InSquare s.build b) →
    ∃ m : Memory Byte,
      Completes .denc s { s with outBuf := m, outLen := BitVec.ofNat 16 (normalize s.text).length }
      ∧ (∀ q, 2 * q + 1 < (normalize s.text).length → ∃ p1 p2,
          pos s.build ((normalize s.text).getD (2 * q) 0) = some p1
            ∧ pos s.build ((normalize s.text).getD (2 * q + 1) 0) = some p2
            ∧ m.read (2 * q) = some (subst s.build p1 p2 .enc).out1
            ∧ m.read (2 * q + 1) = some (subst s.build p1 p2 .enc).out2)
      ∧ ∀ k, (normalize s.text).length ≤ k → m.read k = s.outBuf.read k

/-- 44_digraph_cipher.md R319: NOT_FOUND at the lowest index of the normalised text. -/
def Obligations.DencReportsTheFirstLetterNotFound : Prop :=
  ∀ (s : State) (k : Nat), s.TextReady → k < (normalize s.text).length →
    (∀ k', k' < k → InSquare s.build ((normalize s.text).getD k' 0)) →
    ¬ InSquare s.build ((normalize s.text).getD k 0) → Raises .denc s 3 (BitVec.ofNat 16 k)

/-- 44_digraph_cipher.md R321: OUT is the pairwise decryption of IN, not normalised. -/
def Obligations.DdecDecryptsTheText : Prop :=
  ∀ s : State, s.TextReady → s.textLen % 2 = 0 → (∀ k, k < s.textLen → InSquare s.build (s.inAt k)) →
    ∃ m : Memory Byte, Completes .ddec s { s with outBuf := m, outLen := s.inLen }
      ∧ (∀ q, 2 * q + 1 < s.textLen → ∃ p1 p2,
          pos s.build (s.inAt (2 * q)) = some p1 ∧ pos s.build (s.inAt (2 * q + 1)) = some p2
            ∧ m.read (2 * q) = some (subst s.build p1 p2 .dec).out1
            ∧ m.read (2 * q + 1) = some (subst s.build p1 p2 .dec).out2)
      ∧ ∀ k, s.textLen ≤ k → m.read k = s.outBuf.read k

/-- 44_digraph_cipher.md R320, R321: the odd length, then the lowest index whose byte is unwritten or not in
the square. -/
def Obligations.DdecReportsTheFirstFailure : Prop :=
  ∀ s : State, s.textLen ≤ s.build.textMax →
    (s.textLen % 2 = 1 → Raises .ddec s 1 s.inLen)
      ∧ (s.textLen % 2 = 0 → ∀ k, k < s.textLen →
        (∀ k', k' < k → ∃ b, s.inBuf.read k' = some b ∧ InSquare s.build b) →
          (s.inBuf.read k = none → exec .ddec s = .fault .unwrittenOperand)
            ∧ ∀ b, s.inBuf.read k = some b → ¬ InSquare s.build b → Raises .ddec s 3 (BitVec.ofNat 16 k))

/-- 44_digraph_cipher.md R317, R319, R321: a text longer than TEXT_MAX, before anything else; an unwritten
byte for the two commands that read all of IN first. -/
def Obligations.TextCommandsCheckLengthThenRead : Prop :=
  ∀ s : State,
    (s.build.textMax < s.textLen →
      Raises .norm s 6 s.inLen ∧ Raises .denc s 6 s.inLen ∧ Raises .ddec s 6 s.inLen)
      ∧ (s.textLen ≤ s.build.textMax → (∃ k, k < s.textLen ∧ s.inBuf.read k = none) →
        exec .norm s = .fault .unwrittenOperand ∧ exec .denc s = .fault .unwrittenOperand)

/-- 44_digraph_cipher.md R322: DDEC of what DENC gave is the normalised text. The hypothesis on the normalised
length leaves out the one corner in which DDEC's own check of R321 refuses it (TEXT_MAX odd, TEXT_MAX letters;
log 23). -/
def Obligations.DigraphRoundTrip : Prop :=
  ∀ s t s' : State, s.TextReady → (∀ b ∈ normalize s.text, InSquare s.build b) → exec .denc s = .next t →
    s'.build = s.build → s'.inLen = t.outLen → (normalize s.text).length ≤ s.build.textMax →
    (∀ k, k < (normalize s.text).length → s'.inBuf.read k = t.outBuf.read k) →
      ∃ u, exec .ddec s' = .next u ∧ u.errcode = 0 ∧ u.outLen = t.outLen
        ∧ ∀ k, k < (normalize s.text).length → u.outBuf.read k = (normalize s.text)[k]?

/-! ### The register space -/

/-- 70_reset_and_hazards.md R460: host writes while BUSY = 1, at every aligned offset of the window. -/
def Obligations.WritesWhileBusyAreDropped : Prop :=
  ∀ (s : State) (off : Nat) (v : Word), s.busy = true → off % 4 = 0 → off < 0x4000 →
    (off ≠ 0x008 → off ≠ 0x00C → busWrite off v s = { s with wbusy := true })
      ∧ (off = 0x008 → busWrite off v s = { s with ie := v.getLsbD 0 })
      ∧ (off = 0x00C → busWrite off v s =
        { s with done := s.done && !v.getLsbD 1, wbusy := s.wbusy && !v.getLsbD 3 })

/-- 10_state.md R58 and R57: a host write to a read-only register or a reserved offset changes nothing, but for
WBUSY while BUSY = 1; a write to STATUS leaves BUSY and the error code that ERR mirrors unchanged. -/
def Obligations.ReadOnlyAndReservedWritesAreIgnored : Prop :=
  ∀ (s : State) (v : Word),
    (∀ off : Nat, off % 4 = 0 →
      (off ∈ [0x000, 0x004, 0x014, 0x018] ∨ 0x028 ≤ off ∧ off < 0x100 ∨ 0x200 ≤ off ∧ off < 0x300
          ∨ 0x320 ≤ off ∧ off < 0x1000 ∨ 0x2000 ≤ off ∧ off < 0x4000
          ∨ (∃ i j, i < 8 ∧ j < 8 ∧ off = 0x100 + 0x20 * i + 4 * j ∧ (s.build.nMax ≤ i ∨ s.build.nMax ≤ j))
          ∨ (∃ j, j < 8 ∧ off = 0x300 + 4 * j ∧ s.build.nMax ≤ j)
          ∨ (∃ w, w < 0x400 ∧ off = 0x1000 + 4 * w ∧ (s.build.textMax + 3) / 4 ≤ w)) →
        busWrite off v s = if s.busy then { s with wbusy := true } else s)
      ∧ (busWrite 0x00C v s).seq = s.seq ∧ (busWrite 0x00C v s).errcode = s.errcode

/-- 10_state.md R31 to R34, R39 to R56 and 70_reset_and_hazards.md R461: what a host reads in the read-only and the
operand registers in every phase, BUSY = 1 included, and in the result registers while BUSY = 0. -/
def Obligations.RegistersReadTheirValues : Prop :=
  ∀ s : State,
    ((busRead 0x000 s).1 = 0x43523236
        ∧ (((busRead 0x004 s).1.extractLsb' 0 4).toNat = s.build.nMax ∧ (busRead 0x004 s).1.extractLsb' 4 12 = 0#12
          ∧ ((busRead 0x004 s).1.extractLsb' 16 12).toNat = s.build.textMax
          ∧ (busRead 0x004 s).1.extractLsb' 28 4 = 1#4)
        ∧ ((busRead 0x00C s).1.getLsbD 0 = s.busy ∧ (busRead 0x00C s).1.getLsbD 1 = s.done
          ∧ (busRead 0x00C s).1.getLsbD 2 = decide (s.errcode ≠ 0) ∧ (busRead 0x00C s).1.getLsbD 3 = s.wbusy)
        ∧ (busRead 0x010 s).1 = 0
        ∧ (busRead 0x014 s).1.toNat = s.errcode.toNat
        ∧ (busRead 0x018 s).1.toNat = s.errinfo.toNat)
      ∧ ((busRead 0x008 s).1.getLsbD 0 = s.ie ∧ (busRead 0x01C s).1.toNat = s.ndim.toNat
        ∧ (busRead 0x020 s).1 = s.operand ∧ (busRead 0x024 s).1.toNat = s.inLen.toNat)
      ∧ (∀ (i j : Nat) (x : BitVec 5), i < s.build.nMax → j < s.build.nMax → s.key.read (8 * i + j) = some x →
          (busRead (0x100 + 0x20 * i + 4 * j) s).1.toNat = x.toNat)
      ∧ (∀ (j : Nat) (x : BitVec 5), j < s.build.nMax → s.vec.read j = some x →
          (busRead (0x300 + 4 * j) s).1.toNat = x.toNat)
      ∧ (∀ (k : Nat) (x : Byte), k / 4 < (s.build.textMax + 3) / 4 → s.inBuf.read k = some x →
          (busRead (0x1000 + 4 * (k / 4)) s).1.extractLsb' (8 * (k % 4)) 8 = x)
      ∧ (s.busy = false →
        ((busRead 0x028 s).1.toNat = s.outLen.toNat ∧ (busRead 0x02C s).1 = s.resScalar
            ∧ (busRead 0x030 s).1.toNat = s.resDetmod.toNat ∧ (busRead 0x034 s).1 = s.resPos
            ∧ (busRead 0x038 s).1 = s.resPair)
          ∧ (∀ i j x, i < s.build.nMax → j < s.build.nMax → s.rmat.read (8 * i + j) = some x →
              (busRead (0x200 + 0x20 * i + 4 * j) s).1 = x)
          ∧ (∀ (i : Nat) (x : BitVec 5), i < s.build.nMax → s.rvec.read i = some x →
              (busRead (0x320 + 4 * i) s).1.toNat = x.toNat)
          ∧ ∀ (k : Nat) (x : Byte), k / 4 < (s.build.textMax + 4) / 4 → s.outBuf.read k = some x →
              (busRead (0x2000 + 4 * (k / 4)) s).1.extractLsb' (8 * (k % 4)) 8 = x)

/-- 10_state.md R33, R34, R42 to R44, R50, R52, R55: a host write while BUSY = 0 changes the one field, entry or
word it writes and nothing else, and reads back without the reserved bits. -/
def Obligations.WrittenOperandsReadBack : Prop :=
  ∀ (s : State) (v : Word), s.busy = false →
    (busWrite 0x008 v s = { s with ie := v.getLsbD 0 }
        ∧ busWrite 0x00C v s = { s with done := s.done && !v.getLsbD 1, wbusy := s.wbusy && !v.getLsbD 3 }
        ∧ busWrite 0x01C v s = { s with ndim := v.setWidth 3 }
        ∧ busWrite 0x020 v s = { s with operand := v }
        ∧ busWrite 0x024 v s = { s with inLen := v.setWidth 16 })
      ∧ (∀ i j, i < s.build.nMax → j < s.build.nMax → ∃ m : Memory (BitVec 5),
          busWrite (0x100 + 0x20 * i + 4 * j) v s = { s with key := m } ∧ m.read (8 * i + j) = some (v.setWidth 5)
            ∧ ∀ x, x ≠ 8 * i + j → m.read x = s.key.read x)
      ∧ (∀ j, j < s.build.nMax → ∃ m : Memory (BitVec 5),
          busWrite (0x300 + 4 * j) v s = { s with vec := m } ∧ m.read j = some (v.setWidth 5)
            ∧ ∀ x, x ≠ j → m.read x = s.vec.read x)
      ∧ (∀ w, w < (s.build.textMax + 3) / 4 → ∃ m : Memory Byte,
          busWrite (0x1000 + 4 * w) v s = { s with inBuf := m }
            ∧ (∀ k, k < 4 → m.read (4 * w + k) = some (v.extractLsb' (8 * k) 8))
            ∧ ∀ x, x / 4 ≠ w → m.read x = s.inBuf.read x)
      ∧ ((busRead 0x008 (busWrite 0x008 v s)).1 = v &&& 0x1
        ∧ (busRead 0x01C (busWrite 0x01C v s)).1 = v &&& 0x7
        ∧ (busRead 0x020 (busWrite 0x020 v s)).1 = v
        ∧ (busRead 0x024 (busWrite 0x024 v s)).1 = v &&& 0xFFFF)
      ∧ (∀ i j, i < s.build.nMax → j < s.build.nMax →
          (busRead (0x100 + 0x20 * i + 4 * j) (busWrite (0x100 + 0x20 * i + 4 * j) v s)).1 = v &&& 0x1F)
      ∧ (∀ j, j < s.build.nMax → (busRead (0x300 + 4 * j) (busWrite (0x300 + 4 * j) v s)).1 = v &&& 0x1F)
      ∧ ∀ w, w < (s.build.textMax + 3) / 4 → (busRead (0x1000 + 4 * w) (busWrite (0x1000 + 4 * w) v s)).1 = v

/-- 10_state.md R57 with R50 to R53, R55, R56: reserved bits and reserved offsets read 0, those inside the array
windows too, and while BUSY = 1 too (70_reset_and_hazards.md R461). -/
def Obligations.ReservedBitsReadZero : Prop :=
  ∀ s : State, s.ValuesLegal →
    (∀ off : Nat, off % 4 = 0 →
      (∀ m : Nat × Word, m ∈ [(0x008, 0x1#32), (0x00C, 0xF#32), (0x010, 0x0#32), (0x014, 0xF#32), (0x018, 0xFFFF#32),
            (0x01C, 0x7#32), (0x024, 0xFFFF#32), (0x028, 0xFFFF#32), (0x030, 0x1F#32), (0x034, 0x7777#32),
            (0x038, 0x3FFFF#32)] → off = m.1 → (busRead off s).1 &&& ~~~m.2 = 0)
        ∧ (0x100 ≤ off ∧ off < 0x200 ∨ 0x300 ≤ off ∧ off < 0x340 → (busRead off s).1 &&& ~~~(0x1F#32) = 0)
        ∧ (0x03C ≤ off ∧ off < 0x100 ∨ 0x340 ≤ off ∧ off < 0x380 ∨ 0x39C ≤ off ∧ off < 0x1000
            ∨ 0x3000 ≤ off ∧ off < 0x4000 → (busRead off s).1 = 0))
      ∧ (∀ i j, i < 8 → j < 8 → s.build.nMax ≤ i ∨ s.build.nMax ≤ j →
          (busRead (0x100 + 0x20 * i + 4 * j) s).1 = 0 ∧ (busRead (0x200 + 0x20 * i + 4 * j) s).1 = 0)
      ∧ (∀ j, j < 8 → s.build.nMax ≤ j → (busRead (0x300 + 4 * j) s).1 = 0 ∧ (busRead (0x320 + 4 * j) s).1 = 0)
      ∧ (∀ w, w < 0x400 → (s.build.textMax + 3) / 4 ≤ w → (busRead (0x1000 + 4 * w) s).1 = 0)
      ∧ ∀ w, w < 0x400 → (s.build.textMax + 4) / 4 ≤ w → (busRead (0x2000 + 4 * w) s).1 = 0

/-- 20_memory.md R103: a read changes no register; only a draw is used up (the model's own counter, logs 2 and 24),
and only by an unwritten entry or by a result register while BUSY = 1. -/
def Obligations.ReadsChangeNoRegister : Prop :=
  ∀ (s : State) (off : Nat), off % 4 = 0 → off < 0x4000 →
    (∃ d, (busRead off s).2 = { s with draws := d } ∧ s.draws ≤ d ∧ d ≤ s.draws + 1)
      ∧ (off < 0x028 ∨ 0x03C ≤ off ∧ off < 0x100 ∨ 0x340 ≤ off ∧ off < 0x1000 ∨ 0x3000 ≤ off →
          (busRead off s).2 = s)
      ∧ (s.busy = false → off < 0x100 → (busRead off s).2 = s)

/-- 20_memory.md R101: an access of another width or a misaligned one, whatever value it carries, returns no data,
stops the host and leaves the core's state unchanged; a 32-bit access at a multiple of 4 is performed. A read gives the
host's name an integer whose 32 bits are the word read: which one is not said here. -/
def Obligations.BadAccessStopsTheHostAlone : Prop :=
  ∀ (s : State) (width off x : Nat) (e : HostExpr) (v : Word) (op : HostOp),
    s.rst = false → s.host.halted = none → off < 0x4000 →
    (op = .read width (.lit (off : Int)) x ∨ op = .write width (.lit (off : Int)) e) →
    s.host.program[s.host.position]? = some op →
      (width ≠ 4 ∨ off % 4 ≠ 0 → hostStep s = { s with host := { s.host with halted := some .busError } })
        ∧ (width = 4 → off % 4 = 0 →
          (op = .write width (.lit (off : Int)) (.lit (v.toNat : Int)) →
            hostStep s = busWrite off v { s with host := { s.host with position := s.host.position + 1 } })
            ∧ (op = .read width (.lit (off : Int)) x →
              ∃ z : Int, BitVec.ofInt 32 z = (busRead off s).1
                ∧ hostStep s = { (busRead off s).2 with host := { s.host with
                  position := s.host.position + 1
                  names := s.host.names.write x z } }))

/-- 60_exceptions.md R420: irq = DONE and IE, from completion to the writes that clear DONE or IE; every other
aligned write keeps it. -/
def Obligations.InterruptFollowsDoneAndEnable : Prop :=
  ∀ s : State,
    s.irq = (s.done && s.ie)
      ∧ (∀ t, s.busy = true → coreStep s = .next t → t.irq = s.ie)
      ∧ (∀ w, s.busy = false → (busWrite 0x010 w s).irq = false)
      ∧ (∀ v : Word, (busWrite 0x00C v s).irq = (s.irq && !v.getLsbD 1))
      ∧ (∀ v : Word, (busWrite 0x008 v s).irq = (s.done && v.getLsbD 0))
      ∧ (∀ (off : Nat) (v : Word), off % 4 = 0 → off < 0x4000 → off ≠ 0x008 → off ≠ 0x00C →
          (off = 0x010 → s.busy = true) → (busWrite off v s).irq = s.irq)
      ∧ State.reset.irq = false

/-! ### The whole machine -/

/-- Every step keeps the invariant: canonical storage, only existing entries, legal register values, and the
phase's agreement with the flags. -/
def Obligations.StepKeepsTheInvariant : Prop :=
  ∀ s t : State, s.Inv → step s = .next t → t.Inv

/-- The state after reset meets the invariant. -/
def Obligations.ResetMeetsTheInvariant : Prop := State.reset.Inv

/-- 10_state.md R54, 70_reset_and_hazards.md R453: no step, reset included, changes KEY_SQUARE or the KSQ
window. -/
def Obligations.KeySquareNeverChanges : Prop :=
  ∀ s t : State, step s = .next t →
    t.build = s.build
      ∧ ∀ w k, w < 7 → k < 4 →
        ((busRead (0x380 + 4 * w) t).1.extractLsb' (8 * k) 8 : Byte) = s.build.square.getD (4 * w + k) 0

/-- 10_state.md R36: every completion sets DONE and nothing else does; an issue and a write of 1 to STATUS[1] clear
it; a completion and a write of STATUS in the same bus cycle leave it set. -/
def Obligations.DoneIsSetByCompletionsAlone : Prop :=
  ∀ s t : State,
    (s.busy = true → coreStep s = .next t → t.done = true ∧ t.busy = false)
      ∧ (step s = .next t → s.done = false → t.done = true → s.busy = true ∧ t.busy = false)
      ∧ (∀ w, s.busy = false → (busWrite 0x010 w s).done = false)
      ∧ (∀ v : Word, (busWrite 0x00C v s).done = (s.done && !v.getLsbD 1))
      ∧ (∀ v : Word, s.busy = true → s.rst = false → s.host.halted = none →
          s.host.program[s.host.position]? = some (.write 4 (.lit 0x00C) (.lit (v.toNat : Int))) →
          takeTurn .sameCycle s = .next t → t.done = true)
      ∧ State.reset.done = false

/-- 10_state.md R35: BUSY goes to 1 only by the host's turn (an issue), and back to 0 only by a completion,
which sets DONE, or by reset. -/
def Obligations.BusyLastsFromIssueToCompletion : Prop :=
  ∀ s t : State, step s = .next t →
    (s.busy = true → t.busy = true → t.seq = s.seq)
      ∧ (s.busy = true → t.busy = false → t.done = true ∨ t.rst = true)
      ∧ (s.busy = false → t.busy = true → t.done = false ∧ t.errcode = 0 ∧ t.errinfo = 0)

/-- 10_state.md R61, 70_reset_and_hazards.md R463: a result register changes only when a command in progress
completes without error, or by reset. -/
def Obligations.OnlySuccessfulCommandsWriteResults : Prop :=
  ∀ s t : State, step s = .next t → t.results ≠ s.results →
    s.busy = true ∧ t.busy = false ∧ t.errcode = 0 ∨ t.rst = true

/-- 70_reset_and_hazards.md R460, 20_memory.md R107: the operands of a command in progress cannot change. -/
def Obligations.OperandsStandStillWhileBusy : Prop :=
  ∀ s t : State, step s = .next t → s.busy = true → t.rst = false →
    t.ndim = s.ndim ∧ t.operand = s.operand ∧ t.inLen = s.inLen ∧ t.key = s.key ∧ t.vec = s.vec ∧ t.inBuf = s.inBuf
end

