-- ==== Sys2Proof/Laws/Arith.lean ====
section
/-! SUPPORT. The arithmetic functions in the library's terms: sums, signs, submatrices, residues and
inverses mod 26. -/

namespace Sys2Proof.Machine

/-- The exact sum is the library's. -/
theorem sumTo_eq_sum (n : Nat) (f : Nat → Int) : sumTo n f = ∑ i : Fin n, f i := by
  induction n with
  | zero => rfl
  | succ n ih => rw [sumTo, ih, Fin.sum_univ_castSucc]; rfl

theorem sign_eq_pow (r c : Nat) : sign r c = (-1) ^ (r + c) := by
  unfold sign
  split_ifs with h
  · rw [(Nat.even_iff.mpr h).neg_one_pow]
  · rw [(Nat.odd_iff.mpr (by omega)).neg_one_pow]

/-- `skip` is the library's embedding that leaves out one index. -/
theorem skip_eq_succAbove {n : Nat} (r : Fin (n + 1)) (i : Fin n) : skip r i = (r.succAbove i : Nat) := by
  unfold skip Fin.succAbove
  simp only [Fin.lt_def, Fin.val_castSucc]
  split_ifs <;> rfl

/-- sub(A, r, c) is the library's submatrix. -/
theorem gridMatrix_sub {n : Nat} (A : Grid) (r c : Fin (n + 1)) :
    gridMatrix n (sub A r c) = (gridMatrix (n + 1) A).submatrix r.succAbove c.succAbove := by
  ext i j
  simp [gridMatrix, sub, skip_eq_succAbove]

theorem mod26_lt (x : Int) : mod26 x < 26 := by
  unfold mod26
  omega

/-- mod26 is the Euclidean residue (00_scope.md R14). -/
theorem mod26_cast (x : Int) : ((mod26 x : Nat) : Int) = x % 26 := by
  unfold mod26
  omega

/-- What an inverse mod 26 is. -/
theorem modInverse_spec {r k : Nat} (h : modInverse r = some k) : k < 26 ∧ mod26 ((r : Int) * k) = 1 := by
  unfold modInverse at h
  have h1 := List.find?_some h
  have h2 := List.mem_of_find?_eq_some h
  exact ⟨by simpa using h2, by simpa using h1⟩

/-- An inverse exists exactly for the residues coprime with 26 (41_linear_algebra.md R210), by the table of
R209. -/
theorem modInverse_isSome_iff : ∀ r, r < 26 → ((modInverse r).isSome = true ↔ Nat.gcd r 26 = 1) := by
  decide

end Sys2Proof.Machine
end

