-- ==== Sys2Proof/Laws/Check.lean ====
section
/-! SUPPORT. The operand checks: for each, when it passes and what it raises otherwise. The lemmas say in
terms of Safety's predicates what the loops of 40_control.md R185 to R187 do. -/

namespace Sys2Proof.Machine

/-! ### The primitives -/

@[simp] theorem require_true (e : ErrorCode) (x : Half) : require true e x = .ok () := rfl
@[simp] theorem require_false (e : ErrorCode) (x : Half) : require false e x = .error (.raise e x) := rfl
@[simp] theorem written_some {α : Type} (v : α) : written (some v) = .ok v := rfl
@[simp] theorem written_none {α : Type} : written (none : Option α) = .error (.fault .unwrittenOperand) := rfl

theorem require_ok_iff {p : Bool} {e : ErrorCode} {x : Half} : require p e x = .ok () ↔ p = true := by
  cases p <;> simp [require]

/-- A loop passes exactly when every round passes. -/
theorem scan_ok_iff (f : Nat → Check Unit) (a n : Nat) :
    scan f a n = .ok () ↔ ∀ x, a ≤ x → x < a + n → f x = .ok () := by
  induction n generalizing a with
  | zero => simp [scan]; omega
  | succ n ih =>
    simp only [scan]
    cases h : f a with
    | error e =>
      simp only [reduceCtorEq, false_iff]
      intro hx
      have := hx a (by omega) (by omega)
      simp [h] at this
    | ok u =>
      simp only [ih]
      constructor
      · intro hx x h1 h2
        rcases Nat.eq_or_lt_of_le h1 with rfl | h1
        · simpa using h
        · exact hx x (by omega) (by omega)
      · intro hx x h1 h2
        exact hx x (by omega) (by omega)

/-- A loop stops with what its first failing round stops with. -/
theorem scan_error_iff (f : Nat → Check Unit) (a n : Nat) (e : Stop) :
    scan f a n = .error e ↔
      ∃ x, a ≤ x ∧ x < a + n ∧ f x = .error e ∧ ∀ y, a ≤ y → y < x → f y = .ok () := by
  induction n generalizing a with
  | zero => simp [scan]; omega
  | succ n ih =>
    simp only [scan]
    cases h : f a with
    | error e' =>
      simp only [Except.error.injEq]
      constructor
      · rintro rfl
        exact ⟨a, by omega, by omega, h, fun y h1 h2 => by omega⟩
      · rintro ⟨x, h1, h2, h3, h4⟩
        rcases Nat.eq_or_lt_of_le h1 with rfl | h1
        · simpa [h] using h3
        · have := h4 a (by omega) h1
          simp [h] at this
    | ok u =>
      simp only [ih]
      constructor
      · rintro ⟨x, h1, h2, h3, h4⟩
        refine ⟨x, by omega, by omega, h3, fun y hy1 hy2 => ?_⟩
        rcases Nat.eq_or_lt_of_le hy1 with rfl | hy1
        · simpa using h
        · exact h4 y (by omega) hy2
      · rintro ⟨x, h1, h2, h3, h4⟩
        have hax : a ≠ x := by
          rintro rfl
          simp [h] at h3
        exact ⟨x, by omega, by omega, h3, fun y hy1 hy2 => h4 y (by omega) hy2⟩

/-- A loop and another loop that agree round by round agree. -/
theorem scan_congr {f g : Nat → Check Unit} (a n : Nat) (h : ∀ x, a ≤ x → x < a + n → f x = g x) :
    scan f a n = scan g a n := by
  induction n generalizing a with
  | zero => rfl
  | succ n ih =>
    simp only [scan, h a (by omega) (by omega), ih (a + 1) fun x h1 h2 => h x (by omega) (by omega)]

/-! ### Endings -/

@[simp] theorem conclude_ok (s t : State) : conclude s (.ok t) = .next (t.finish 0 0) := rfl
@[simp] theorem conclude_raise (s : State) (e : ErrorCode) (x : Half) :
    conclude s (.error (.raise e x)) = .next (s.finish e.code x) := rfl
@[simp] theorem conclude_fault (s : State) (f : Fault) : conclude s (.error (.fault f)) = .fault f := rfl

/-- Everything a command can end in (40_control.md R182, R183). -/
theorem conclude_next_iff (s t : State) (r : Check State) :
    conclude s r = .next t ↔
      (∃ u, r = .ok u ∧ t = u.finish 0 0) ∨ (∃ e x, r = .error (.raise e x) ∧ t = s.finish e.code x) := by
  rcases r with ⟨e, x⟩ | u <;> simp [eq_comm]

theorem conclude_ne_refused (s : State) (r : Check State) (q : Refusal) : conclude s r ≠ .refused q := by
  rcases r with ⟨e, x⟩ | u <;> simp

/-- No error has the code NONE (60_exceptions.md R400). -/
theorem ErrorCode.code_ne_zero (e : ErrorCode) : e.code ≠ 0 := by cases e <;> decide

theorem ErrorCode.code_le_seven (e : ErrorCode) : e.code.toNat ≤ 7 := by cases e <;> decide

/-! ### Operand checks -/

theorem checkDim_ok_iff (s : State) : checkDim s = .ok () ↔ s.DimOk := by
  simp [checkDim, require_ok_iff]

theorem checkDim_error (s : State) (h : ¬ s.DimOk) : checkDim s = .error (.raise .invalidKey 0xFFFF#16) := by
  have : (decide (2 ≤ s.dim) && decide (s.dim ≤ s.build.nMax)) = false := by
    rw [← Bool.not_eq_true]
    simpa only [Bool.and_eq_true, decide_eq_true_eq] using h
  simp [checkDim, this]

theorem checkKeyEntry_eq (s : State) (i j : Nat) :
    checkKeyEntry s i j =
      match s.key.read (entryIndex i j) with
      | none => .error (.fault .unwrittenOperand)
      | some v => if v.toNat ≤ 25 then .ok () else .error (.raise .invalidKey (half (8 * i + j))) := by
  unfold checkKeyEntry
  cases s.key.read (entryIndex i j) with
  | none => rfl
  | some v => by_cases h : v.toNat ≤ 25 <;> simp [bind, Except.bind, require, h]

theorem checkKeyEntry_ok_iff (s : State) (i j : Nat) : checkKeyEntry s i j = .ok () ↔ s.KeyEntryOk i j := by
  rw [checkKeyEntry_eq, State.KeyEntryOk]
  cases s.key.read (entryIndex i j) with
  | none => simp
  | some v => by_cases h : v.toNat ≤ 25 <;> simp [h]

/-- CheckKey passes exactly on a ready key (40_control.md R185). -/
theorem checkKey_ok_iff (s : State) : checkKey s = .ok () ↔ s.KeyReady := by
  unfold checkKey State.KeyReady
  by_cases h : s.DimOk
  · rw [(checkDim_ok_iff s).mpr h]
    simp only [bind, Except.bind, scan_ok_iff, checkKeyEntry_ok_iff, Nat.zero_le, Nat.zero_add, true_implies]
    exact ⟨fun hk => ⟨h, hk⟩, fun hk => hk.2⟩
  · simp [checkDim_error s h, bind, Except.bind, h]

theorem checkVecEntry_eq (s : State) (j : Nat) :
    checkVecEntry s j =
      match s.vec.read j with
      | none => .error (.fault .unwrittenOperand)
      | some v => if v.toNat ≤ 25 then .ok () else .error (.raise .invalidCharacter (half j)) := by
  unfold checkVecEntry
  cases s.vec.read j with
  | none => rfl
  | some v => by_cases h : v.toNat ≤ 25 <;> simp [bind, Except.bind, require, h]

theorem checkVecEntry_ok_iff (s : State) (j : Nat) : checkVecEntry s j = .ok () ↔ s.VecEntryOk j := by
  rw [checkVecEntry_eq, State.VecEntryOk]
  cases s.vec.read j with
  | none => simp
  | some v => by_cases h : v.toNat ≤ 25 <;> simp [h]

theorem checkVec_ok_iff (s : State) : checkVec s = .ok () ↔ s.VecReady := by
  simp [checkVec, State.VecReady, scan_ok_iff, checkVecEntry_ok_iff]

theorem written_map_ok_iff {α : Type} (v : Option α) :
    (written v).map (fun _ => ()) = .ok () ↔ v.isSome = true := by
  cases v <;> simp [Except.map]

/-- The loop over RMAT passes exactly when its block is written (41_linear_algebra.md R220). -/
theorem checkRmat_ok_iff (s : State) :
    checkRmat s = .ok () ↔ ∀ i, i < s.dim → ∀ j, j < s.dim → (s.rmat.read (entryIndex i j)).isSome = true := by
  simp [checkRmat, scan_ok_iff, written_map_ok_iff]

theorem checkText_ok_iff (s : State) :
    checkText s = .ok () ↔ ∀ k, k < s.textLen → (s.inBuf.read k).isSome = true := by
  simp [checkText, readIn, scan_ok_iff, written_map_ok_iff]

theorem checkTextMax_ok_iff (s : State) : checkTextMax s = .ok () ↔ s.textLen ≤ s.build.textMax := by
  simp [checkTextMax, require_ok_iff]

theorem checkBlock_ok_iff (s : State) : checkBlock s = .ok () ↔ s.textLen = s.dim := by
  simp [checkBlock, require_ok_iff]

theorem checkIndex_ok_iff (s : State) (r c : Nat) : checkIndex s r c = .ok () ↔ r < s.dim ∧ c < s.dim := by
  simp [checkIndex, require_ok_iff]

theorem checkLetter_eq (s : State) (j : Nat) :
    checkLetter s j =
      match s.inBuf.read j with
      | none => .error (.fault .unwrittenOperand)
      | some b => if isUpper b then .ok () else .error (.raise .invalidCharacter (half j)) := by
  unfold checkLetter readIn
  cases s.inBuf.read j with
  | none => rfl
  | some b => by_cases h : isUpper b <;> simp [bind, Except.bind, require, h]

theorem checkLetters_ok_iff (s : State) : checkLetters s = .ok () ↔ ∀ j, j < s.dim → s.LetterOk j := by
  have h : ∀ j, checkLetter s j = .ok () ↔ s.LetterOk j := fun j => by
    rw [checkLetter_eq, State.LetterOk]
    cases s.inBuf.read j with
    | none => simp
    | some b => by_cases h : isUpper b <;> simp [h]
  simp [checkLetters, scan_ok_iff, h]

theorem requireInverse_some {r k : Nat} (h : modInverse r = some k) : requireInverse r = .ok k := by
  simp [requireInverse, h]

theorem requireInverse_none {r : Nat} (h : modInverse r = none) :
    requireInverse r = .error (.raise .notInvertible (half r)) := by
  simp [requireInverse, h]

theorem lookup_some {b : Build} {c : Byte} {p : Position} (h : pos b c = some p) (idx : Nat) :
    lookup b c idx = .ok p := by
  simp [lookup, h]

theorem lookup_none {b : Build} {c : Byte} (h : pos b c = none) (idx : Nat) :
    lookup b c idx = .error (.raise .notFound (half idx)) := by
  simp [lookup, h]

end Sys2Proof.Machine

namespace Sys2Proof

/-! ### What a build guarantees (00_scope.md R5 to R7) -/

theorem Build.bounds (b : Build) : 2 ≤ b.nMax ∧ b.nMax ≤ 5 ∧ 2 ≤ b.textMax ∧ b.textMax ≤ 4095 := by
  have h := b.legal
  simp only [Config.buildOk, Bool.and_eq_true, decide_eq_true_eq] at h
  exact ⟨h.1.1.1.1, h.1.1.1.2, h.1.1.2, h.1.2⟩

theorem Build.square_length (b : Build) : b.square.length = 25 := by
  have h := b.legal
  simp only [Config.buildOk, Config.squareOk, Bool.and_eq_true, beq_iff_eq] at h
  exact h.2.1.1

theorem Build.square_nodup (b : Build) : b.square.Nodup := by
  have h := b.legal
  simp only [Config.buildOk, Config.squareOk, Bool.and_eq_true, decide_eq_true_eq] at h
  exact h.2.2

/-- Every letter of a key square is an upper-case letter other than 'J'. -/
theorem Build.square_letter (b : Build) {c : Byte} (hc : c ∈ b.square) :
    0x41 ≤ c.toNat ∧ c.toNat ≤ 0x5A ∧ c ≠ 0x4A#8 := by
  have h := b.legal
  simp only [Config.buildOk, Config.squareOk, Bool.and_eq_true, List.all_eq_true] at h
  have := h.2.1.2 c hc
  simp only [decide_eq_true_eq, bne_iff_ne, ne_eq] at this
  exact ⟨this.1.1, this.1.2, this.2⟩

end Sys2Proof
end

