-- ==== Sys2Proof/Laws/State.lean ====
section
/-! SUPPORT. One lemma per field per update of the state, each true by definition, so that no later proof
unfolds a record update. -/

namespace Sys2Proof.Machine

variable (s : State)

/-! ### finish -/

@[simp] theorem State.finish_build (c : BitVec 4) (x : Half) : (s.finish c x).build = s.build := rfl
@[simp] theorem State.finish_rst (c : BitVec 4) (x : Half) : (s.finish c x).rst = s.rst := rfl
@[simp] theorem State.finish_ie (c : BitVec 4) (x : Half) : (s.finish c x).ie = s.ie := rfl
@[simp] theorem State.finish_seq (c : BitVec 4) (x : Half) : (s.finish c x).seq = .idle := rfl
@[simp] theorem State.finish_done (c : BitVec 4) (x : Half) : (s.finish c x).done = true := rfl
@[simp] theorem State.finish_wbusy (c : BitVec 4) (x : Half) : (s.finish c x).wbusy = s.wbusy := rfl
@[simp] theorem State.finish_errcode (c : BitVec 4) (x : Half) : (s.finish c x).errcode = c := rfl
@[simp] theorem State.finish_errinfo (c : BitVec 4) (x : Half) : (s.finish c x).errinfo = x := rfl
@[simp] theorem State.finish_ndim (c : BitVec 4) (x : Half) : (s.finish c x).ndim = s.ndim := rfl
@[simp] theorem State.finish_operand (c : BitVec 4) (x : Half) : (s.finish c x).operand = s.operand := rfl
@[simp] theorem State.finish_inLen (c : BitVec 4) (x : Half) : (s.finish c x).inLen = s.inLen := rfl
@[simp] theorem State.finish_outLen (c : BitVec 4) (x : Half) : (s.finish c x).outLen = s.outLen := rfl
@[simp] theorem State.finish_resScalar (c : BitVec 4) (x : Half) : (s.finish c x).resScalar = s.resScalar := rfl
@[simp] theorem State.finish_resDetmod (c : BitVec 4) (x : Half) : (s.finish c x).resDetmod = s.resDetmod := rfl
@[simp] theorem State.finish_resPos (c : BitVec 4) (x : Half) : (s.finish c x).resPos = s.resPos := rfl
@[simp] theorem State.finish_resPair (c : BitVec 4) (x : Half) : (s.finish c x).resPair = s.resPair := rfl
@[simp] theorem State.finish_key (c : BitVec 4) (x : Half) : (s.finish c x).key = s.key := rfl
@[simp] theorem State.finish_rmat (c : BitVec 4) (x : Half) : (s.finish c x).rmat = s.rmat := rfl
@[simp] theorem State.finish_vec (c : BitVec 4) (x : Half) : (s.finish c x).vec = s.vec := rfl
@[simp] theorem State.finish_rvec (c : BitVec 4) (x : Half) : (s.finish c x).rvec = s.rvec := rfl
@[simp] theorem State.finish_inBuf (c : BitVec 4) (x : Half) : (s.finish c x).inBuf = s.inBuf := rfl
@[simp] theorem State.finish_outBuf (c : BitVec 4) (x : Half) : (s.finish c x).outBuf = s.outBuf := rfl
@[simp] theorem State.finish_host (c : BitVec 4) (x : Half) : (s.finish c x).host = s.host := rfl
@[simp] theorem State.finish_turns (c : BitVec 4) (x : Half) : (s.finish c x).turns = s.turns := rfl
@[simp] theorem State.finish_draws (c : BitVec 4) (x : Half) : (s.finish c x).draws = s.draws := rfl

/-! ### issue -/

@[simp] theorem State.issue_build (w : Word) : (s.issue w).build = s.build := rfl
@[simp] theorem State.issue_rst (w : Word) : (s.issue w).rst = s.rst := rfl
@[simp] theorem State.issue_ie (w : Word) : (s.issue w).ie = s.ie := rfl
@[simp] theorem State.issue_seq (w : Word) : (s.issue w).seq = .busy w := rfl
@[simp] theorem State.issue_done (w : Word) : (s.issue w).done = false := rfl
@[simp] theorem State.issue_wbusy (w : Word) : (s.issue w).wbusy = s.wbusy := rfl
@[simp] theorem State.issue_errcode (w : Word) : (s.issue w).errcode = 0 := rfl
@[simp] theorem State.issue_errinfo (w : Word) : (s.issue w).errinfo = 0 := rfl
@[simp] theorem State.issue_ndim (w : Word) : (s.issue w).ndim = s.ndim := rfl
@[simp] theorem State.issue_operand (w : Word) : (s.issue w).operand = s.operand := rfl
@[simp] theorem State.issue_inLen (w : Word) : (s.issue w).inLen = s.inLen := rfl
@[simp] theorem State.issue_outLen (w : Word) : (s.issue w).outLen = s.outLen := rfl
@[simp] theorem State.issue_resScalar (w : Word) : (s.issue w).resScalar = s.resScalar := rfl
@[simp] theorem State.issue_resDetmod (w : Word) : (s.issue w).resDetmod = s.resDetmod := rfl
@[simp] theorem State.issue_resPos (w : Word) : (s.issue w).resPos = s.resPos := rfl
@[simp] theorem State.issue_resPair (w : Word) : (s.issue w).resPair = s.resPair := rfl
@[simp] theorem State.issue_key (w : Word) : (s.issue w).key = s.key := rfl
@[simp] theorem State.issue_rmat (w : Word) : (s.issue w).rmat = s.rmat := rfl
@[simp] theorem State.issue_vec (w : Word) : (s.issue w).vec = s.vec := rfl
@[simp] theorem State.issue_rvec (w : Word) : (s.issue w).rvec = s.rvec := rfl
@[simp] theorem State.issue_inBuf (w : Word) : (s.issue w).inBuf = s.inBuf := rfl
@[simp] theorem State.issue_outBuf (w : Word) : (s.issue w).outBuf = s.outBuf := rfl
@[simp] theorem State.issue_host (w : Word) : (s.issue w).host = s.host := rfl
@[simp] theorem State.issue_turns (w : Word) : (s.issue w).turns = s.turns := rfl
@[simp] theorem State.issue_draws (w : Word) : (s.issue w).draws = s.draws := rfl

/-! ### writeStatus -/

@[simp] theorem State.writeStatus_build (v : Word) : (s.writeStatus v).build = s.build := rfl
@[simp] theorem State.writeStatus_rst (v : Word) : (s.writeStatus v).rst = s.rst := rfl
@[simp] theorem State.writeStatus_ie (v : Word) : (s.writeStatus v).ie = s.ie := rfl
@[simp] theorem State.writeStatus_seq (v : Word) : (s.writeStatus v).seq = s.seq := rfl
@[simp] theorem State.writeStatus_done (v : Word) : (s.writeStatus v).done = (s.done && !v.getLsbD 1) := rfl
@[simp] theorem State.writeStatus_wbusy (v : Word) : (s.writeStatus v).wbusy = (s.wbusy && !v.getLsbD 3) := rfl
@[simp] theorem State.writeStatus_errcode (v : Word) : (s.writeStatus v).errcode = s.errcode := rfl
@[simp] theorem State.writeStatus_errinfo (v : Word) : (s.writeStatus v).errinfo = s.errinfo := rfl
@[simp] theorem State.writeStatus_ndim (v : Word) : (s.writeStatus v).ndim = s.ndim := rfl
@[simp] theorem State.writeStatus_operand (v : Word) : (s.writeStatus v).operand = s.operand := rfl
@[simp] theorem State.writeStatus_inLen (v : Word) : (s.writeStatus v).inLen = s.inLen := rfl
@[simp] theorem State.writeStatus_outLen (v : Word) : (s.writeStatus v).outLen = s.outLen := rfl
@[simp] theorem State.writeStatus_resScalar (v : Word) : (s.writeStatus v).resScalar = s.resScalar := rfl
@[simp] theorem State.writeStatus_resDetmod (v : Word) : (s.writeStatus v).resDetmod = s.resDetmod := rfl
@[simp] theorem State.writeStatus_resPos (v : Word) : (s.writeStatus v).resPos = s.resPos := rfl
@[simp] theorem State.writeStatus_resPair (v : Word) : (s.writeStatus v).resPair = s.resPair := rfl
@[simp] theorem State.writeStatus_key (v : Word) : (s.writeStatus v).key = s.key := rfl
@[simp] theorem State.writeStatus_rmat (v : Word) : (s.writeStatus v).rmat = s.rmat := rfl
@[simp] theorem State.writeStatus_vec (v : Word) : (s.writeStatus v).vec = s.vec := rfl
@[simp] theorem State.writeStatus_rvec (v : Word) : (s.writeStatus v).rvec = s.rvec := rfl
@[simp] theorem State.writeStatus_inBuf (v : Word) : (s.writeStatus v).inBuf = s.inBuf := rfl
@[simp] theorem State.writeStatus_outBuf (v : Word) : (s.writeStatus v).outBuf = s.outBuf := rfl
@[simp] theorem State.writeStatus_host (v : Word) : (s.writeStatus v).host = s.host := rfl
@[simp] theorem State.writeStatus_turns (v : Word) : (s.writeStatus v).turns = s.turns := rfl
@[simp] theorem State.writeStatus_draws (v : Word) : (s.writeStatus v).draws = s.draws := rfl

/-! ### writeCtrl -/

@[simp] theorem State.writeCtrl_build (v : Word) : (s.writeCtrl v).build = s.build := rfl
@[simp] theorem State.writeCtrl_rst (v : Word) : (s.writeCtrl v).rst = s.rst := rfl
@[simp] theorem State.writeCtrl_ie (v : Word) : (s.writeCtrl v).ie = v.getLsbD 0 := rfl
@[simp] theorem State.writeCtrl_seq (v : Word) : (s.writeCtrl v).seq = s.seq := rfl
@[simp] theorem State.writeCtrl_done (v : Word) : (s.writeCtrl v).done = s.done := rfl
@[simp] theorem State.writeCtrl_wbusy (v : Word) : (s.writeCtrl v).wbusy = s.wbusy := rfl
@[simp] theorem State.writeCtrl_errcode (v : Word) : (s.writeCtrl v).errcode = s.errcode := rfl
@[simp] theorem State.writeCtrl_errinfo (v : Word) : (s.writeCtrl v).errinfo = s.errinfo := rfl
@[simp] theorem State.writeCtrl_ndim (v : Word) : (s.writeCtrl v).ndim = s.ndim := rfl
@[simp] theorem State.writeCtrl_operand (v : Word) : (s.writeCtrl v).operand = s.operand := rfl
@[simp] theorem State.writeCtrl_inLen (v : Word) : (s.writeCtrl v).inLen = s.inLen := rfl
@[simp] theorem State.writeCtrl_outLen (v : Word) : (s.writeCtrl v).outLen = s.outLen := rfl
@[simp] theorem State.writeCtrl_resScalar (v : Word) : (s.writeCtrl v).resScalar = s.resScalar := rfl
@[simp] theorem State.writeCtrl_resDetmod (v : Word) : (s.writeCtrl v).resDetmod = s.resDetmod := rfl
@[simp] theorem State.writeCtrl_resPos (v : Word) : (s.writeCtrl v).resPos = s.resPos := rfl
@[simp] theorem State.writeCtrl_resPair (v : Word) : (s.writeCtrl v).resPair = s.resPair := rfl
@[simp] theorem State.writeCtrl_key (v : Word) : (s.writeCtrl v).key = s.key := rfl
@[simp] theorem State.writeCtrl_rmat (v : Word) : (s.writeCtrl v).rmat = s.rmat := rfl
@[simp] theorem State.writeCtrl_vec (v : Word) : (s.writeCtrl v).vec = s.vec := rfl
@[simp] theorem State.writeCtrl_rvec (v : Word) : (s.writeCtrl v).rvec = s.rvec := rfl
@[simp] theorem State.writeCtrl_inBuf (v : Word) : (s.writeCtrl v).inBuf = s.inBuf := rfl
@[simp] theorem State.writeCtrl_outBuf (v : Word) : (s.writeCtrl v).outBuf = s.outBuf := rfl
@[simp] theorem State.writeCtrl_host (v : Word) : (s.writeCtrl v).host = s.host := rfl
@[simp] theorem State.writeCtrl_turns (v : Word) : (s.writeCtrl v).turns = s.turns := rfl
@[simp] theorem State.writeCtrl_draws (v : Word) : (s.writeCtrl v).draws = s.draws := rfl

/-! ### writeOut -/

@[simp] theorem State.writeOut_build (t : List Byte) : (s.writeOut t).build = s.build := rfl
@[simp] theorem State.writeOut_rst (t : List Byte) : (s.writeOut t).rst = s.rst := rfl
@[simp] theorem State.writeOut_ie (t : List Byte) : (s.writeOut t).ie = s.ie := rfl
@[simp] theorem State.writeOut_seq (t : List Byte) : (s.writeOut t).seq = s.seq := rfl
@[simp] theorem State.writeOut_done (t : List Byte) : (s.writeOut t).done = s.done := rfl
@[simp] theorem State.writeOut_wbusy (t : List Byte) : (s.writeOut t).wbusy = s.wbusy := rfl
@[simp] theorem State.writeOut_errcode (t : List Byte) : (s.writeOut t).errcode = s.errcode := rfl
@[simp] theorem State.writeOut_errinfo (t : List Byte) : (s.writeOut t).errinfo = s.errinfo := rfl
@[simp] theorem State.writeOut_ndim (t : List Byte) : (s.writeOut t).ndim = s.ndim := rfl
@[simp] theorem State.writeOut_operand (t : List Byte) : (s.writeOut t).operand = s.operand := rfl
@[simp] theorem State.writeOut_inLen (t : List Byte) : (s.writeOut t).inLen = s.inLen := rfl
@[simp] theorem State.writeOut_outLen (t : List Byte) : (s.writeOut t).outLen = half t.length := rfl
@[simp] theorem State.writeOut_resScalar (t : List Byte) : (s.writeOut t).resScalar = s.resScalar := rfl
@[simp] theorem State.writeOut_resDetmod (t : List Byte) : (s.writeOut t).resDetmod = s.resDetmod := rfl
@[simp] theorem State.writeOut_resPos (t : List Byte) : (s.writeOut t).resPos = s.resPos := rfl
@[simp] theorem State.writeOut_resPair (t : List Byte) : (s.writeOut t).resPair = s.resPair := rfl
@[simp] theorem State.writeOut_key (t : List Byte) : (s.writeOut t).key = s.key := rfl
@[simp] theorem State.writeOut_rmat (t : List Byte) : (s.writeOut t).rmat = s.rmat := rfl
@[simp] theorem State.writeOut_vec (t : List Byte) : (s.writeOut t).vec = s.vec := rfl
@[simp] theorem State.writeOut_rvec (t : List Byte) : (s.writeOut t).rvec = s.rvec := rfl
@[simp] theorem State.writeOut_inBuf (t : List Byte) : (s.writeOut t).inBuf = s.inBuf := rfl
@[simp] theorem State.writeOut_outBuf (t : List Byte) : (s.writeOut t).outBuf = s.outBuf.writeRange 0 t.length (fun k => t.getD k 0) := rfl
@[simp] theorem State.writeOut_host (t : List Byte) : (s.writeOut t).host = s.host := rfl
@[simp] theorem State.writeOut_turns (t : List Byte) : (s.writeOut t).turns = s.turns := rfl
@[simp] theorem State.writeOut_draws (t : List Byte) : (s.writeOut t).draws = s.draws := rfl

/-! ### writeRmat -/

@[simp] theorem State.writeRmat_build (n : Nat) (f : Nat → Nat → Word) : (s.writeRmat n f).build = s.build := rfl
@[simp] theorem State.writeRmat_rst (n : Nat) (f : Nat → Nat → Word) : (s.writeRmat n f).rst = s.rst := rfl
@[simp] theorem State.writeRmat_ie (n : Nat) (f : Nat → Nat → Word) : (s.writeRmat n f).ie = s.ie := rfl
@[simp] theorem State.writeRmat_seq (n : Nat) (f : Nat → Nat → Word) : (s.writeRmat n f).seq = s.seq := rfl
@[simp] theorem State.writeRmat_done (n : Nat) (f : Nat → Nat → Word) : (s.writeRmat n f).done = s.done := rfl
@[simp] theorem State.writeRmat_wbusy (n : Nat) (f : Nat → Nat → Word) : (s.writeRmat n f).wbusy = s.wbusy := rfl
@[simp] theorem State.writeRmat_errcode (n : Nat) (f : Nat → Nat → Word) : (s.writeRmat n f).errcode = s.errcode := rfl
@[simp] theorem State.writeRmat_errinfo (n : Nat) (f : Nat → Nat → Word) : (s.writeRmat n f).errinfo = s.errinfo := rfl
@[simp] theorem State.writeRmat_ndim (n : Nat) (f : Nat → Nat → Word) : (s.writeRmat n f).ndim = s.ndim := rfl
@[simp] theorem State.writeRmat_operand (n : Nat) (f : Nat → Nat → Word) : (s.writeRmat n f).operand = s.operand := rfl
@[simp] theorem State.writeRmat_inLen (n : Nat) (f : Nat → Nat → Word) : (s.writeRmat n f).inLen = s.inLen := rfl
@[simp] theorem State.writeRmat_outLen (n : Nat) (f : Nat → Nat → Word) : (s.writeRmat n f).outLen = s.outLen := rfl
@[simp] theorem State.writeRmat_resScalar (n : Nat) (f : Nat → Nat → Word) : (s.writeRmat n f).resScalar = s.resScalar := rfl
@[simp] theorem State.writeRmat_resDetmod (n : Nat) (f : Nat → Nat → Word) : (s.writeRmat n f).resDetmod = s.resDetmod := rfl
@[simp] theorem State.writeRmat_resPos (n : Nat) (f : Nat → Nat → Word) : (s.writeRmat n f).resPos = s.resPos := rfl
@[simp] theorem State.writeRmat_resPair (n : Nat) (f : Nat → Nat → Word) : (s.writeRmat n f).resPair = s.resPair := rfl
@[simp] theorem State.writeRmat_key (n : Nat) (f : Nat → Nat → Word) : (s.writeRmat n f).key = s.key := rfl
@[simp] theorem State.writeRmat_rmat (n : Nat) (f : Nat → Nat → Word) : (s.writeRmat n f).rmat = s.rmat.writeBlock s.build.nMax s.build.nMax (fun i j => if i < n ∧ j < n then f i j else 0) := rfl
@[simp] theorem State.writeRmat_vec (n : Nat) (f : Nat → Nat → Word) : (s.writeRmat n f).vec = s.vec := rfl
@[simp] theorem State.writeRmat_rvec (n : Nat) (f : Nat → Nat → Word) : (s.writeRmat n f).rvec = s.rvec := rfl
@[simp] theorem State.writeRmat_inBuf (n : Nat) (f : Nat → Nat → Word) : (s.writeRmat n f).inBuf = s.inBuf := rfl
@[simp] theorem State.writeRmat_outBuf (n : Nat) (f : Nat → Nat → Word) : (s.writeRmat n f).outBuf = s.outBuf := rfl
@[simp] theorem State.writeRmat_host (n : Nat) (f : Nat → Nat → Word) : (s.writeRmat n f).host = s.host := rfl
@[simp] theorem State.writeRmat_turns (n : Nat) (f : Nat → Nat → Word) : (s.writeRmat n f).turns = s.turns := rfl
@[simp] theorem State.writeRmat_draws (n : Nat) (f : Nat → Nat → Word) : (s.writeRmat n f).draws = s.draws := rfl

/-! ### writeRvec -/

@[simp] theorem State.writeRvec_build (n : Nat) (f : Nat → Nat) : (s.writeRvec n f).build = s.build := rfl
@[simp] theorem State.writeRvec_rst (n : Nat) (f : Nat → Nat) : (s.writeRvec n f).rst = s.rst := rfl
@[simp] theorem State.writeRvec_ie (n : Nat) (f : Nat → Nat) : (s.writeRvec n f).ie = s.ie := rfl
@[simp] theorem State.writeRvec_seq (n : Nat) (f : Nat → Nat) : (s.writeRvec n f).seq = s.seq := rfl
@[simp] theorem State.writeRvec_done (n : Nat) (f : Nat → Nat) : (s.writeRvec n f).done = s.done := rfl
@[simp] theorem State.writeRvec_wbusy (n : Nat) (f : Nat → Nat) : (s.writeRvec n f).wbusy = s.wbusy := rfl
@[simp] theorem State.writeRvec_errcode (n : Nat) (f : Nat → Nat) : (s.writeRvec n f).errcode = s.errcode := rfl
@[simp] theorem State.writeRvec_errinfo (n : Nat) (f : Nat → Nat) : (s.writeRvec n f).errinfo = s.errinfo := rfl
@[simp] theorem State.writeRvec_ndim (n : Nat) (f : Nat → Nat) : (s.writeRvec n f).ndim = s.ndim := rfl
@[simp] theorem State.writeRvec_operand (n : Nat) (f : Nat → Nat) : (s.writeRvec n f).operand = s.operand := rfl
@[simp] theorem State.writeRvec_inLen (n : Nat) (f : Nat → Nat) : (s.writeRvec n f).inLen = s.inLen := rfl
@[simp] theorem State.writeRvec_outLen (n : Nat) (f : Nat → Nat) : (s.writeRvec n f).outLen = s.outLen := rfl
@[simp] theorem State.writeRvec_resScalar (n : Nat) (f : Nat → Nat) : (s.writeRvec n f).resScalar = s.resScalar := rfl
@[simp] theorem State.writeRvec_resDetmod (n : Nat) (f : Nat → Nat) : (s.writeRvec n f).resDetmod = s.resDetmod := rfl
@[simp] theorem State.writeRvec_resPos (n : Nat) (f : Nat → Nat) : (s.writeRvec n f).resPos = s.resPos := rfl
@[simp] theorem State.writeRvec_resPair (n : Nat) (f : Nat → Nat) : (s.writeRvec n f).resPair = s.resPair := rfl
@[simp] theorem State.writeRvec_key (n : Nat) (f : Nat → Nat) : (s.writeRvec n f).key = s.key := rfl
@[simp] theorem State.writeRvec_rmat (n : Nat) (f : Nat → Nat) : (s.writeRvec n f).rmat = s.rmat := rfl
@[simp] theorem State.writeRvec_vec (n : Nat) (f : Nat → Nat) : (s.writeRvec n f).vec = s.vec := rfl
@[simp] theorem State.writeRvec_rvec (n : Nat) (f : Nat → Nat) : (s.writeRvec n f).rvec = s.rvec.writeRange 0 s.build.nMax (fun i => if i < n then BitVec.ofNat 5 (f i) else 0) := rfl
@[simp] theorem State.writeRvec_inBuf (n : Nat) (f : Nat → Nat) : (s.writeRvec n f).inBuf = s.inBuf := rfl
@[simp] theorem State.writeRvec_outBuf (n : Nat) (f : Nat → Nat) : (s.writeRvec n f).outBuf = s.outBuf := rfl
@[simp] theorem State.writeRvec_host (n : Nat) (f : Nat → Nat) : (s.writeRvec n f).host = s.host := rfl
@[simp] theorem State.writeRvec_turns (n : Nat) (f : Nat → Nat) : (s.writeRvec n f).turns = s.turns := rfl
@[simp] theorem State.writeRvec_draws (n : Nat) (f : Nat → Nat) : (s.writeRvec n f).draws = s.draws := rfl

/-! ### haltHost -/

@[simp] theorem State.haltHost_build (f : Fault) : (s.haltHost f).build = s.build := rfl
@[simp] theorem State.haltHost_rst (f : Fault) : (s.haltHost f).rst = s.rst := rfl
@[simp] theorem State.haltHost_ie (f : Fault) : (s.haltHost f).ie = s.ie := rfl
@[simp] theorem State.haltHost_seq (f : Fault) : (s.haltHost f).seq = s.seq := rfl
@[simp] theorem State.haltHost_done (f : Fault) : (s.haltHost f).done = s.done := rfl
@[simp] theorem State.haltHost_wbusy (f : Fault) : (s.haltHost f).wbusy = s.wbusy := rfl
@[simp] theorem State.haltHost_errcode (f : Fault) : (s.haltHost f).errcode = s.errcode := rfl
@[simp] theorem State.haltHost_errinfo (f : Fault) : (s.haltHost f).errinfo = s.errinfo := rfl
@[simp] theorem State.haltHost_ndim (f : Fault) : (s.haltHost f).ndim = s.ndim := rfl
@[simp] theorem State.haltHost_operand (f : Fault) : (s.haltHost f).operand = s.operand := rfl
@[simp] theorem State.haltHost_inLen (f : Fault) : (s.haltHost f).inLen = s.inLen := rfl
@[simp] theorem State.haltHost_outLen (f : Fault) : (s.haltHost f).outLen = s.outLen := rfl
@[simp] theorem State.haltHost_resScalar (f : Fault) : (s.haltHost f).resScalar = s.resScalar := rfl
@[simp] theorem State.haltHost_resDetmod (f : Fault) : (s.haltHost f).resDetmod = s.resDetmod := rfl
@[simp] theorem State.haltHost_resPos (f : Fault) : (s.haltHost f).resPos = s.resPos := rfl
@[simp] theorem State.haltHost_resPair (f : Fault) : (s.haltHost f).resPair = s.resPair := rfl
@[simp] theorem State.haltHost_key (f : Fault) : (s.haltHost f).key = s.key := rfl
@[simp] theorem State.haltHost_rmat (f : Fault) : (s.haltHost f).rmat = s.rmat := rfl
@[simp] theorem State.haltHost_vec (f : Fault) : (s.haltHost f).vec = s.vec := rfl
@[simp] theorem State.haltHost_rvec (f : Fault) : (s.haltHost f).rvec = s.rvec := rfl
@[simp] theorem State.haltHost_inBuf (f : Fault) : (s.haltHost f).inBuf = s.inBuf := rfl
@[simp] theorem State.haltHost_outBuf (f : Fault) : (s.haltHost f).outBuf = s.outBuf := rfl
@[simp] theorem State.haltHost_host (f : Fault) : (s.haltHost f).host = { s.host with halted := some f } := rfl
@[simp] theorem State.haltHost_turns (f : Fault) : (s.haltHost f).turns = s.turns := rfl
@[simp] theorem State.haltHost_draws (f : Fault) : (s.haltHost f).draws = s.draws := rfl

/-! ### advanceHost -/

@[simp] theorem State.advanceHost_build : s.advanceHost.build = s.build := rfl
@[simp] theorem State.advanceHost_rst : s.advanceHost.rst = s.rst := rfl
@[simp] theorem State.advanceHost_ie : s.advanceHost.ie = s.ie := rfl
@[simp] theorem State.advanceHost_seq : s.advanceHost.seq = s.seq := rfl
@[simp] theorem State.advanceHost_done : s.advanceHost.done = s.done := rfl
@[simp] theorem State.advanceHost_wbusy : s.advanceHost.wbusy = s.wbusy := rfl
@[simp] theorem State.advanceHost_errcode : s.advanceHost.errcode = s.errcode := rfl
@[simp] theorem State.advanceHost_errinfo : s.advanceHost.errinfo = s.errinfo := rfl
@[simp] theorem State.advanceHost_ndim : s.advanceHost.ndim = s.ndim := rfl
@[simp] theorem State.advanceHost_operand : s.advanceHost.operand = s.operand := rfl
@[simp] theorem State.advanceHost_inLen : s.advanceHost.inLen = s.inLen := rfl
@[simp] theorem State.advanceHost_outLen : s.advanceHost.outLen = s.outLen := rfl
@[simp] theorem State.advanceHost_resScalar : s.advanceHost.resScalar = s.resScalar := rfl
@[simp] theorem State.advanceHost_resDetmod : s.advanceHost.resDetmod = s.resDetmod := rfl
@[simp] theorem State.advanceHost_resPos : s.advanceHost.resPos = s.resPos := rfl
@[simp] theorem State.advanceHost_resPair : s.advanceHost.resPair = s.resPair := rfl
@[simp] theorem State.advanceHost_key : s.advanceHost.key = s.key := rfl
@[simp] theorem State.advanceHost_rmat : s.advanceHost.rmat = s.rmat := rfl
@[simp] theorem State.advanceHost_vec : s.advanceHost.vec = s.vec := rfl
@[simp] theorem State.advanceHost_rvec : s.advanceHost.rvec = s.rvec := rfl
@[simp] theorem State.advanceHost_inBuf : s.advanceHost.inBuf = s.inBuf := rfl
@[simp] theorem State.advanceHost_outBuf : s.advanceHost.outBuf = s.outBuf := rfl
@[simp] theorem State.advanceHost_host : s.advanceHost.host = { s.host with position := s.host.position + 1 } := rfl
@[simp] theorem State.advanceHost_turns : s.advanceHost.turns = s.turns := rfl
@[simp] theorem State.advanceHost_draws : s.advanceHost.draws = s.draws := rfl

/-! ### jumpHost -/

@[simp] theorem State.jumpHost_build (p : Nat) : (s.jumpHost p).build = s.build := rfl
@[simp] theorem State.jumpHost_rst (p : Nat) : (s.jumpHost p).rst = s.rst := rfl
@[simp] theorem State.jumpHost_ie (p : Nat) : (s.jumpHost p).ie = s.ie := rfl
@[simp] theorem State.jumpHost_seq (p : Nat) : (s.jumpHost p).seq = s.seq := rfl
@[simp] theorem State.jumpHost_done (p : Nat) : (s.jumpHost p).done = s.done := rfl
@[simp] theorem State.jumpHost_wbusy (p : Nat) : (s.jumpHost p).wbusy = s.wbusy := rfl
@[simp] theorem State.jumpHost_errcode (p : Nat) : (s.jumpHost p).errcode = s.errcode := rfl
@[simp] theorem State.jumpHost_errinfo (p : Nat) : (s.jumpHost p).errinfo = s.errinfo := rfl
@[simp] theorem State.jumpHost_ndim (p : Nat) : (s.jumpHost p).ndim = s.ndim := rfl
@[simp] theorem State.jumpHost_operand (p : Nat) : (s.jumpHost p).operand = s.operand := rfl
@[simp] theorem State.jumpHost_inLen (p : Nat) : (s.jumpHost p).inLen = s.inLen := rfl
@[simp] theorem State.jumpHost_outLen (p : Nat) : (s.jumpHost p).outLen = s.outLen := rfl
@[simp] theorem State.jumpHost_resScalar (p : Nat) : (s.jumpHost p).resScalar = s.resScalar := rfl
@[simp] theorem State.jumpHost_resDetmod (p : Nat) : (s.jumpHost p).resDetmod = s.resDetmod := rfl
@[simp] theorem State.jumpHost_resPos (p : Nat) : (s.jumpHost p).resPos = s.resPos := rfl
@[simp] theorem State.jumpHost_resPair (p : Nat) : (s.jumpHost p).resPair = s.resPair := rfl
@[simp] theorem State.jumpHost_key (p : Nat) : (s.jumpHost p).key = s.key := rfl
@[simp] theorem State.jumpHost_rmat (p : Nat) : (s.jumpHost p).rmat = s.rmat := rfl
@[simp] theorem State.jumpHost_vec (p : Nat) : (s.jumpHost p).vec = s.vec := rfl
@[simp] theorem State.jumpHost_rvec (p : Nat) : (s.jumpHost p).rvec = s.rvec := rfl
@[simp] theorem State.jumpHost_inBuf (p : Nat) : (s.jumpHost p).inBuf = s.inBuf := rfl
@[simp] theorem State.jumpHost_outBuf (p : Nat) : (s.jumpHost p).outBuf = s.outBuf := rfl
@[simp] theorem State.jumpHost_host (p : Nat) : (s.jumpHost p).host = { s.host with position := p } := rfl
@[simp] theorem State.jumpHost_turns (p : Nat) : (s.jumpHost p).turns = s.turns := rfl
@[simp] theorem State.jumpHost_draws (p : Nat) : (s.jumpHost p).draws = s.draws := rfl

/-! ### receive -/

@[simp] theorem State.receive_eq (x : Nat) (v : Word) : s.receive x v = s.setName x (v.toNat : Int) := rfl

/-! ### setName -/

@[simp] theorem State.setName_build (x : Nat) (v : Int) : (s.setName x v).build = s.build := rfl
@[simp] theorem State.setName_rst (x : Nat) (v : Int) : (s.setName x v).rst = s.rst := rfl
@[simp] theorem State.setName_ie (x : Nat) (v : Int) : (s.setName x v).ie = s.ie := rfl
@[simp] theorem State.setName_seq (x : Nat) (v : Int) : (s.setName x v).seq = s.seq := rfl
@[simp] theorem State.setName_done (x : Nat) (v : Int) : (s.setName x v).done = s.done := rfl
@[simp] theorem State.setName_wbusy (x : Nat) (v : Int) : (s.setName x v).wbusy = s.wbusy := rfl
@[simp] theorem State.setName_errcode (x : Nat) (v : Int) : (s.setName x v).errcode = s.errcode := rfl
@[simp] theorem State.setName_errinfo (x : Nat) (v : Int) : (s.setName x v).errinfo = s.errinfo := rfl
@[simp] theorem State.setName_ndim (x : Nat) (v : Int) : (s.setName x v).ndim = s.ndim := rfl
@[simp] theorem State.setName_operand (x : Nat) (v : Int) : (s.setName x v).operand = s.operand := rfl
@[simp] theorem State.setName_inLen (x : Nat) (v : Int) : (s.setName x v).inLen = s.inLen := rfl
@[simp] theorem State.setName_outLen (x : Nat) (v : Int) : (s.setName x v).outLen = s.outLen := rfl
@[simp] theorem State.setName_resScalar (x : Nat) (v : Int) : (s.setName x v).resScalar = s.resScalar := rfl
@[simp] theorem State.setName_resDetmod (x : Nat) (v : Int) : (s.setName x v).resDetmod = s.resDetmod := rfl
@[simp] theorem State.setName_resPos (x : Nat) (v : Int) : (s.setName x v).resPos = s.resPos := rfl
@[simp] theorem State.setName_resPair (x : Nat) (v : Int) : (s.setName x v).resPair = s.resPair := rfl
@[simp] theorem State.setName_key (x : Nat) (v : Int) : (s.setName x v).key = s.key := rfl
@[simp] theorem State.setName_rmat (x : Nat) (v : Int) : (s.setName x v).rmat = s.rmat := rfl
@[simp] theorem State.setName_vec (x : Nat) (v : Int) : (s.setName x v).vec = s.vec := rfl
@[simp] theorem State.setName_rvec (x : Nat) (v : Int) : (s.setName x v).rvec = s.rvec := rfl
@[simp] theorem State.setName_inBuf (x : Nat) (v : Int) : (s.setName x v).inBuf = s.inBuf := rfl
@[simp] theorem State.setName_outBuf (x : Nat) (v : Int) : (s.setName x v).outBuf = s.outBuf := rfl
@[simp] theorem State.setName_host (x : Nat) (v : Int) : (s.setName x v).host = { s.host with names := s.host.names.write x v } := rfl
@[simp] theorem State.setName_turns (x : Nat) (v : Int) : (s.setName x v).turns = s.turns := rfl
@[simp] theorem State.setName_draws (x : Nat) (v : Int) : (s.setName x v).draws = s.draws := rfl

/-! ### resetCore -/

@[simp] theorem State.resetCore_build : s.resetCore.build = s.build := rfl
@[simp] theorem State.resetCore_rst : s.resetCore.rst = s.rst := rfl
@[simp] theorem State.resetCore_ie : s.resetCore.ie = false := rfl
@[simp] theorem State.resetCore_seq : s.resetCore.seq = .idle := rfl
@[simp] theorem State.resetCore_done : s.resetCore.done = false := rfl
@[simp] theorem State.resetCore_wbusy : s.resetCore.wbusy = false := rfl
@[simp] theorem State.resetCore_errcode : s.resetCore.errcode = 0 := rfl
@[simp] theorem State.resetCore_errinfo : s.resetCore.errinfo = 0 := rfl
@[simp] theorem State.resetCore_ndim : s.resetCore.ndim = 0 := rfl
@[simp] theorem State.resetCore_operand : s.resetCore.operand = 0 := rfl
@[simp] theorem State.resetCore_inLen : s.resetCore.inLen = 0 := rfl
@[simp] theorem State.resetCore_outLen : s.resetCore.outLen = 0 := rfl
@[simp] theorem State.resetCore_resScalar : s.resetCore.resScalar = 0 := rfl
@[simp] theorem State.resetCore_resDetmod : s.resetCore.resDetmod = 0 := rfl
@[simp] theorem State.resetCore_resPos : s.resetCore.resPos = 0 := rfl
@[simp] theorem State.resetCore_resPair : s.resetCore.resPair = 0 := rfl
@[simp] theorem State.resetCore_key : s.resetCore.key = [] := rfl
@[simp] theorem State.resetCore_rmat : s.resetCore.rmat = [] := rfl
@[simp] theorem State.resetCore_vec : s.resetCore.vec = [] := rfl
@[simp] theorem State.resetCore_rvec : s.resetCore.rvec = [] := rfl
@[simp] theorem State.resetCore_inBuf : s.resetCore.inBuf = [] := rfl
@[simp] theorem State.resetCore_outBuf : s.resetCore.outBuf = [] := rfl
@[simp] theorem State.resetCore_host : s.resetCore.host = s.host := rfl
@[simp] theorem State.resetCore_turns : s.resetCore.turns = s.turns := rfl
@[simp] theorem State.resetCore_draws : s.resetCore.draws = s.draws := rfl

/-! ### withResults -/

@[simp] theorem State.withResults_build (r : Results) : (s.withResults r).build = s.build := rfl
@[simp] theorem State.withResults_rst (r : Results) : (s.withResults r).rst = s.rst := rfl
@[simp] theorem State.withResults_ie (r : Results) : (s.withResults r).ie = s.ie := rfl
@[simp] theorem State.withResults_seq (r : Results) : (s.withResults r).seq = s.seq := rfl
@[simp] theorem State.withResults_done (r : Results) : (s.withResults r).done = s.done := rfl
@[simp] theorem State.withResults_wbusy (r : Results) : (s.withResults r).wbusy = s.wbusy := rfl
@[simp] theorem State.withResults_errcode (r : Results) : (s.withResults r).errcode = s.errcode := rfl
@[simp] theorem State.withResults_errinfo (r : Results) : (s.withResults r).errinfo = s.errinfo := rfl
@[simp] theorem State.withResults_ndim (r : Results) : (s.withResults r).ndim = s.ndim := rfl
@[simp] theorem State.withResults_operand (r : Results) : (s.withResults r).operand = s.operand := rfl
@[simp] theorem State.withResults_inLen (r : Results) : (s.withResults r).inLen = s.inLen := rfl
@[simp] theorem State.withResults_outLen (r : Results) : (s.withResults r).outLen = r.outLen := rfl
@[simp] theorem State.withResults_resScalar (r : Results) : (s.withResults r).resScalar = r.resScalar := rfl
@[simp] theorem State.withResults_resDetmod (r : Results) : (s.withResults r).resDetmod = r.resDetmod := rfl
@[simp] theorem State.withResults_resPos (r : Results) : (s.withResults r).resPos = r.resPos := rfl
@[simp] theorem State.withResults_resPair (r : Results) : (s.withResults r).resPair = r.resPair := rfl
@[simp] theorem State.withResults_key (r : Results) : (s.withResults r).key = s.key := rfl
@[simp] theorem State.withResults_rmat (r : Results) : (s.withResults r).rmat = r.rmat := rfl
@[simp] theorem State.withResults_vec (r : Results) : (s.withResults r).vec = s.vec := rfl
@[simp] theorem State.withResults_rvec (r : Results) : (s.withResults r).rvec = r.rvec := rfl
@[simp] theorem State.withResults_inBuf (r : Results) : (s.withResults r).inBuf = s.inBuf := rfl
@[simp] theorem State.withResults_outBuf (r : Results) : (s.withResults r).outBuf = r.outBuf := rfl
@[simp] theorem State.withResults_host (r : Results) : (s.withResults r).host = s.host := rfl
@[simp] theorem State.withResults_turns (r : Results) : (s.withResults r).turns = s.turns := rfl
@[simp] theorem State.withResults_draws (r : Results) : (s.withResults r).draws = s.draws := rfl

@[simp] theorem State.results_withResults (r : Results) : (s.withResults r).results = r := rfl
@[simp] theorem State.withResults_results : s.withResults s.results = s := rfl

/-! ### What the updates do to the computed views -/

@[simp] theorem State.finish_busy (c : BitVec 4) (x : Half) : (s.finish c x).busy = false := rfl
@[simp] theorem State.issue_busy (w : Word) : (s.issue w).busy = true := rfl
@[simp] theorem State.resetCore_busy : s.resetCore.busy = false := rfl
@[simp] theorem State.finish_irq (c : BitVec 4) (x : Half) : (s.finish c x).irq = s.ie := by simp [State.irq]
@[simp] theorem State.issue_irq (w : Word) : (s.issue w).irq = false := by simp [State.irq]
@[simp] theorem State.issue_latch (w : Word) : (s.issue w).latch = some w := rfl
@[simp] theorem State.finish_latch (c : BitVec 4) (x : Half) : (s.finish c x).latch = none := rfl

/-- A core is busy exactly when it holds a latched word. -/
theorem State.busy_iff_latch : s.busy = true ↔ ∃ w, s.latch = some w := by
  cases h : s.seq <;> simp [State.busy, State.latch, h]

/-- BUSY is the sequencer's phase. -/
theorem State.busy_iff_seq : s.busy = true ↔ ∃ w, s.seq = .busy w := by
  cases h : s.seq <;> simp [State.busy, h]

end Sys2Proof.Machine
end

