-- ==== Sys2Proof/Laws/Exec.lean ====
section
/-! SUPPORT. The commands' meanings, once: each is `conclude` of its checks and its result writes, and a
meaning that passes changes result registers alone. -/

namespace Sys2Proof.Machine

@[simp] theorem bind_ok_check {α β : Type} (a : α) (f : α → Check β) : (Except.ok a >>= f : Check β) = f a := rfl
@[simp] theorem bind_error_check {α β : Type} (e : Stop) (f : α → Check β) :
    (Except.error e >>= f : Check β) = .error e := rfl

/-- A piece of pseudocode that passes has passed its first check and the rest. -/
theorem bind_eq_ok {α β : Type} {x : Check α} {f : α → Check β} {b : β} (h : x >>= f = .ok b) :
    ∃ a, x = .ok a ∧ f a = .ok b := by
  cases x with
  | error e => cases h
  | ok a => exact ⟨a, rfl, h⟩

/-- Result writes change result registers alone. -/
theorem writeRmat_results (s : State) (n : Nat) (f : Nat → Nat → Word) :
    s.writeRmat n f = s.withResults { s.results with rmat := (s.writeRmat n f).rmat } := rfl

theorem writeRvec_results (s : State) (n : Nat) (f : Nat → Nat) :
    s.writeRvec n f = s.withResults { s.results with rvec := (s.writeRvec n f).rvec } := rfl

theorem writeOut_results (s : State) (t : List Byte) :
    s.writeOut t = s.withResults { s.results with
      outBuf := (s.writeOut t).outBuf, outLen := (s.writeOut t).outLen } := rfl

/-- Every meaning is `conclude` of checks that, when they pass, give a state that differs from `s` in result
registers alone. -/
theorem exec_eq_conclude (i : Instr) (s : State) :
    ∃ r : Check State, exec i s = conclude s r ∧ ∀ u, r = .ok u → ∃ q : Results, u = s.withResults q := by
  cases i with
  | nop => exact ⟨.ok s, rfl, fun u h => by cases h; exact ⟨s.results, rfl⟩⟩
  | det =>
    refine ⟨_, rfl, fun u h => ?_⟩
    obtain ⟨-, -, h⟩ := bind_eq_ok h
    cases h
    exact ⟨{ s.results with resScalar := _, resDetmod := _ }, rfl⟩
  | subm row col =>
    refine ⟨_, rfl, fun u h => ?_⟩
    obtain ⟨-, -, h⟩ := bind_eq_ok h
    obtain ⟨-, -, h⟩ := bind_eq_ok h
    cases h
    exact ⟨_, writeRmat_results s _ _⟩
  | cof row col =>
    refine ⟨_, rfl, fun u h => ?_⟩
    obtain ⟨-, -, h⟩ := bind_eq_ok h
    obtain ⟨-, -, h⟩ := bind_eq_ok h
    cases h
    exact ⟨{ s.results with resScalar := _ }, rfl⟩
  | adj =>
    refine ⟨_, rfl, fun u h => ?_⟩
    obtain ⟨-, -, h⟩ := bind_eq_ok h
    cases h
    exact ⟨_, writeRmat_results s _ _⟩
  | modinv =>
    refine ⟨_, rfl, fun u h => ?_⟩
    obtain ⟨k, -, h⟩ := bind_eq_ok h
    cases h
    exact ⟨{ s.results with resScalar := _ }, rfl⟩
  | invkey =>
    refine ⟨_, rfl, fun u h => ?_⟩
    obtain ⟨-, -, h⟩ := bind_eq_ok h
    obtain ⟨k, -, h⟩ := bind_eq_ok h
    cases h
    exact ⟨{ s.results with rmat := _, resScalar := _, resDetmod := _ }, rfl⟩
  | mvmul m =>
    refine ⟨_, rfl, fun u h => ?_⟩
    obtain ⟨A, -, h⟩ := bind_eq_ok h
    obtain ⟨-, -, h⟩ := bind_eq_ok h
    cases h
    exact ⟨_, writeRvec_results s _ _⟩
  | menc =>
    refine ⟨_, rfl, fun u h => ?_⟩
    obtain ⟨-, -, h⟩ := bind_eq_ok h
    obtain ⟨-, -, h⟩ := bind_eq_ok h
    obtain ⟨-, -, h⟩ := bind_eq_ok h
    cases h
    exact ⟨_, writeOut_results s _⟩
  | mdec =>
    refine ⟨_, rfl, fun u h => ?_⟩
    obtain ⟨-, -, h⟩ := bind_eq_ok h
    obtain ⟨-, -, h⟩ := bind_eq_ok h
    obtain ⟨k, -, h⟩ := bind_eq_ok h
    obtain ⟨-, -, h⟩ := bind_eq_ok h
    cases h
    exact ⟨_, writeOut_results s _⟩
  | findpos =>
    refine ⟨_, rfl, fun u h => ?_⟩
    obtain ⟨p, -, h⟩ := bind_eq_ok h
    cases h
    exact ⟨{ s.results with resPos := _ }, rfl⟩
  | dgrule m =>
    refine ⟨_, rfl, fun u h => ?_⟩
    obtain ⟨p1, -, h⟩ := bind_eq_ok h
    obtain ⟨p2, -, h⟩ := bind_eq_ok h
    cases h
    exact ⟨{ s.results with resPair := _, resPos := _ }, rfl⟩
  | norm =>
    refine ⟨_, rfl, fun u h => ?_⟩
    obtain ⟨-, -, h⟩ := bind_eq_ok h
    obtain ⟨-, -, h⟩ := bind_eq_ok h
    cases h
    exact ⟨_, writeOut_results s _⟩
  | denc =>
    refine ⟨_, rfl, fun u h => ?_⟩
    obtain ⟨-, -, h⟩ := bind_eq_ok h
    obtain ⟨-, -, h⟩ := bind_eq_ok h
    obtain ⟨t, -, h⟩ := bind_eq_ok h
    cases h
    exact ⟨_, writeOut_results s _⟩
  | ddec =>
    refine ⟨_, rfl, fun u h => ?_⟩
    obtain ⟨-, -, h⟩ := bind_eq_ok h
    obtain ⟨-, -, h⟩ := bind_eq_ok h
    obtain ⟨t, -, h⟩ := bind_eq_ok h
    cases h
    exact ⟨_, writeOut_results s _⟩

/-- No meaning is a refusal. -/
theorem exec_ne_refused (i : Instr) (s : State) (q : Refusal) : exec i s ≠ .refused q := by
  obtain ⟨r, h, -⟩ := exec_eq_conclude i s
  rw [h]
  exact conclude_ne_refused s r q

/-! ### The meanings on operands that pass their checks -/

theorem execDet_ready (s : State) (h : s.KeyReady) :
    execDet s = .next (State.finish { s with
      resScalar := intWord (det s.dim s.keyGrid)
      resDetmod := BitVec.ofNat 5 (mod26 (det s.dim s.keyGrid)) } 0 0) := by
  simp [execDet, (checkKey_ok_iff s).mpr h]

theorem execSubm_ready (s : State) (r c : Nat) (h : s.KeyReady) (hr : r < s.dim) (hc : c < s.dim) :
    execSubm r c s = .next ((s.writeRmat (s.dim - 1) fun i j => intWord (sub s.keyGrid r c i j)).finish 0 0) := by
  simp [execSubm, (checkKey_ok_iff s).mpr h, (checkIndex_ok_iff s r c).mpr ⟨hr, hc⟩]

theorem execCof_ready (s : State) (r c : Nat) (h : s.KeyReady) (hr : r < s.dim) (hc : c < s.dim) :
    execCof r c s = .next (State.finish { s with resScalar := intWord (cof s.dim s.keyGrid r c) } 0 0) := by
  simp [execCof, (checkKey_ok_iff s).mpr h, (checkIndex_ok_iff s r c).mpr ⟨hr, hc⟩]

theorem execAdj_ready (s : State) (h : s.KeyReady) :
    execAdj s = .next ((s.writeRmat s.dim fun i j => intWord (adj s.dim s.keyGrid i j)).finish 0 0) := by
  simp [execAdj, (checkKey_ok_iff s).mpr h]

theorem execInvkey_ready (s : State) (k : Nat) (h : s.KeyReady)
    (hk : modInverse (mod26 (det s.dim s.keyGrid)) = some k) :
    execInvkey s = .next (State.finish
      { s.writeRmat s.dim (fun i j => intWord (invKey s.dim k s.keyGrid i j)) with
        resScalar := intWord (det s.dim s.keyGrid)
        resDetmod := BitVec.ofNat 5 (mod26 (det s.dim s.keyGrid)) } 0 0) := by
  simp [execInvkey, (checkKey_ok_iff s).mpr h, requireInverse_some hk]

theorem execMenc_ready (s : State) (h : s.KeyReady) (hb : s.BlockReady) :
    execMenc s = .next ((s.writeOut (blockText s.dim (mvmod s.dim s.keyGrid s.blockAt))).finish 0 0) := by
  simp [execMenc, (checkKey_ok_iff s).mpr h, (checkBlock_ok_iff s).mpr hb.1, (checkLetters_ok_iff s).mpr hb.2]

theorem execMdec_ready (s : State) (k : Nat) (h : s.KeyReady) (hb : s.BlockReady)
    (hk : modInverse (mod26 (det s.dim s.keyGrid)) = some k) :
    execMdec s =
      .next ((s.writeOut (blockText s.dim (mvmod s.dim (invKey s.dim k s.keyGrid) s.blockAt))).finish 0 0) := by
  simp [execMdec, (checkKey_ok_iff s).mpr h, (checkBlock_ok_iff s).mpr hb.1, (checkLetters_ok_iff s).mpr hb.2,
    requireInverse_some hk]

theorem execNorm_ready (s : State) (h : s.TextReady) :
    execNorm s = .next ((s.writeOut (normalize s.text)).finish 0 0) := by
  simp [execNorm, (checkTextMax_ok_iff s).mpr h.1, (checkText_ok_iff s).mpr h.2]

/-! ### The digraph loop -/

/-- The digraph loop passes when every letter is read and found, and its output pairs are the substitutes. -/
theorem digraphs_ok (b : Build) (dir : Direction) (rd : Nat → Check Byte) (c : Nat → Byte) (p : Nat → Position)
    (q n : Nat) (hr : ∀ k, 2 * q ≤ k → k < 2 * (q + n) → rd k = .ok (c k))
    (hp : ∀ k, 2 * q ≤ k → k < 2 * (q + n) → pos b (c k) = some (p k)) :
    ∃ u, digraphs b dir rd q n = .ok u ∧ u.length = 2 * n
      ∧ ∀ x, x < n → u[2 * x]? = some (subst b (p (2 * (q + x))) (p (2 * (q + x) + 1)) dir).out1
          ∧ u[2 * x + 1]? = some (subst b (p (2 * (q + x))) (p (2 * (q + x) + 1)) dir).out2 := by
  induction n generalizing q with
  | zero => exact ⟨[], rfl, rfl, fun x hx => by omega⟩
  | succ n ih =>
    obtain ⟨u, hu, hl, hx⟩ := ih (q + 1) (fun k h1 h2 => hr k (by omega) (by omega))
      (fun k h1 h2 => hp k (by omega) (by omega))
    refine ⟨(subst b (p (2 * q)) (p (2 * q + 1)) dir).out1 :: (subst b (p (2 * q)) (p (2 * q + 1)) dir).out2 :: u,
      ?_, ?_, ?_⟩
    · have h0 : 2 * q < 2 * (q + (n + 1)) := by omega
      have h1 : 2 * q + 1 < 2 * (q + (n + 1)) := by omega
      simp only [digraphs, hr _ le_rfl h0, hr _ (Nat.le_succ _) h1, lookup_some (hp _ le_rfl h0),
        lookup_some (hp _ (Nat.le_succ _) h1), bind_ok_check, hu]
    · simp [hl]
      omega
    · intro x hxn
      cases x with
      | zero => simp
      | succ x =>
        obtain ⟨h1, h2⟩ := hx x (by omega)
        have e1 : 2 * (x + 1) = 2 * x + 1 + 1 := by ring
        have e2 : 2 * (q + 1 + x) = 2 * (q + (x + 1)) := by ring
        rw [e2] at h1 h2
        rw [e1]
        exact ⟨by simpa using h1, by simpa using h2⟩

/-- The digraph loop stops at the first letter that cannot be read or is not found. -/
theorem digraphs_error (b : Build) (dir : Direction) (rd : Nat → Check Byte) (c : Nat → Byte)
    (q n k : Nat) (e : Stop) (hk1 : 2 * q ≤ k) (hk2 : k < 2 * (q + n))
    (hr : ∀ x, 2 * q ≤ x → x < k → rd x = .ok (c x) ∧ ∃ p, pos b (c x) = some p)
    (he : rd k = .error e ∨ rd k = .ok (c k) ∧ pos b (c k) = none ∧ e = .raise .notFound (half k)) :
    digraphs b dir rd q n = .error e := by
  induction n generalizing q with
  | zero => omega
  | succ n ih =>
    simp only [digraphs]
    rcases Nat.lt_or_ge (2 * q) k with hlt | hge
    · obtain ⟨h0, p0, hp0⟩ := hr (2 * q) (by omega) hlt
      rw [h0, bind_ok_check, lookup_some hp0, bind_ok_check]
      rcases Nat.lt_or_ge (2 * q + 1) k with hlt1 | hge1
      · obtain ⟨h1, p1, hp1⟩ := hr (2 * q + 1) (by omega) hlt1
        rw [h1, bind_ok_check, lookup_some hp1, bind_ok_check]
        rw [ih (q + 1) (by omega) (by omega) fun x hx1 hx2 => hr x (by omega) hx2]
        rfl
      · have hkq : k = 2 * q + 1 := by omega
        subst hkq
        rcases he with he | ⟨h1, h2, rfl⟩
        · rw [he]; rfl
        · rw [h1, bind_ok_check, lookup_none h2]; rfl
    · have hkq : k = 2 * q := by omega
      subst hkq
      rcases he with he | ⟨h1, h2, rfl⟩
      · rw [he]; rfl
      · rw [h1, bind_ok_check, lookup_none h2]; rfl

/-! ### The one fault of a meaning -/

/-- The only fault a piece of pseudocode stops with is UNWRITTEN_OPERAND. -/
def FaultsUnwritten {α : Type} (r : Check α) : Prop := ∀ f, r = .error (.fault f) → f = .unwrittenOperand

theorem FaultsUnwritten.ok {α : Type} (a : α) : FaultsUnwritten (.ok a) := fun _ h => by cases h
theorem FaultsUnwritten.raise {α : Type} (e x) : FaultsUnwritten (.error (.raise e x) : Check α) := fun _ h => by cases h
theorem FaultsUnwritten.bind {α β : Type} {x : Check α} {f : α → Check β} (h : FaultsUnwritten x)
    (hf : ∀ a, FaultsUnwritten (f a)) : FaultsUnwritten (x >>= f) := by
  intro g hg
  cases x with
  | error e => exact h g (by cases hg; rfl)
  | ok a => exact hf a g hg
theorem FaultsUnwritten.require (p e x) : FaultsUnwritten (require p e x) := by
  cases p
  · exact FaultsUnwritten.raise _ _
  · exact FaultsUnwritten.ok _
theorem FaultsUnwritten.written {α : Type} (v : Option α) : FaultsUnwritten (written v) := by
  cases v
  · intro f h; cases h; rfl
  · exact FaultsUnwritten.ok _
theorem FaultsUnwritten.map {α β : Type} {x : Check α} {f : α → β} (h : FaultsUnwritten x) : FaultsUnwritten (x.map f) := by
  intro g hg
  cases x with
  | error e => exact h g (by cases hg; rfl)
  | ok a => cases hg
theorem FaultsUnwritten.scan {f : Nat → Check Unit} (hf : ∀ k, FaultsUnwritten (f k)) (a n : Nat) : FaultsUnwritten (scan f a n) := by
  intro g hg
  rw [scan_error_iff] at hg
  obtain ⟨x, -, -, h, -⟩ := hg
  exact hf x g h
theorem FaultsUnwritten.lookup (b c i) : FaultsUnwritten (lookup b c i) := by
  unfold Machine.lookup
  split
  · exact FaultsUnwritten.ok _
  · exact FaultsUnwritten.raise _ _
theorem FaultsUnwritten.requireInverse (r) : FaultsUnwritten (requireInverse r) := by
  unfold Machine.requireInverse
  split
  · exact FaultsUnwritten.ok _
  · exact FaultsUnwritten.raise _ _
theorem FaultsUnwritten.digraphs (b d) {rd : Nat → Check Byte} (h : ∀ k, FaultsUnwritten (rd k)) (q n : Nat) :
    FaultsUnwritten (digraphs b d rd q n) := by
  induction n generalizing q with
  | zero => exact FaultsUnwritten.ok _
  | succ n ih =>
    exact (h _).bind fun _ => (FaultsUnwritten.lookup _ _ _).bind fun _ => (h _).bind fun _ =>
      (FaultsUnwritten.lookup _ _ _).bind fun _ => (ih _).bind fun _ => FaultsUnwritten.ok _

theorem FaultsUnwritten.checkKey (s) : FaultsUnwritten (checkKey s) :=
  (FaultsUnwritten.require _ _ _).bind fun _ => FaultsUnwritten.scan (fun _ => FaultsUnwritten.scan (fun _ =>
    (FaultsUnwritten.written _).bind fun _ => FaultsUnwritten.require _ _ _) _ _) _ _

/-- The only fault of a meaning is UNWRITTEN_OPERAND. -/
theorem exec_fault {i : Instr} {s : State} {f : Fault} (h : exec i s = .fault f) : f = .unwrittenOperand := by
  have hc : ∀ r : Check State, FaultsUnwritten r → conclude s r = .fault f → f = .unwrittenOperand := by
    intro r hr h
    rcases r with ⟨e, x⟩ | u
    · cases h
    · cases h; exact hr _ rfl
    · cases h
  cases i with
  | nop => exact hc _ (.ok _) h
  | det => exact hc _ ((FaultsUnwritten.checkKey s).bind fun _ => .ok _) h
  | subm => exact hc _ ((FaultsUnwritten.checkKey s).bind fun _ => (FaultsUnwritten.require _ _ _).bind fun _ => .ok _) h
  | cof => exact hc _ ((FaultsUnwritten.checkKey s).bind fun _ => (FaultsUnwritten.require _ _ _).bind fun _ => .ok _) h
  | adj => exact hc _ ((FaultsUnwritten.checkKey s).bind fun _ => .ok _) h
  | modinv => exact hc _ ((FaultsUnwritten.requireInverse _).bind fun _ => .ok _) h
  | invkey => exact hc _ ((FaultsUnwritten.checkKey s).bind fun _ => (FaultsUnwritten.requireInverse _).bind fun _ => .ok _) h
  | mvmul m =>
    refine hc _ (FaultsUnwritten.bind ?_ fun _ => (FaultsUnwritten.scan (fun _ =>
      (FaultsUnwritten.written _).bind fun _ => FaultsUnwritten.require _ _ _) _ _).bind fun _ => .ok _) h
    cases m
    · exact (FaultsUnwritten.checkKey s).bind fun _ => .ok _
    · exact (FaultsUnwritten.require _ _ _).bind fun _ => (FaultsUnwritten.scan (fun _ => FaultsUnwritten.scan (fun _ =>
        (FaultsUnwritten.written _).map) _ _) _ _).bind fun _ => .ok _
  | menc =>
    exact hc _ ((FaultsUnwritten.checkKey s).bind fun _ => (FaultsUnwritten.require _ _ _).bind fun _ =>
      (FaultsUnwritten.scan (fun _ => (FaultsUnwritten.written _).bind fun _ => FaultsUnwritten.require _ _ _) _ _).bind fun _ => .ok _) h
  | mdec =>
    exact hc _ ((FaultsUnwritten.checkKey s).bind fun _ => (FaultsUnwritten.require _ _ _).bind fun _ => (FaultsUnwritten.requireInverse _).bind fun _ =>
      (FaultsUnwritten.scan (fun _ => (FaultsUnwritten.written _).bind fun _ => FaultsUnwritten.require _ _ _) _ _).bind fun _ => .ok _) h
  | findpos => exact hc _ ((FaultsUnwritten.lookup _ _ _).bind fun _ => .ok _) h
  | dgrule => exact hc _ ((FaultsUnwritten.lookup _ _ _).bind fun _ => (FaultsUnwritten.lookup _ _ _).bind fun _ => .ok _) h
  | norm => exact hc _ ((FaultsUnwritten.require _ _ _).bind fun _ => (FaultsUnwritten.scan (fun _ => (FaultsUnwritten.written _).map) _ _).bind fun _ => .ok _) h
  | denc => exact hc _ ((FaultsUnwritten.require _ _ _).bind fun _ => (FaultsUnwritten.scan (fun _ => (FaultsUnwritten.written _).map) _ _).bind fun _ =>
      (FaultsUnwritten.digraphs _ _ (fun _ => .ok _) _ _).bind fun _ => .ok _) h
  | ddec => exact hc _ ((FaultsUnwritten.require _ _ _).bind fun _ => (FaultsUnwritten.require _ _ _).bind fun _ =>
      (FaultsUnwritten.digraphs _ _ (fun _ => FaultsUnwritten.written _) _ _).bind fun _ => .ok _) h

end Sys2Proof.Machine
end

