-- ==== Sys2Proof/Laws/Memory.lean ====
section
/-! SUPPORT. Storage: a read after a write, and the canonical form. One lemma for each operation says
everything it does. -/

namespace Sys2Proof.Machine

variable {α : Type}

@[simp] theorem Memory.read_nil (a : Nat) : Memory.read ([] : Memory α) a = none := rfl

/-- A write is seen at its index and nowhere else, whatever the list's form. -/
theorem Memory.read_write (m : Memory α) (a b : Nat) (v : α) :
    (m.write a v).read b = if b = a then some v else m.read b := by
  induction m with
  | nil =>
    by_cases h : b = a
    · simp [Memory.write, Memory.read, h]
    · have ha : ¬ a = b := fun e => h e.symm
      simp [Memory.write, Memory.read, h, ha]
  | cons e m ih =>
    obtain ⟨k, x⟩ := e
    simp only [Memory.write]
    by_cases h : b = a
    · subst h
      rw [if_pos rfl]
      split_ifs with h1 h2
      · simp [Memory.read]
      · simp [Memory.read]
      · have hk : ¬ k = b := fun e => h2 e.symm
        simp only [Memory.read, if_neg hk, ih, if_true]
    · have ha : ¬ a = b := fun e => h e.symm
      rw [if_neg h]
      split_ifs with h1 h2
      · simp [Memory.read, ha]
      · subst h2
        simp [Memory.read, ha]
      · simp only [Memory.read, ih, if_neg h]

@[simp] theorem Memory.read_write_same (m : Memory α) (a : Nat) (v : α) : (m.write a v).read a = some v := by
  simp [Memory.read_write]

theorem Memory.read_write_other (m : Memory α) {a b : Nat} (v : α) (h : b ≠ a) :
    (m.write a v).read b = m.read b := by
  simp [Memory.read_write, h]

/-- A range of writes is seen in the range and nowhere else. -/
theorem Memory.read_writeRange (m : Memory α) (base n : Nat) (f : Nat → α) (b : Nat) :
    (m.writeRange base n f).read b = if base ≤ b ∧ b < base + n then some (f (b - base)) else m.read b := by
  induction n with
  | zero =>
    rw [if_neg (by omega)]
    rfl
  | succ n ih =>
    rw [Memory.writeRange, Memory.read_write, ih]
    by_cases h : b = base + n
    · subst h
      simp
    · have : (base ≤ b ∧ b < base + (n + 1)) ↔ (base ≤ b ∧ b < base + n) := by omega
      simp [h, this]

/-- A block of writes is seen in the block and nowhere else (rows are at most 8 entries wide). -/
theorem Memory.read_writeBlock (m : Memory α) (rows cols : Nat) (f : Nat → Nat → α) (b : Nat) (hc : cols ≤ 8) :
    (m.writeBlock rows cols f).read b
      = if b / 8 < rows ∧ b % 8 < cols then some (f (b / 8) (b % 8)) else m.read b := by
  induction rows with
  | zero => simp [Memory.writeBlock]
  | succ i ih =>
    rw [Memory.writeBlock, Memory.read_writeRange, ih]
    have he : entryIndex i 0 = 8 * i := rfl
    by_cases h : entryIndex i 0 ≤ b ∧ b < entryIndex i 0 + cols
    · have h1 : b / 8 = i := by omega
      have h2 : b - entryIndex i 0 = b % 8 := by omega
      have h3 : b / 8 < i + 1 ∧ b % 8 < cols := by omega
      rw [if_pos h, if_pos h3, h1, h2]
    · rw [if_neg h]
      have : (b / 8 < i + 1 ∧ b % 8 < cols) ↔ (b / 8 < i ∧ b % 8 < cols) := by omega
      simp only [this]

/-- The canonical form, said with a lower bound. -/
theorem Memory.wf_cons (k : Nat) (x : α) (m : Memory α) :
    Memory.wf ((k, x) :: m) = Memory.risingFrom k m := rfl

theorem Memory.wf_of_risingFrom {a : Nat} {m : Memory α} (h : m.risingFrom a = true) : m.wf = true := by
  cases m with
  | nil => rfl
  | cons e m =>
    simp only [Memory.risingFrom, Bool.and_eq_true] at h
    exact h.2

theorem Memory.risingFrom_write {a b : Nat} (m : Memory α) (v : α) (h : m.risingFrom a = true) (hb : a < b) :
    (m.write b v).risingFrom a = true := by
  induction m generalizing a with
  | nil => simp [Memory.write, Memory.risingFrom, hb]
  | cons e m ih =>
    obtain ⟨k, x⟩ := e
    simp only [Memory.risingFrom, Bool.and_eq_true, decide_eq_true_eq] at h
    simp only [Memory.write]
    split_ifs with h1 h2
    · simp [Memory.risingFrom, hb, h1, h.2]
    · subst h2
      simp [Memory.risingFrom, h.1, h.2]
    · simp only [Memory.risingFrom, Bool.and_eq_true, decide_eq_true_eq]
      exact ⟨h.1, ih h.2 (by omega)⟩

/-- A write keeps the canonical form. -/
theorem Memory.wf_write (m : Memory α) (b : Nat) (v : α) (h : m.wf = true) : (m.write b v).wf = true := by
  cases m with
  | nil => rfl
  | cons e m =>
    obtain ⟨k, x⟩ := e
    rw [Memory.wf_cons] at h
    simp only [Memory.write]
    split_ifs with h1 h2
    · simp [Memory.wf, Memory.risingFrom, h1, h]
    · subst h2
      simpa [Memory.wf] using h
    · rw [Memory.wf_cons]
      exact Memory.risingFrom_write m v h (by omega)

/-- A range of writes keeps the canonical form. -/
theorem Memory.wf_writeRange (m : Memory α) (base n : Nat) (f : Nat → α) (h : m.wf = true) :
    (m.writeRange base n f).wf = true := by
  induction n with
  | zero => exact h
  | succ n ih => exact Memory.wf_write _ _ _ ih

/-- A block of writes keeps the canonical form. -/
theorem Memory.wf_writeBlock (m : Memory α) (rows cols : Nat) (f : Nat → Nat → α) (h : m.wf = true) :
    (m.writeBlock rows cols f).wf = true := by
  induction rows with
  | zero => exact h
  | succ i ih => exact Memory.wf_writeRange _ _ _ _ ih

/-- Every entry of a written list satisfies what the old entries and the new one satisfy. -/
theorem Memory.all_write (p : Nat × α → Bool) (m : Memory α) (a : Nat) (v : α) (h : m.all p = true)
    (hv : p (a, v) = true) : (m.write a v).all p = true := by
  induction m with
  | nil => simp [Memory.write, hv]
  | cons e m ih =>
    obtain ⟨k, x⟩ := e
    simp only [List.all_cons, Bool.and_eq_true] at h
    simp only [Memory.write]
    split_ifs <;> simp [h.1, h.2, hv, ih h.2]

theorem Memory.all_writeRange (p : Nat × α → Bool) (m : Memory α) (base n : Nat) (f : Nat → α)
    (h : m.all p = true) (hv : ∀ k, k < n → p (base + k, f k) = true) :
    (m.writeRange base n f).all p = true := by
  induction n with
  | zero => exact h
  | succ n ih => exact Memory.all_write _ _ _ _ (ih fun k hk => hv k (by omega)) (hv n (by omega))

theorem Memory.all_writeBlock (p : Nat × α → Bool) (m : Memory α) (rows cols : Nat) (f : Nat → Nat → α)
    (h : m.all p = true) (hv : ∀ i, i < rows → ∀ j, j < cols → p (entryIndex i j, f i j) = true) :
    (m.writeBlock rows cols f).all p = true := by
  induction rows with
  | zero => exact h
  | succ i ih =>
    refine Memory.all_writeRange _ _ _ _ _ (ih fun i' hi => hv i' (by omega)) fun j hj => ?_
    exact hv i (by omega) j hj

/-- A value that is read stands in the list. -/
theorem Memory.mem_of_read {m : Memory α} {a : Nat} {v : α} (h : m.read a = some v) : (a, v) ∈ m := by
  induction m with
  | nil => simp at h
  | cons e m ih =>
    obtain ⟨k, x⟩ := e
    simp only [Memory.read] at h
    split_ifs at h with hk
    · simp_all
    · simp [ih h]

/-- In a canonical list the entries are what reads give. -/
theorem Memory.read_of_mem_rising {m : Memory α} {a k : Nat} {v : α} (h : m.risingFrom k = true)
    (hm : (a, v) ∈ m) : k < a ∧ m.read a = some v := by
  induction m generalizing k with
  | nil => simp at hm
  | cons e m ih =>
    obtain ⟨b, x⟩ := e
    simp only [Memory.risingFrom, Bool.and_eq_true, decide_eq_true_eq] at h
    rcases List.mem_cons.mp hm with heq | hm'
    · cases heq
      exact ⟨h.1, by simp [Memory.read]⟩
    · obtain ⟨h1, h2⟩ := ih h.2 hm'
      refine ⟨by omega, ?_⟩
      have : b ≠ a := by omega
      simp [Memory.read, this, h2]

end Sys2Proof.Machine
end

