-- ==== Sys2Proof/Laws/Step.lean ====
section
/-! SUPPORT. What a step can do, said once: a host operation, a host turn, a turn of the schedule, a step.
Later proofs cite these case lemmas and do not unfold the functions. -/

namespace Sys2Proof.Machine

/-- An offset of an accepted access. -/
def Aligned (o : Nat) : Prop := o < 0x4000 ∧ o % 4 = 0

/-- An access is accepted only out of reset, in the window, with width 4 and alignment. -/
theorem accessOffset_ok {s : State} {width : Nat} {off : Int} {o : Nat} (h : accessOffset s width off = .ok o) :
    s.rst = false ∧ Aligned o ∧ width = 4 ∧ (o : Int) = off := by
  unfold accessOffset at h
  cases hr : s.rst with
  | true => simp [hr] at h
  | false =>
    simp only [hr, Bool.false_eq_true, if_false] at h
    unfold windowOffset hostAddress at h
    split_ifs at h with hw
    · simp only at h
      split_ifs at h with hc
      cases h
      refine ⟨rfl, ⟨?_, hc.2⟩, hc.1, ?_⟩ <;> omega

/-- Everything one host operation can do. -/
theorem hostOp_cases (op : HostOp) (s : State) :
    (∃ h, hostOp op s = { s with host := h })
      ∨ (∃ o h, s.rst = false ∧ Aligned o ∧ hostOp op s = { (busRead o s).2 with host := h })
      ∨ ∃ o v h, s.rst = false ∧ Aligned o ∧ hostOp op s = { busWrite o v s with host := h } := by
  have hread : ∀ {width off v t}, hostRead s width off = .ok (v, t) →
      ∃ o, s.rst = false ∧ Aligned o ∧ t = (busRead o s).2 := by
    intro width off v t h
    unfold hostRead at h
    split at h
    · rename_i o ho
      obtain ⟨h1, h2, -, -⟩ := accessOffset_ok ho
      cases h
      exact ⟨o, h1, h2, rfl⟩
    · cases h
  have hwrite : ∀ {width off v t}, hostWrite s width off v = .ok t →
      ∃ o, s.rst = false ∧ Aligned o ∧ t = busWrite o v s := by
    intro width off v t h
    unfold hostWrite at h
    split at h
    · rename_i o ho
      obtain ⟨h1, h2, -, -⟩ := accessOffset_ok ho
      cases h
      exact ⟨o, h1, h2, rfl⟩
    · cases h
  cases op with
  | read width off x =>
    simp only [hostOp]
    split
    · exact .inl ⟨_, rfl⟩
    · rename_i h
      obtain ⟨o, h1, h2, rfl⟩ := hread h
      exact .inr (.inl ⟨o, _, h1, h2, rfl⟩)
  | write width off e =>
    simp only [hostOp]
    split
    · exact .inl ⟨_, rfl⟩
    · rename_i h
      obtain ⟨o, h1, h2, rfl⟩ := hwrite h
      exact .inr (.inr ⟨o, _, _, h1, h2, rfl⟩)
  | poll x =>
    simp only [hostOp]
    split
    · exact .inl ⟨_, rfl⟩
    · rename_i h
      obtain ⟨o, h1, h2, rfl⟩ := hread h
      split_ifs <;> exact .inr (.inl ⟨o, _, h1, h2, rfl⟩)
  | assign x e => exact .inl ⟨_, rfl⟩
  | branch rel a b p =>
    simp only [hostOp]
    split_ifs <;> exact .inl ⟨_, rfl⟩
  | goto p => exact .inl ⟨_, rfl⟩

/-- Everything a host turn can do. -/
theorem hostStep_cases (s : State) :
    (∃ h, hostStep s = { s with host := h })
      ∨ (∃ o h, s.rst = false ∧ Aligned o ∧ hostStep s = { (busRead o s).2 with host := h })
      ∨ ∃ o v h, s.rst = false ∧ Aligned o ∧ hostStep s = { busWrite o v s with host := h } := by
  unfold hostStep
  split
  · exact .inl ⟨s.host, rfl⟩
  · split
    · exact .inl ⟨s.host, rfl⟩
    · exact hostOp_cases _ s

/-- A read uses up draws and nothing else. -/
theorem busRead_state (o : Nat) (s : State) :
    (busRead o s).2 = { s with draws := s.draws + (regRead s (regAt s.build o)).used } := rfl

/-- Everything a host write can do. -/
theorem regWrite_cases (s : State) (r : Reg) (v : Word) :
    regWrite s r v = s ∨ regWrite s r v = s.writeCtrl v ∨ regWrite s r v = s.writeStatus v
      ∨ regWrite s r v = s.issue v
      ∨ ∃ (nd : BitVec 3) (op : Word) (il : Half) (k ve : Memory (BitVec 5)) (ib : Memory Byte),
          regWrite s r v = { s with ndim := nd, operand := op, inLen := il, key := k, vec := ve, inBuf := ib } := by
  cases r <;> simp only [regWrite, true_or, or_true]
  case ndim => exact .inr (.inr (.inr (.inr ⟨_, s.operand, s.inLen, s.key, s.vec, s.inBuf, rfl⟩)))
  case operand => exact .inr (.inr (.inr (.inr ⟨s.ndim, _, s.inLen, s.key, s.vec, s.inBuf, rfl⟩)))
  case inLen => exact .inr (.inr (.inr (.inr ⟨s.ndim, s.operand, _, s.key, s.vec, s.inBuf, rfl⟩)))
  case key => exact .inr (.inr (.inr (.inr ⟨s.ndim, s.operand, s.inLen, _, s.vec, s.inBuf, rfl⟩)))
  case vec => exact .inr (.inr (.inr (.inr ⟨s.ndim, s.operand, s.inLen, s.key, _, s.inBuf, rfl⟩)))
  case inWord => exact .inr (.inr (.inr (.inr ⟨s.ndim, s.operand, s.inLen, s.key, s.vec, _, rfl⟩)))

/-- While BUSY = 1 a write changes IE, the clearable flags or WBUSY, and nothing else. -/
theorem regWriteBusy_cases (s : State) (r : Reg) (v : Word) :
    regWriteBusy s r v = s.writeCtrl v ∨ regWriteBusy s r v = s.writeStatus v
      ∨ regWriteBusy s r v = { s with wbusy := true } := by
  cases r <;> simp [regWriteBusy]

/-- One lemma for both phases: what a host write can do. -/
theorem busWrite_cases (o : Nat) (v : Word) (s : State) :
    (s.busy = true ∧ (busWrite o v s = s.writeCtrl v ∨ busWrite o v s = s.writeStatus v
      ∨ busWrite o v s = { s with wbusy := true }))
      ∨ (s.busy = false ∧ busWrite o v s = regWrite s (regAt s.build o) v) := by
  cases h : s.busy with
  | true => exact .inl ⟨rfl, by simpa [busWrite, h] using regWriteBusy_cases s (regAt s.build o) v⟩
  | false => exact .inr ⟨rfl, by simp [busWrite, h]⟩

/-- A host access leaves the build, rst, the schedule and the sequencer of a busy core alone. -/
theorem busWrite_frame (o : Nat) (v : Word) (s : State) :
    (busWrite o v s).build = s.build ∧ (busWrite o v s).rst = s.rst ∧ (busWrite o v s).turns = s.turns
      ∧ (busWrite o v s).results = s.results ∧ (busWrite o v s).draws = s.draws := by
  rcases busWrite_cases o v s with ⟨-, h | h | h⟩ | ⟨-, h⟩
  · rw [h]; exact ⟨rfl, rfl, rfl, rfl, rfl⟩
  · rw [h]; exact ⟨rfl, rfl, rfl, rfl, rfl⟩
  · rw [h]; exact ⟨rfl, rfl, rfl, rfl, rfl⟩
  · rw [h]
    rcases regWrite_cases s (regAt s.build o) v with h | h | h | h | ⟨_, _, _, _, _, _, h⟩ <;> rw [h] <;>
      exact ⟨rfl, rfl, rfl, rfl, rfl⟩

/-- The core's step: nothing when idle, else the meaning of the latched word or ILLEGAL_COMMAND. -/
theorem coreStep_cases (s : State) :
    (s.seq = .idle ∧ coreStep s = .next s)
      ∨ (∃ w i, s.seq = .busy w ∧ decode w = .ok i ∧ coreStep s = exec i s)
      ∨ ∃ w e, s.seq = .busy w ∧ decode w = .error e
          ∧ coreStep s = .next (s.finish 7 ((opField w).zeroExtend 16)) := by
  unfold coreStep State.latch
  cases hs : s.seq with
  | idle => exact .inl ⟨rfl, rfl⟩
  | busy w =>
    cases hd : decode w with
    | ok i => exact .inr (.inl ⟨w, i, rfl, hd, by simp [hd]⟩)
    | error e => exact .inr (.inr ⟨w, e, rfl, hd, by simp [hd, execIllegal, ErrorCode.code]⟩)

/-- Everything a step can do that gives a next state. `s₀` is the state with its turn taken off the
schedule. -/
theorem step_cases {s t : State} (h : step s = .next t) :
    ∃ ts, ts = s.turns.tail ∧
      ((t = hostStep { s with turns := ts } ∧ (s.turns ≠ [] ∨ s.busy = false))
        ∨ t = { s with turns := ts }
        ∨ (s.busy = true ∧ s.rst = false ∧ coreStep { s with turns := ts } = .next t
            ∧ (s.turns = [] ∨ s.turns.head? = some .core))
        ∨ (s.busy = true ∧ s.turns.head? = some .sameCycle ∧ coreTurn (hostStep { s with turns := ts }) = .next t)
        ∨ (t = { ({ s with turns := ts } : State).resetCore with rst := true } ∧ s.turns.head? = some .rstAssert)
        ∨ (t = { s with turns := ts, rst := false } ∧ s.turns.head? = some .rstRelease)) := by
  unfold step at h
  cases hts : s.turns with
  | nil =>
    refine ⟨[], rfl, ?_⟩
    have hs : ({ s with turns := [] } : State) = s := by rw [← hts]
    rw [hts] at h
    simp only [unscheduledTurn] at h
    rw [hs]
    split_ifs at h with hr hb
    · cases h
      exact .inr (.inl rfl)
    · exact .inr (.inr (.inl ⟨hb, by simpa using hr, h, .inl rfl⟩))
    · unfold hostOrFault at h
      split at h
      · cases h
      · cases h
        exact .inl ⟨rfl, .inr (by simpa using hb)⟩
  | cons u ts =>
    refine ⟨ts, rfl, ?_⟩
    rw [hts] at h
    cases u with
    | host =>
      cases h
      exact .inl ⟨rfl, .inl (by simp)⟩
    | core =>
      simp only [takeTurn, coreTurn] at h
      split_ifs at h with hr
      · cases h
        exact .inr (.inl rfl)
      · by_cases hb : s.busy = true
        · exact .inr (.inr (.inl ⟨hb, by simpa using hr, h, .inr rfl⟩))
        · have hi : ({ s with turns := ts } : State).seq = .idle := by
            cases hq : s.seq with
            | idle => rfl
            | busy w => simp [State.busy, hq] at hb
          rcases coreStep_cases { s with turns := ts } with ⟨-, hc⟩ | ⟨w, i, hw, -⟩ | ⟨w, e, hw, -⟩
          · rw [hc] at h
            cases h
            exact .inr (.inl rfl)
          · rw [hi] at hw
            cases hw
          · rw [hi] at hw
            cases hw
    | sameCycle =>
      simp only [takeTurn, sameCycleTurn] at h
      split_ifs at h with hb
      · exact .inr (.inr (.inr (.inl ⟨hb, rfl, h⟩)))
      · cases h
        exact .inl ⟨rfl, .inl (by simp)⟩
    | rstAssert =>
      cases h
      exact .inr (.inr (.inr (.inr (.inl ⟨rfl, rfl⟩))))
    | rstRelease =>
      cases h
      exact .inr (.inr (.inr (.inr (.inr ⟨rfl, rfl⟩))))

/-! ### A command in progress -/

theorem busy_iff (s : State) : s.busy = true ↔ ∃ w, s.seq = .busy w := by
  unfold State.busy; cases s.seq <;> simp

/-- The core's step of a busy core completes, or reads an unwritten operand. -/
theorem coreStep_busy {s : State} (h : s.busy = true) :
    (∃ t, coreStep s = .next t ∧ t.busy = false ∧ t.done = true ∧ t.rst = s.rst ∧ t.turns = s.turns)
      ∨ coreStep s = .fault .unwrittenOperand := by
  obtain ⟨w, hw⟩ := (busy_iff s).mp h
  rcases coreStep_cases s with ⟨hi, -⟩ | ⟨w', i, -, -, hc⟩ | ⟨w', e, -, -, hc⟩
  · rw [hi] at hw; cases hw
  · rw [hc]
    cases he : exec i s with
    | next t =>
      left
      obtain ⟨r, hr, hq⟩ := exec_eq_conclude i s
      rw [hr, conclude_next_iff] at he
      rcases he with ⟨u, hu, rfl⟩ | ⟨e, x, -, rfl⟩
      · obtain ⟨q, rfl⟩ := hq u hu
        exact ⟨_, rfl, rfl, rfl, rfl, rfl⟩
      · exact ⟨_, rfl, rfl, rfl, rfl, rfl⟩
    | fault f => right; rw [exec_fault he]
    | refused q => exact absurd he (exec_ne_refused i s q)
  · exact .inl ⟨_, hc, rfl, rfl, rfl, rfl⟩

/-- A host turn on a busy core leaves the sequencer alone. -/
theorem hostStep_busy {s : State} (h : s.busy = true) :
    (hostStep s).seq = s.seq ∧ (hostStep s).rst = s.rst ∧ (hostStep s).turns = s.turns ∧ (hostStep s).build = s.build := by
  rcases hostStep_cases s with ⟨h', hh⟩ | ⟨o, h', -, -, hh⟩ | ⟨o, v, h', -, -, hh⟩
  · rw [hh]; exact ⟨rfl, rfl, rfl, rfl⟩
  · rw [hh]; exact ⟨rfl, rfl, rfl, rfl⟩
  · rw [hh]
    rcases busWrite_cases o v s with ⟨-, hw | hw | hw⟩ | ⟨hb, -⟩
    · rw [hw]; exact ⟨rfl, rfl, rfl, rfl⟩
    · rw [hw]; exact ⟨rfl, rfl, rfl, rfl⟩
    · rw [hw]; exact ⟨rfl, rfl, rfl, rfl⟩
    · rw [h] at hb; cases hb

theorem busy_of_seq {s t : State} (h : s.seq = t.seq) : s.busy = t.busy := by unfold State.busy; rw [h]

theorem coreTurn_run {s : State} (h : s.rst = false) : coreTurn s = coreStep s := by
  simp [coreTurn, h]

/-! ### Turns, by the phase they start in -/

/-- What the core's step can be. -/
theorem coreStep_next {s t : State} (h : coreStep s = .next t) :
    t = s ∧ s.busy = false ∨ (∃ q, t = (s.withResults q).finish 0 0 ∧ s.busy = true) ∨ ∃ c x, 1 ≤ c.toNat ∧ c.toNat ≤ 7 ∧ t = s.finish c x ∧ s.busy = true := by
  rcases coreStep_cases s with ⟨hi, hc⟩ | ⟨w, i, hw, -, hc⟩ | ⟨w, e, hw, -, hc⟩
  · rw [hc] at h; cases h
    exact .inl ⟨rfl, by simp [State.busy, hi]⟩
  · rw [hc] at h
    have hb : s.busy = true := by simp [State.busy, hw]
    obtain ⟨r, hr, hq⟩ := exec_eq_conclude i s
    rw [hr, conclude_next_iff] at h
    rcases h with ⟨u, hu, rfl⟩ | ⟨e, x, -, rfl⟩
    · obtain ⟨q, rfl⟩ := hq u hu
      exact .inr (.inl ⟨q, rfl, hb⟩)
    · exact .inr (.inr ⟨_, _, by cases e <;> decide, e.code_le_seven, rfl, hb⟩)
  · rw [hc] at h; cases h
    exact .inr (.inr ⟨_, _, by decide, by decide, rfl, by simp [State.busy, hw]⟩)

theorem hostStep_frame (s : State) : (hostStep s).build = s.build ∧ (hostStep s).rst = s.rst ∧ (hostStep s).turns = s.turns
    ∧ (hostStep s).results = s.results := by
  rcases hostStep_cases s with ⟨h', hh⟩ | ⟨o, h', -, -, hh⟩ | ⟨o, v, h', -, -, hh⟩
  · rw [hh]; exact ⟨rfl, rfl, rfl, rfl⟩
  · rw [hh]; exact ⟨rfl, rfl, rfl, rfl⟩
  · rw [hh]
    obtain ⟨a, b, c, d, -⟩ := busWrite_frame o v s
    exact ⟨a, b, c, d⟩

/-- A host turn, while BUSY = 0: stays idle with operand changes, or issues. -/
theorem hostStep_idle {s : State} (h : s.busy = false) :
    ((hostStep s).busy = true → (hostStep s).done = false ∧ (hostStep s).errcode = 0 ∧ (hostStep s).errinfo = 0)
     ∧ ((hostStep s).done = true → s.done = true) := by
  have hseq : ∀ t : State, t.seq = s.seq → t.busy = false := fun t ht => (busy_of_seq ht).trans h
  rcases hostStep_cases s with ⟨h', hh⟩ | ⟨o, h', -, -, hh⟩ | ⟨o, v, h', -, -, hh⟩
  · rw [hh]; exact ⟨fun hb => (Bool.false_ne_true ((hseq _ rfl).symm.trans hb)).elim, fun hd => hd⟩
  · rw [hh]; exact ⟨fun hb => (Bool.false_ne_true ((hseq _ rfl).symm.trans hb)).elim, fun hd => hd⟩
  · rw [hh]
    rcases busWrite_cases o v s with ⟨hb, -⟩ | ⟨-, hw⟩
    · rw [h] at hb; cases hb
    · rw [hw]
      rcases regWrite_cases s (regAt s.build o) v with hw | hw | hw | hw | ⟨_, _, _, _, _, _, hw⟩ <;> rw [hw]
      · exact ⟨fun hb => (Bool.false_ne_true ((hseq _ rfl).symm.trans hb)).elim, fun hd => hd⟩
      · exact ⟨fun hb => (Bool.false_ne_true ((hseq _ rfl).symm.trans hb)).elim, fun hd => hd⟩
      · exact ⟨fun hb => (Bool.false_ne_true ((hseq _ rfl).symm.trans hb)).elim, fun hd => by simp [State.writeStatus] at hd; exact hd.1⟩
      · exact ⟨fun _ => ⟨rfl, rfl, rfl⟩, fun hd => by cases hd⟩
      · exact ⟨fun hb => (Bool.false_ne_true ((hseq _ rfl).symm.trans hb)).elim, fun hd => hd⟩

theorem hostStep_done {s : State} (hd : (hostStep s).done = true) : s.done = true := by
  cases hb : s.busy with
  | false => exact (hostStep_idle hb).2 hd
  | true =>
    rcases hostStep_cases s with ⟨h', hh⟩ | ⟨o, h', -, -, hh⟩ | ⟨o, v, h', -, -, hh⟩ <;> rw [hh] at hd
    · exact hd
    · exact hd
    · rcases busWrite_cases o v s with ⟨-, hw | hw | hw⟩ | ⟨hb', -⟩
      · rw [hw] at hd; exact hd
      · rw [hw] at hd; simp [State.writeStatus] at hd; exact hd.1
      · rw [hw] at hd; exact hd
      · rw [hb] at hb'; cases hb'

/-- A host turn on a busy core leaves the operands alone. -/
theorem hostStep_busy_operands {s : State} (h : s.busy = true) :
   (hostStep s).ndim = s.ndim ∧ (hostStep s).operand = s.operand ∧ (hostStep s).inLen = s.inLen ∧ (hostStep s).key = s.key ∧ (hostStep s).vec = s.vec ∧ (hostStep s).inBuf = s.inBuf := by
  rcases hostStep_cases s with ⟨h', hh⟩ | ⟨o, h', -, -, hh⟩ | ⟨o, v, h', -, -, hh⟩
  · rw [hh]; exact ⟨rfl, rfl, rfl, rfl, rfl, rfl⟩
  · rw [hh]; exact ⟨rfl, rfl, rfl, rfl, rfl, rfl⟩
  · rw [hh]
    rcases busWrite_cases o v s with ⟨-, hw | hw | hw⟩ | ⟨hb, -⟩
    · rw [hw]; exact ⟨rfl, rfl, rfl, rfl, rfl, rfl⟩
    · rw [hw]; exact ⟨rfl, rfl, rfl, rfl, rfl, rfl⟩
    · rw [hw]; exact ⟨rfl, rfl, rfl, rfl, rfl, rfl⟩
    · rw [h] at hb; cases hb

end Sys2Proof.Machine
end

