-- ==== Sys2Proof/Laws/Bus.lean ====
section
/-! SUPPORT. The register map at each of its offsets (10_state.md section 1), and host accesses with known
offsets and values. -/

namespace Sys2Proof.Machine

/-! ### The register map -/

theorem regAt_scalar (b : Build) {k : Nat} (h : k < 16) : regAt b (4 * k) = scalarReg k := by
  unfold regAt
  rw [if_pos (by omega)]
  congr 1; omega

/-- Arithmetic for the places of an entry in its file. -/
theorem entry_row {base i j : Nat} (hj : j < 8) : (base + 0x20 * i + 4 * j - base) / 0x20 = i := by omega

theorem entry_col {base i j : Nat} (hj : j < 8) : (base + 0x20 * i + 4 * j - base) % 0x20 / 4 = j := by omega

theorem line_index {base j : Nat} : (base + 4 * j - base) / 4 = j := by omega

theorem regAt_key (b : Build) {i j : Nat} (hi : i < 8) (hj : j < 8) :
    regAt b (0x100 + 0x20 * i + 4 * j) = if i < b.nMax ∧ j < b.nMax then .key i j else .reserved := by
  simp (disch := omega) only [regAt, if_neg, if_pos, blockReg, entry_row, entry_col]

theorem regAt_rmat (b : Build) {i j : Nat} (hi : i < 8) (hj : j < 8) :
    regAt b (0x200 + 0x20 * i + 4 * j) = if i < b.nMax ∧ j < b.nMax then .rmat i j else .reserved := by
  simp (disch := omega) only [regAt, if_neg, if_pos, blockReg, entry_row, entry_col]

theorem regAt_vec (b : Build) {j : Nat} (hj : j < 8) :
    regAt b (0x300 + 4 * j) = if j < b.nMax then .vec j else .reserved := by
  simp (disch := omega) only [regAt, if_neg, if_pos, lineReg, line_index]

theorem regAt_rvec (b : Build) {j : Nat} (hj : j < 8) :
    regAt b (0x320 + 4 * j) = if j < b.nMax then .rvec j else .reserved := by
  simp (disch := omega) only [regAt, if_neg, if_pos, lineReg, line_index]

theorem regAt_ksq (b : Build) {w : Nat} (hw : w < 7) : regAt b (0x380 + 4 * w) = .ksq w := by
  simp (disch := omega) only [regAt, if_neg, if_pos, lineReg, line_index]

theorem regAt_in (b : Build) {w : Nat} (hw : w < 0x400) :
    regAt b (0x1000 + 4 * w) = if w < inWords b then .inWord w else .reserved := by
  simp (disch := omega) only [regAt, if_neg, if_pos, lineReg, line_index]

theorem regAt_out (b : Build) {w : Nat} (hw : w < 0x400) :
    regAt b (0x2000 + 4 * w) = if w < outWords b then .outWord w else .reserved := by
  simp (disch := omega) only [regAt, if_neg, if_pos, lineReg, line_index]

theorem regAt_reserved (b : Build) {off : Nat}
    (h : 0x03C ≤ off ∧ off < 0x100 ∨ 0x340 ≤ off ∧ off < 0x380 ∨ 0x39C ≤ off ∧ off < 0x1000 ∨ 0x3000 ≤ off) :
    regAt b off = .reserved := by
  unfold regAt
  by_cases h0 : off < 0x040
  · rw [if_pos h0]
    have : off / 4 = 15 := by omega
    rw [this]; rfl
  · rw [if_neg h0]
    split_ifs <;> first | rfl | omega

/-- A register of the first 15 words stands at its own offset only. -/
theorem regAt_scalar_inv (b : Build) {off k : Nat} (h : regAt b off = scalarReg k) (hk : k < 15)
    (ho : off % 4 = 0) : off = 4 * k := by
  have hne : ∀ i j, scalarReg k ≠ .key i j ∧ scalarReg k ≠ .rmat i j ∧ scalarReg k ≠ .vec i ∧ scalarReg k ≠ .rvec i
      ∧ scalarReg k ≠ .ksq i ∧ scalarReg k ≠ .inWord i ∧ scalarReg k ≠ .outWord i ∧ scalarReg k ≠ .reserved := by
    intro i j; interval_cases k <;> simp [scalarReg]
  have hif : ∀ (c : Prop) [Decidable c] (x y : Reg), scalarReg k ≠ x → scalarReg k ≠ y → scalarReg k ≠ if c then x else y := by
    intro c _ x y h1 h2; split_ifs <;> assumption
  have hres := (hne 0 0).2.2.2.2.2.2.2
  have hline : ∀ (n : Nat) (mk : Nat → Reg) (rel : Nat), (∀ x, scalarReg k ≠ mk x) → scalarReg k ≠ lineReg n mk rel :=
    fun n mk rel hm => hif _ _ _ (hm _) hres
  have hblock : ∀ (mk : Nat → Nat → Reg) (rel : Nat), (∀ x y, scalarReg k ≠ mk x y) → scalarReg k ≠ blockReg b mk rel :=
    fun mk rel hm => hif _ _ _ (hm _ _) hres
  unfold regAt at h
  by_cases h0 : off < 0x40
  · rw [if_pos h0] at h
    have hf : ∀ j, j < 16 → scalarReg j = scalarReg k → j = k := by
      intro j hj; interval_cases k <;> interval_cases j <;> decide
    have := hf _ (by omega) h
    omega
  · rw [if_neg h0] at h
    exact absurd h.symm (hif _ _ _ hres (hif _ _ _ (hblock _ _ fun x y => (hne x y).1)
      (hif _ _ _ (hblock _ _ fun x y => (hne x y).2.1) (hif _ _ _ (hline _ _ _ fun x => (hne x 0).2.2.1)
      (hif _ _ _ (hline _ _ _ fun x => (hne x 0).2.2.2.1) (hif _ _ _ hres (hif _ _ _ (hline _ _ _ fun x => (hne x 0).2.2.2.2.1)
      (hif _ _ _ hres (hif _ _ _ (hline _ _ _ fun x => (hne x 0).2.2.2.2.2.1) (hif _ _ _ (hline _ _ _ fun x => (hne x 0).2.2.2.2.2.2.1) hres))))))))))

/-! ### Host accesses -/

theorem wordOf_toNat (v : Word) : wordOf (v.toNat : Int) = v := by
  simp [wordOf]

/-- An address made from an offset of the window has that offset. -/
theorem windowOffset_eq (b : Build) {off : Nat} (ho : off < 0x4000) :
    windowOffset b (hostAddress b off) = some off := by
  unfold windowOffset hostAddress
  rw [if_pos (by omega)]
  congr 1
  omega

theorem accessOffset_eq {s : State} {off : Nat} (hr : s.rst = false) (ho : off < 0x4000) (h0 : off % 4 = 0) :
    accessOffset s 4 off = .ok off := by
  simp [accessOffset, hr, windowOffset_eq s.build ho, h0]

theorem accessOffset_bad {s : State} {width off : Nat} (hr : s.rst = false) (ho : off < 0x4000)
    (h0 : width ≠ 4 ∨ off % 4 ≠ 0) : accessOffset s width off = .error .busError := by
  simp only [accessOffset, hr, Bool.false_eq_true, if_false, windowOffset_eq s.build ho]
  rw [if_neg (by omega)]

/-- A host write neither reads nor changes the host agent. -/
theorem busWrite_host (off : Nat) (v : Word) (s : State) (h : HostAgent) :
    { busWrite off v s with host := h } = busWrite off v { s with host := h } := by
  have hb : ({ s with host := h } : State).busy = s.busy := rfl
  unfold busWrite
  rw [hb]
  cases s.busy <;> cases regAt s.build off <;> rfl

theorem busWrite_keeps_host (off : Nat) (v : Word) (s : State) : (busWrite off v s).host = s.host := by
  unfold busWrite
  cases s.busy <;> cases regAt s.build off <;> rfl

theorem step_host {s : State} {ts : List Turn} {op : HostOp} (hh : s.host.halted = none)
    (hp : s.host.program[s.host.position]? = some op) :
    step { s with turns := .host :: ts } = .next (hostOp op { s with turns := ts }) := by
  have : hostStep { s with turns := ts } = hostOp op { s with turns := ts } := by
    unfold hostStep
    simp only [hh, hp]
  rw [← this]
  rfl

/-- A write the core accepts. -/
theorem hostOp_write_eq {s : State} {off : Nat} (z : Int) (hr : s.rst = false) (ho : off < 0x4000) (h0 : off % 4 = 0) :
    hostOp (.write 4 (.lit (off : Int)) (.lit z)) s = (busWrite off (wordOf z) s).advanceHost := by
  have ha := accessOffset_eq hr ho h0
  simp only [hostOp, HostExpr.eval, hostWrite, ha]

theorem hostOp_write_lit {s : State} {off : Nat} (v : Word) (hr : s.rst = false) (ho : off < 0x4000) (h0 : off % 4 = 0) :
    hostOp (.write 4 (.lit (off : Int)) (.lit (v.toNat : Int))) s = (busWrite off v s).advanceHost := by
  rw [hostOp_write_eq _ hr ho h0, wordOf_toNat]

/-- A bad width or offset is a bus error whatever the value (20_memory.md R101). -/
theorem hostOp_write_bad {s : State} {width off : Nat} (e : HostExpr) (hr : s.rst = false) (ho : off < 0x4000)
    (h0 : width ≠ 4 ∨ off % 4 ≠ 0) : hostOp (.write width (.lit (off : Int)) e) s = s.haltHost .busError := by
  have ha := accessOffset_bad hr ho h0
  simp only [hostOp, HostExpr.eval, hostWrite, ha]

/-- A read the core accepts. -/
theorem hostOp_read_lit {s : State} {off x : Nat} (hr : s.rst = false) (ho : off < 0x4000) (h0 : off % 4 = 0) :
    hostOp (.read 4 (.lit (off : Int)) x) s = ((busRead off s).2.receive x (busRead off s).1).advanceHost := by
  have ha := accessOffset_eq hr ho h0
  simp only [hostOp, HostExpr.eval, hostRead, ha]

theorem hostOp_read_bad {s : State} {width off x : Nat} (hr : s.rst = false) (ho : off < 0x4000)
    (h0 : width ≠ 4 ∨ off % 4 ≠ 0) : hostOp (.read width (.lit (off : Int)) x) s = s.haltHost .busError := by
  have ha := accessOffset_bad hr ho h0
  simp only [hostOp, HostExpr.eval, hostRead, ha]

theorem busWrite_advance (off : Nat) (v : Word) (s : State) : (busWrite off v s).advanceHost = busWrite off v s.advanceHost := by
  unfold State.advanceHost
  rw [busWrite_keeps_host, busWrite_host]

end Sys2Proof.Machine
end

