-- ==== Sys2Proof/Laws/PerInstr.lean ====
section
/-! SUPPORT. Per command: its word meets the mask and match of its row of the opcode map
(30_encoding.md R143, R144). -/

namespace Sys2Proof.Laws.MaskedWord

/-- The word of a well-formed command has the opcode of one row of R144 and passes that row's check. -/
def Statement (i : Instr) : Prop :=
  i.wf = true →
    ∃ row, opcodeMap.find? (fun row => row.op == opField (encode i)) = some row
      ∧ encode i &&& row.mask = row.value ∧ row.command (encode i) = i

theorem nop : Statement .nop := fun _ => ⟨_, rfl, by decide, rfl⟩
theorem det : Statement .det := fun _ => ⟨_, rfl, by decide, rfl⟩

/-- The two index fields land where R141 puts them, and nowhere else. -/
def FieldsOk (op : Word) (r c : Nat) : Bool :=
  opField (op ||| indexBits r c) == opField op && (op ||| indexBits r c) &&& 0xFF88FFFF == op
    && rField (op ||| indexBits r c) == r && cField (op ||| indexBits r c) == c

theorem subm_fields : ∀ r : Fin 8, ∀ c : Fin 8, FieldsOk 0x00000002 r c = true := by decide +kernel
theorem cof_fields : ∀ r : Fin 8, ∀ c : Fin 8, FieldsOk 0x00000003 r c = true := by decide +kernel

theorem indexes_lt {r c : Nat} (h : (indexOk r && indexOk c) = true) : r < 8 ∧ c < 8 := by
  simp only [indexOk, Bool.and_eq_true, decide_eq_true_eq] at h
  omega

theorem subm (row col : Nat) : Statement (.subm row col) := by
  intro h
  obtain ⟨hr, hc⟩ := indexes_lt h
  have hf := subm_fields ⟨row, hr⟩ ⟨col, hc⟩
  simp only [FieldsOk, Bool.and_eq_true, beq_iff_eq] at hf
  obtain ⟨⟨⟨h1, h2⟩, h3⟩, h4⟩ := hf
  refine ⟨⟨0x02, 0xFF88FFFF, 0x00000002, fun w => .subm (rField w) (cField w)⟩, ?_, h2, ?_⟩
  · rw [encode, h1]
    rfl
  · simp only [encode, h3, h4]

theorem cof (row col : Nat) : Statement (.cof row col) := by
  intro h
  obtain ⟨hr, hc⟩ := indexes_lt h
  have hf := cof_fields ⟨row, hr⟩ ⟨col, hc⟩
  simp only [FieldsOk, Bool.and_eq_true, beq_iff_eq] at hf
  obtain ⟨⟨⟨h1, h2⟩, h3⟩, h4⟩ := hf
  refine ⟨⟨0x03, 0xFF88FFFF, 0x00000003, fun w => .cof (rField w) (cField w)⟩, ?_, h2, ?_⟩
  · rw [encode, h1]
    rfl
  · simp only [encode, h3, h4]

theorem adj : Statement .adj := fun _ => ⟨_, rfl, by decide, rfl⟩
theorem modinv : Statement .modinv := fun _ => ⟨_, rfl, by decide, rfl⟩
theorem invkey : Statement .invkey := fun _ => ⟨_, rfl, by decide, rfl⟩

theorem mvmul (m : MatrixSelect) : Statement (.mvmul m) := by
  cases m <;> exact fun _ => ⟨_, rfl, by decide, rfl⟩

theorem menc : Statement .menc := fun _ => ⟨_, rfl, by decide, rfl⟩
theorem mdec : Statement .mdec := fun _ => ⟨_, rfl, by decide, rfl⟩
theorem findpos : Statement .findpos := fun _ => ⟨_, rfl, by decide, rfl⟩

theorem dgrule (m : Direction) : Statement (.dgrule m) := by
  cases m <;> exact fun _ => ⟨_, rfl, by decide, rfl⟩

theorem norm : Statement .norm := fun _ => ⟨_, rfl, by decide, rfl⟩
theorem denc : Statement .denc := fun _ => ⟨_, rfl, by decide, rfl⟩
theorem ddec : Statement .ddec := fun _ => ⟨_, rfl, by decide, rfl⟩

end Sys2Proof.Laws.MaskedWord
end

