-- ==== Sys2Proof/Tests/Slice0.lean ====
section
/-! SUPPORT. The model's own tests. Expected values come from spec/95_test_vectors.md (the section is named
at each group) and from the encodings of 30_encoding.md; each runs one decode, one command, one bus access or
one step. Then, for every statement with hypotheses, a witness that meets them. -/

-- one theorem at a time: each is a small evaluation by the kernel
set_option Elab.async false

namespace Sys2Proof.Tests

open Sys2Proof Sys2Proof.Machine

/-! ### Helpers -/

/-- The outcome is a next state that passes the test. -/
def nextIs (o : Host.Outcome State Fault Refusal) (p : State → Bool) : Bool :=
  match o with
  | .next s => p s
  | .fault _ => false
  | .refused _ => false

/-- The outcome is this fault. -/
def faultIs (o : Host.Outcome State Fault Refusal) (f : Fault) : Bool :=
  match o with
  | .next _ => false
  | .fault g => decide (g = f)
  | .refused _ => false

theorem next_of_nextIs {o : Host.Outcome State Fault Refusal} {p : State → Bool} (h : nextIs o p = true) :
    ∃ t, o = .next t ∧ p t = true := by
  cases o with
  | next t => exact ⟨t, rfl, h⟩
  | fault f => cases h
  | refused q => cases h

/-- A key matrix and its dimension. -/
def keyed (n : Nat) (rows : List (List Nat)) : State :=
  { State.reset with
    ndim := BitVec.ofNat 3 n
    key := (keyEntries n rows).map fun (i, j, a) => (entryIndex i j, BitVec.ofNat 5 a) }

/-- The input text. -/
def withText (s : State) (t : List Byte) : State :=
  { s with inBuf := t.zipIdx.map fun (x, k) => (k, x), inLen := BitVec.ofNat 16 t.length }

/-- The vector operand. -/
def withVec (s : State) (v : List Nat) : State :=
  { s with vec := v.zipIdx.map fun (x, j) => (j, BitVec.ofNat 5 x) }

/-- OPERAND. -/
def withOperand (w : Word) : State := { State.reset with operand := w }

/-- An error completion. -/
def errorIs (code info : Nat) (s : State) : Bool :=
  s.errcode.toNat == code && s.errinfo.toNat == info && s.done && !s.busy

/-- The output text of a successful completion. -/
def outIs (t : List Byte) (s : State) : Bool :=
  s.errcode == 0 && s.outLen.toNat == t.length && (List.range t.length).all fun k => s.outBuf.read k == t[k]?

/-- RMAT, the whole N_MAX × N_MAX block of the reference build, as signed values. -/
def rmatIs (rows : List (List Int)) (s : State) : Bool :=
  s.errcode == 0 && (List.range 4).all fun i => (List.range 4).all fun j =>
    (s.rmat.read (8 * i + j)).map BitVec.toInt == (rows[i]?.bind fun row => row[j]?)

def rvecIs (v : List Nat) (s : State) : Bool :=
  s.errcode == 0 && (List.range v.length).all fun i => (s.rvec.read i).map BitVec.toNat == v[i]?

/-- The keys of 95_test_vectors.md section 2.3. -/
def k3 : List (List Nat) := [[6, 24, 1], [13, 16, 10], [20, 17, 15]]
def k4 : List (List Nat) := [[1, 2, 3, 4], [0, 1, 2, 3], [0, 0, 1, 2], [1, 0, 0, 1]]
def k2 : List (List Nat) := [[3, 3], [2, 5]]
def kBad : List (List Nat) := [[2, 4], [1, 3]]

/-- A small build: N_MAX = 5, TEXT_MAX = 3. -/
def smallBuild : Build := ⟨5, 3, Config.refSquare, 0x1000, by decide⟩

/-! ### Well-formedness: each check refuses its ill-formed term (30_encoding.md R142, R147; 00_scope.md R5 to R7) -/

theorem test_subm_row_refused : (Instr.subm 8 0).wf = false := by decide
theorem test_subm_col_refused : (Instr.subm 0 8).wf = false := by decide
theorem test_cof_row_refused : (Instr.cof 8 0).wf = false := by decide
theorem test_cof_col_refused : (Instr.cof 0 8).wf = false := by decide
theorem test_index_seven_accepted : (Instr.subm 7 7).wf = true ∧ (Instr.cof 7 7).wf = true := by decide
theorem test_build_nMax_refused :
    Config.buildOk 1 256 Config.refSquare = false ∧ Config.buildOk 6 256 Config.refSquare = false := by decide
theorem test_build_textMax_refused :
    Config.buildOk 4 1 Config.refSquare = false ∧ Config.buildOk 4 4096 Config.refSquare = false := by decide
theorem test_square_length_refused : Config.squareOk (Config.refSquare.take 24) = false := by decide
theorem test_square_repeat_refused : Config.squareOk (Config.refSquare.take 24 ++ [0x50]) = false := by decide
theorem test_square_j_refused : Config.squareOk (Config.refSquare.take 24 ++ [0x4A]) = false := by decide
theorem test_square_lower_refused : Config.squareOk (Config.refSquare.take 24 ++ [0x7A]) = false := by decide
theorem test_builds_accepted :
    Config.buildOk 2 2 Config.refSquare = true ∧ Config.buildOk 5 4095 Config.refSquare = true := by decide

/-! ### Decoding: words written out from 30_encoding.md R144 and R145 -/

theorem test_decode_nop : decode 0x00000000 = .ok (.nop) := by decide
theorem test_decode_det : decode 0x00000001 = .ok (.det) := by decide
theorem test_decode_subm_1_2 : decode 0x00210002 = .ok (.subm 1 2) := by decide
theorem test_decode_subm_7_7 : decode 0x00770002 = .ok (.subm 7 7) := by decide
theorem test_decode_cof_2_1 : decode 0x00120003 = .ok (.cof 2 1) := by decide
theorem test_decode_adj : decode 0x00000004 = .ok (.adj) := by decide
theorem test_decode_modinv : decode 0x00000005 = .ok (.modinv) := by decide
theorem test_decode_invkey : decode 0x00000006 = .ok (.invkey) := by decide
theorem test_decode_mvmul_key : decode 0x00000007 = .ok (.mvmul .key) := by decide
theorem test_decode_mvmul_rmat : decode 0x00000107 = .ok (.mvmul .rmat) := by decide
theorem test_decode_menc : decode 0x00000008 = .ok (.menc) := by decide
theorem test_decode_mdec : decode 0x00000009 = .ok (.mdec) := by decide
theorem test_decode_findpos : decode 0x00000010 = .ok (.findpos) := by decide
theorem test_decode_dgrule_enc : decode 0x00000011 = .ok (.dgrule .enc) := by decide
theorem test_decode_dgrule_dec : decode 0x00000111 = .ok (.dgrule .dec) := by decide
theorem test_decode_norm : decode 0x00000012 = .ok (.norm) := by decide
theorem test_decode_denc : decode 0x00000013 = .ok (.denc) := by decide
theorem test_decode_ddec : decode 0x00000014 = .ok (.ddec) := by decide

/-- The illegal words of 95_test_vectors.md section 2.1. -/
theorem test_reserved_opcodes :
    decode 0x0000000A = .error .reservedOpcode ∧ decode 0x0000000F = .error .reservedOpcode
      ∧ decode 0x00000015 = .error .reservedOpcode ∧ decode 0x000000FF = .error .reservedOpcode := by decide
theorem test_nonzero_unused_bits :
    ([0x00000100, 0x80000001, 0x00010001, 0x00080002, 0x00800002, 0x00000101, 0x00000207, 0x00000211, 0x00100007,
      0x00000112] : List Word).all (fun w => decide (decode w = .error .nonzeroUnusedBit)) = true := by decide
theorem test_table_word : decodeTableWord 32 0x00210002 = some (.subm 1 2) ∧ decodeTableWord 32 0x0A = none := by
  decide

/-! ### The assembler's notation (30_encoding.md R147) -/

theorem test_assemble :
    assemble "SUBM" [.num 1, .num 2] = some (.subm 1 2) ∧ assemble "MVMUL" [.rmat] = some (.mvmul .rmat)
      ∧ assemble "DGRULE" [.dec] = some (.dgrule .dec) := by decide
theorem test_assemble_rejects :
    assemble "COF" [.num 8, .num 0] = none ∧ assemble "DET" [.num 0] = none ∧ assemble "MVMUL" [.enc] = none := by
  decide

/-! ### Commands (95_test_vectors.md sections 1 and 2.3 to 2.11) -/

theorem test_nop :
    nextIs (exec .nop (keyed 3 k3))
      (fun s => s.done && s.errcode == 0 && s.results == State.reset.results) = true := by decide +kernel
theorem test_det_k3 :
    nextIs (exec .det (keyed 3 k3))
      (fun s => s.resScalar == 441 && s.resDetmod == 25) = true := by decide +kernel
theorem test_det_negative :
    nextIs (exec .det (keyed 2 [[1, 2], [2, 1]]))
      (fun s => s.resScalar == 0xFFFFFFFD && s.resDetmod == 23) = true := by decide +kernel
theorem test_subm :
    nextIs (exec (.subm 1 2) (keyed 3 k3))
      (rmatIs [[6, 24, 0, 0], [20, 17, 0, 0], [0, 0, 0, 0], [0, 0, 0, 0]]) = true := by decide +kernel
theorem test_subm_index :
    nextIs (exec (.subm 7 3) (keyed 3 k3)) (errorIs 6 0x3B) = true := by decide +kernel
theorem test_cof :
    nextIs (exec (.cof 0 2) (keyed 3 k3))
      (fun s => s.resScalar == 0xFFFFFF9D && s.errcode == 0) = true := by decide +kernel
theorem test_cof_2x2 :
    nextIs (exec (.cof 1 0) (keyed 2 k2)) (fun s => s.resScalar.toInt == -3) = true := by decide +kernel
theorem test_adj :
    nextIs (exec .adj (keyed 3 k3))
      (rmatIs [[70, -343, 224, 0], [5, 70, -47, 0], [-99, 378, -216, 0], [0, 0, 0, 0]]) = true := by decide +kernel
theorem test_adj_full :
    nextIs (exec .adj (keyed 4 k4))
      (rmatIs [[1, -2, 1, 0], [-1, 3, -3, 1], [2, -4, 3, -2], [-1, 2, -1, 1]]) = true := by decide +kernel
theorem test_modinv_negative :
    nextIs (exec .modinv (withOperand 0xFFFFFFFD))
      (fun s => s.resScalar == 17 && s.errcode == 0) = true := by decide +kernel
theorem test_modinv_none :
    nextIs (exec .modinv (withOperand 0x80000000)) (errorIs 4 2) = true := by decide +kernel
theorem test_invkey :
    nextIs (exec .invkey (keyed 3 k3))
      (fun s => rmatIs [[8, 5, 10, 0], [21, 8, 21, 0], [21, 12, 8, 0], [0, 0, 0, 0]] s
      && s.resScalar == 441 && s.resDetmod == 25) = true := by decide +kernel
theorem test_invkey_none :
    nextIs (exec .invkey (keyed 2 [[13, 0], [0, 1]])) (errorIs 4 13) = true := by decide +kernel
theorem test_mvmul_key :
    nextIs (exec (.mvmul .key) (withVec (keyed 3 k3) [25, 25, 25]))
      (rvecIs [21, 13, 0, 0]) = true := by decide +kernel
/-- RMAT as ADJ of K3 leaves it: negative entries are signed. -/
theorem test_mvmul_rmat :
    nextIs (exec .adj (withVec (keyed 3 k3) [1, 1, 1])) (fun s => nextIs (exec (.mvmul .rmat) s) (rvecIs [3, 2, 11, 0]))
      = true := by decide +kernel
theorem test_menc :
    nextIs (exec .menc (withText (keyed 3 k3) [0x48, 0x45, 0x4C]))
      (outIs [0x54, 0x46, 0x4A]) = true := by decide +kernel
theorem test_menc_first_character :
    nextIs (exec .menc (withText (keyed 3 k3) [0x48, 0x33, 0x6C])) (errorIs 2 1) = true := by decide +kernel
theorem test_mdec :
    nextIs (exec .mdec (withText (keyed 3 k3) [0x54, 0x46, 0x4A]))
      (outIs [0x48, 0x45, 0x4C]) = true := by decide +kernel
theorem test_mdec_inverse_before_characters :
    nextIs (exec .mdec (withText (keyed 2 kBad) [0x61, 0x21])) (errorIs 4 2) = true := by decide +kernel
theorem test_findpos :
    nextIs (exec .findpos (withOperand 0x00004A44))
      (fun s => s.resPos == 0x41 && s.errcode == 0) = true := by decide +kernel
theorem test_findpos_j :
    nextIs (exec .findpos (withOperand 0x4A)) (errorIs 3 0) = true := by decide +kernel
theorem test_dgrule_enc_column_wrap :
    nextIs (exec (.dgrule .enc) (withOperand 0x00005A46))
      (fun s => s.resPair == 0x00014644 && s.resPos == 0x00004440) = true := by decide +kernel
theorem test_dgrule_dec_row_wrap :
    nextIs (exec (.dgrule .dec) (withOperand 0x00004650))
      (fun s => s.resPair == 0x00005946 && s.resPos == 0x00004000) = true := by decide +kernel
theorem test_norm :
    nextIs (exec .norm (withText State.reset [0x61, 0x20, 0x4A, 0x62]))
      (outIs [0x41, 0x4A, 0x42, 0x58]) = true := by decide +kernel
theorem test_norm_empty :
    nextIs (exec .norm (withText State.reset [0x31, 0x32, 0x20, 0x33, 0x34, 0x21]))
      (outIs []) = true := by decide +kernel
theorem test_denc :
    nextIs (exec .denc (withText State.reset [0x48, 0x65, 0x6C, 0x6C, 0x6F, 0x2C, 0x20, 0x57, 0x6F, 0x72, 0x6C, 0x64, 0x21]))
      (outIs [0x4B, 0x47, 0x41, 0x41, 0x51, 0x56, 0x56, 0x47, 0x46, 0x52]) = true := by decide +kernel
theorem test_denc_normalised_index :
    nextIs (exec .denc (withText State.reset [0x61, 0x20, 0x4A, 0x62]))
      (errorIs 3 1) = true := by decide +kernel
theorem test_ddec :
    nextIs (exec .ddec (withText State.reset [0x4B, 0x47, 0x41, 0x41, 0x51, 0x56, 0x56, 0x47, 0x46, 0x52]))
      (outIs [0x48, 0x45, 0x4C, 0x4C, 0x4F, 0x57, 0x4F, 0x52, 0x4C, 0x44]) = true := by decide +kernel
theorem test_ddec_space :
    nextIs (exec .ddec (withText State.reset [0x4B, 0x47, 0x20, 0x41]))
      (errorIs 3 2) = true := by decide +kernel

/-- 40_control.md R183, 10_state.md R60: an unwritten operand is the model fault, a checked error before it is not. -/
theorem test_unwritten_key :
    faultIs (exec .det { State.reset with ndim := 2 }) .unwrittenOperand = true
      ∧ nextIs (exec .det State.reset) (errorIs 5 0xFFFF) = true := by decide +kernel

/-! ### The register space (95_test_vectors.md sections 2.2 and 2.12) -/

theorem test_identity :
    (busRead 0x000 State.reset).1 = 0x43523236 ∧ (busRead 0x004 State.reset).1 = 0x11000004 := by decide +kernel
theorem test_key_square_window :
    (busRead 0x380 State.reset).1 = 0x59414C50 ∧ (busRead 0x398 State.reset).1 = 0x0000005A := by decide +kernel
theorem test_reserved_bits_dropped :
    (busRead 0x01C (busWrite 0x01C 0xFFFFFFFF State.reset)).1 = 7
      ∧ (busRead 0x100 (busWrite 0x100 0xFFFFFFFF State.reset)).1 = 0x1F
      ∧ (busRead 0x024 (busWrite 0x024 0x12345678 State.reset)).1 = 0x5678 := by decide +kernel
theorem test_text_packing :
    (busRead 0x1004 (withText State.reset [0x48, 0x45, 0x4C, 0x4C, 0x4F, 0x57, 0x4F, 0x52, 0x4C, 0x44])).1
      = 0x524F574F := by decide +kernel
theorem test_write_while_busy_sets_wbusy :
    (busRead 0x00C (busWrite 0x01C 3 (busWrite 0x010 1 State.reset))).1 = 0x9
      ∧ (busWrite 0x01C 3 (busWrite 0x010 1 State.reset)).ndim = 0 := by decide +kernel
theorem test_status_clears :
    (busWrite 0x00C 0xA { State.reset with done := true, wbusy := true, errcode := 7 }).statusWord = 0x4 := by decide

/-! ### The host notation (30_encoding.md R148) -/

theorem test_ldkey_expands :
    (HostStmt.ldkey 2 [[2, 4], [1, 3]]).expand id
      = [wrOp 0x01C 2, wrOp 0x100 2, wrOp 0x104 4, wrOp 0x120 1, wrOp 0x124 3] := by decide
theorem test_ldtext_expands :
    (HostStmt.ldtext [0x48, 0x45, 0x4C, 0x4C, 0x4F]).expand id
      = [wrOp 0x1000 0x4C4C4548, wrOp 0x1004 0x0000004F, wrOp 0x024 5] := by decide
theorem test_misaligned_access_halts_the_host :
    (hostOp (.read 4 (.lit 2) 0) State.reset).host.halted = some .busError
      ∧ (hostOp (.read 2 (.lit 0) 0) State.reset).host.halted = some .busError
      ∧ (hostOp (.read 4 (.lit 0x4000) 0) State.reset).host.halted = some .outsideWindow := by decide +kernel
/-- 20_memory.md R101: a write of 8 bytes is a bus error, whatever its value. -/
theorem test_wide_write_is_a_bus_error :
    (hostOp (.write 8 (.lit 0) (.lit 0x100000000)) State.reset).host.halted = some .busError := by decide +kernel
/-- A name nobody has assigned ends no run. -/
theorem test_unassigned_name_runs :
    (hostOp (.assign 0 (.name 7)) State.reset).host = ⟨[], 1, [(0, Config.unassignedName 7)], none⟩ := rfl
/-- A value outside 32 bits ends no run. -/
theorem test_wide_value_runs :
    (hostOp (.write 4 (.lit 0x008) (.lit (-1))) State.reset).host.position = 1 := by decide +kernel
/-- WAIT's expansion assigns s: with BUSY = 1 it stays and s is STATUS, idle it goes on. -/
theorem test_wait_assigns_s :
    (hostOp (.poll waitName) (State.reset.issue 0)).host = ⟨[], 0, [(waitName, 1)], none⟩
      ∧ (hostOp (.poll waitName) State.reset).host = ⟨[], 1, [(waitName, 0)], none⟩ := by decide +kernel
/-- ceil(10 / 4) = 3, 95_test_vectors.md section 2's copying loop; ceil(9 / 4) = 3, ceil(8 / 4) = 2. -/
theorem test_ceil :
    ceiling 10 4 = 3 ∧ ceiling 9 4 = 3 ∧ ceiling 8 4 = 2 ∧ quotient 9 4 = 2 ∧ quotient (-8) 4 = -2 := by decide
/-- Labels stand as positions, and a label is no operation. -/
theorem test_labels_are_positions :
    hostProgram [.label 5, .branch .ge (.name 1) (.lit 3) 6, .wr (.lit 8) (.lit 1), .goto 5, .label 6, .clrdone]
      = some [.branch .ge (.name 1) (.lit 3) 3, wrOp 8 1, .goto 0, wrOp 0x00C 2] := by decide
/-- R147: the assembler rejects an operand out of range; R148: a jump's label marks a statement. -/
theorem test_host_program_rejects :
    hostProgram [.issue (.subm 16 0)] = none ∧ hostProgram [.goto 5] = none
      ∧ hostProgram [.label 5, .label 5] = none := by decide

/-- A program of the notation, expanded. -/
def expanded (stmts : List HostStmt) : List HostOp := (hostProgram stmts).getD []

/-! ### Steps -/

/-- The host's write of CMD issues; the next step completes (95_test_vectors.md section 2.12). -/
theorem test_step_issues :
    nextIs (step (State.reset.withProgram (expanded [.issue .nop]))) (fun s => s.statusWord == 1) = true := by decide +kernel
theorem test_step_completes :
    nextIs (step ({ State.reset with ie := true }.issue 0x000000FF)) (fun s => errorIs 7 0xFF s && s.irq) = true := by
  decide +kernel
theorem test_withFetchWord :
    nextIs (step ((keyed 3 k3).withFetchWord 32 0x00000001)) (fun s => s.resScalar == 441 && s.done) = true := by
  decide +kernel
/-- 10_state.md R36: a completion and a write that clears DONE in one bus cycle leave DONE = 1. -/
theorem test_same_cycle_keeps_done :
    nextIs (step { (State.reset.issue 0).withProgram (expanded [.clrdone]) with turns := [.sameCycle] })
      (fun s => s.done && !s.busy) = true := by decide +kernel
theorem test_reset_aborts :
    nextIs (step { (keyed 3 k3).issue 1 with turns := [.rstAssert] })
      (fun s => s.statusWord == 0 && s.ndim == 0 && s.key == []) = true := by decide +kernel

/-! ### Witnesses: states and operands that meet the hypotheses of the statements

Each is named after its obligation. Where a statement has several clauses, each clause has its own state, at the
edges of its range. -/

/-- The commands under test complete, or end in an error, from these states. -/
theorem exists_next {i : Instr} {s : State} (h : nextIs (exec i s) (fun _ => true) = true) : ∃ t, exec i s = .next t :=
  let ⟨t, ht, _⟩ := next_of_nextIs h
  ⟨t, ht⟩

/-- The command in progress completes from these states. -/
theorem exists_core {s : State} (h : nextIs (coreStep s) (fun _ => true) = true) : ∃ t, coreStep s = .next t :=
  let ⟨t, ht, _⟩ := next_of_nextIs h
  ⟨t, ht⟩

/-- The determinant of a 2×2 key of the library, for evaluation. -/
theorem invertible_two {a b c d : Nat} (h : Int.gcd ((a : Int) * d - b * c) 26 = 1) (ha : a ≤ 31) (hb : b ≤ 31)
    (hc : c ≤ 31) (hd : d ≤ 31) : (keyed 2 [[a, b], [c, d]]).KeyInvertible := by
  have e : ∀ x : Nat, x ≤ 31 → ((BitVec.ofNat 5 x).toNat : Int) = x := fun x hx => by
    rw [BitVec.toNat_ofNat, Nat.mod_eq_of_lt (by omega)]
  show Int.gcd (gridMatrix 2 (keyed 2 [[a, b], [c, d]]).keyGrid).det 26 = 1
  rw [Matrix.det_fin_two]
  show Int.gcd (((BitVec.ofNat 5 a).toNat : Int) * (BitVec.ofNat 5 d).toNat
    - (BitVec.ofNat 5 b).toNat * (BitVec.ofNat 5 c).toNat) 26 = 1
  rw [e a ha, e b hb, e c hc, e d hd]
  exact h

theorem not_invertible_two {a b c d : Nat} (h : Int.gcd ((a : Int) * d - b * c) 26 ≠ 1) (ha : a ≤ 31) (hb : b ≤ 31)
    (hc : c ≤ 31) (hd : d ≤ 31) : ¬ (keyed 2 [[a, b], [c, d]]).KeyInvertible := by
  have e : ∀ x : Nat, x ≤ 31 → ((BitVec.ofNat 5 x).toNat : Int) = x := fun x hx => by
    rw [BitVec.toNat_ofNat, Nat.mod_eq_of_lt (by omega)]
  show ¬ Int.gcd (gridMatrix 2 (keyed 2 [[a, b], [c, d]]).keyGrid).det 26 = 1
  rw [Matrix.det_fin_two]
  show ¬ Int.gcd (((BitVec.ofNat 5 a).toNat : Int) * (BitVec.ofNat 5 d).toNat
    - (BitVec.ofNat 5 b).toNat * (BitVec.ofNat 5 c).toNat) 26 = 1
  rw [e a ha, e b hb, e c hc, e d hd]
  exact h

theorem witness_DecodeOfEncodeIsTheCommand : (Instr.subm 0 0).wf = true ∧ (Instr.cof 7 7).wf = true := by decide

theorem witness_LegalWordIsItsCommandsEncoding : decode 0x00770002 = .ok (.subm 7 7) := by decide

/-- Both ends of both reserved ranges; a DET word with a nonzero unused bit; an idle state out of reset. -/
theorem witness_IllegalCommandIssuesAndCompletes :
    ([0x0A, 0x0F, 0x15, 0xFF] : List Word).all (fun w => decide
        (0x0A ≤ (w &&& 0xFF#32).toNat ∧ (w &&& 0xFF#32).toNat ≤ 0x0F ∨ 0x15 ≤ (w &&& 0xFF#32).toNat)) = true
      ∧ (0xFFFFFFFF, 0x00000001) ∈ maskMatch ∧ (0x80000001 : Word) &&& 0xFF#32 = 0x00000001
      ∧ (0x80000001 : Word) &&& 0xFFFFFFFF ≠ 0x00000001
      ∧ decode 0x00000100 = .error .nonzeroUnusedBit ∧ State.reset.busy = false := by
  decide

theorem witness_CommandWriteIssuesOrIsDropped :
    State.reset.busy = false ∧ (State.reset.issue 0).busy = true := by decide

theorem witness_CoreTurnRunsTheDecodedCommand :
    (State.reset.issue 1).rst = false ∧ (State.reset.issue 1).seq = .busy 1 ∧ decode 1 = .ok .det := by decide

/-- A command in progress that succeeds, one that ends in an error, and an illegal word. -/
theorem witness_CompletionIsSuccessOrErrorWithoutResults :
    ((keyed 3 k3).issue 1).busy = true ∧ (∃ t, coreStep ((keyed 3 k3).issue 1) = .next t)
      ∧ (∃ t, coreStep (State.reset.issue 1) = .next t) ∧ ∃ t, coreStep (State.reset.issue 0x0A) = .next t :=
  ⟨rfl, exists_core (by decide +kernel), exists_core (by decide +kernel), exists_core (by decide +kernel)⟩

theorem witness_FailedCommandWritesNoResult :
    (State.reset.issue 1).busy = true ∧ ∃ t, coreStep (State.reset.issue 1) = .next t ∧ t.errcode ≠ 0 :=
  let ⟨t, h, he⟩ := next_of_nextIs (show nextIs (coreStep (State.reset.issue 1)) (fun t => t.errcode != 0) = true by
    decide +kernel)
  ⟨rfl, t, h, by simpa using he⟩

theorem witness_CommandsKeepOperandRegisters :
    ((keyed 4 k4).issue 4).busy = true ∧ ∃ t, coreStep ((keyed 4 k4).issue 4) = .next t :=
  ⟨rfl, exists_core (by decide +kernel)⟩

/-- Two states that differ in an entry out of bounds, and a command that completes from one of them; and one that
reads an unwritten operand. -/
theorem witness_OutcomeReadsOnlyOperandsInBounds :
    SameOperands (keyed 2 k2) { keyed 2 k2 with key := (keyed 2 k2).key.write (entryIndex 2 2) 9 }
      ∧ (keyed 2 k2).key ≠ (keyed 2 k2).key.write (entryIndex 2 2) 9
      ∧ (∃ t, exec .invkey (keyed 2 k2) = .next t)
      ∧ ∃ f, exec .det { State.reset with ndim := 2 } = .fault f :=
  ⟨⟨rfl, rfl, rfl, rfl, by decide, by decide, by decide, by decide⟩, by decide, exists_next (by decide +kernel),
    .unwrittenOperand, rfl⟩

theorem witness_CommandInProgressCompletes :
    (State.reset.issue 1).busy = true ∧ (State.reset.issue 1).rst = false := by decide

theorem witness_DimensionOutOfRangeStopsMvmulRmat :
    (keyed 1 []).dim < 2 ∧ (keyed 5 []).build.nMax < (keyed 5 []).dim := by decide

/-- The dimension below and above; the first entry unwritten; the last entry the first that is too large. -/
theorem witness_CheckKeyReportsTheFirstFailure :
    UsesKey .menc = true ∧ (keyed 1 []).dim < 2 ∧ (keyed 5 []).build.nMax < (keyed 5 []).dim
      ∧ (keyed 2 []).DimOk ∧ (keyed 2 []).key.read (8 * 0 + 0) = none
      ∧ (keyed 4 (k4.take 3 ++ [[1, 0, 0, 26]])).DimOk
      ∧ (∀ r' c', r' < 4 → c' < 4 → r' < 3 ∨ r' = 3 ∧ c' < 3 →
          (keyed 4 (k4.take 3 ++ [[1, 0, 0, 26]])).KeyEntryOk r' c')
      ∧ (keyed 4 (k4.take 3 ++ [[1, 0, 0, 26]])).key.read (8 * 3 + 3) = some 26#5
      ∧ 25 < (26#5 : BitVec 5).toNat := by
  refine ⟨by decide, by decide, by decide, by decide, by decide, by decide, ?_, by decide, by decide⟩
  intro r' c' hr hc
  interval_cases r' <;> interval_cases c' <;> decide

theorem witness_DeterminantIsTheLibrarysDeterminant : 1 ≤ 1 := le_refl 1

theorem witness_ExactResultsFitThirtyTwoBits :
    1 ≤ 5 ∧ 5 ≤ 5 ∧ ∀ i, i < 5 → ∀ j, j < 5 → 0 ≤ (fun i j => if i = j then 25 else 0 : Grid) i j
      ∧ (fun i j => if i = j then 25 else 0 : Grid) i j ≤ 25 := by
  refine ⟨by decide, by decide, fun i _ j _ => ?_⟩
  dsimp only
  split_ifs <;> decide

theorem witness_InverseKeyIdentity : 2 ≤ 2 ∧ modInverse (mod26 (det 2 (keyed 2 k2).keyGrid)) = some 3 := by
  decide +kernel

theorem witness_DetWritesTheDeterminant : (keyed 2 k2).KeyReady ∧ (keyed 4 k4).KeyReady := by decide +kernel

theorem witness_SubmWritesTheSubmatrix :
    (keyed 2 k2).KeyReady ∧ 1 < (keyed 2 k2).dim ∧ (keyed 4 k4).KeyReady ∧ 3 < (keyed 4 k4).dim := by decide +kernel

theorem witness_SubmAndCofRejectIndexesOutOfRange :
    (keyed 2 k2).KeyReady ∧ ((keyed 2 k2).dim ≤ 2 ∨ (keyed 2 k2).dim ≤ 0)
      ∧ ((keyed 2 k2).dim ≤ 0 ∨ (keyed 2 k2).dim ≤ 7) := by decide +kernel

theorem witness_CofWritesTheCofactor : (keyed 3 k3).KeyReady ∧ 2 < (keyed 3 k3).dim := by decide +kernel

theorem witness_AdjWritesTheAdjugate : (keyed 2 k2).KeyReady ∧ (keyed 4 k4).KeyReady := by decide +kernel

theorem witness_ModinvWritesTheInverse :
    Int.gcd (withOperand 0x7FFFFFFF).operand.toInt 26 = 1 ∧ Int.gcd (withOperand 0x80000000).operand.toInt 26 ≠ 1 := by
  decide +kernel

/-- A key with an inverse and one without. -/
theorem witness_InvkeyWritesTheInverseKey :
    ((keyed 2 k2).KeyReady ∧ (keyed 2 k2).KeyInvertible) ∧ (keyed 2 kBad).KeyReady ∧ ¬ (keyed 2 kBad).KeyInvertible :=
  ⟨⟨by decide +kernel, invertible_two (by decide) (by decide) (by decide) (by decide) (by decide)⟩,
    by decide +kernel, not_invertible_two (by decide) (by decide) (by decide) (by decide) (by decide)⟩

/-- RMAT written by ADJ, with the vector's entries at the edges 0 and 25. -/
def withRmat : State := (withVec (keyed 2 k2) [0, 25]).writeRmat 2 fun i j => intWord (adj 2 (keyed 2 k2).keyGrid i j)

theorem witness_MvmulWritesTheProduct :
    (withVec (keyed 3 k3) [0, 25, 11]).KeyReady ∧ (withVec (keyed 3 k3) [0, 25, 11]).VecReady
      ∧ withRmat.RmatReady ∧ withRmat.VecReady := by decide +kernel

/-- KEY and RMAT ready: the first VEC entry unwritten, the last one too large; then RMAT unwritten. -/
theorem witness_MvmulReportsTheFirstFailure :
    (keyed 2 k2).KeyReady ∧ 0 < (keyed 2 k2).dim ∧ (keyed 2 k2).vec.read 0 = none
      ∧ withRmat.RmatReady ∧ (∀ j', j' < 1 → (withVec withRmat [0, 26]).VecEntryOk j')
      ∧ (withVec withRmat [0, 26]).vec.read 1 = some 26#5 ∧ 25 < (26#5 : BitVec 5).toNat
      ∧ (keyed 2 k2).DimOk ∧ ∃ i j, i < (keyed 2 k2).dim ∧ j < (keyed 2 k2).dim
          ∧ (keyed 2 k2).rmat.read (8 * i + j) = none := by
  refine ⟨?_, ?_, ?_, ?_, ?_, ?_, ?_, ?_, 1, 1, ?_⟩ <;> decide +kernel

theorem witness_MencEncryptsTheBlock :
    (withText (keyed 2 k2) [0x41, 0x5A]).KeyReady ∧ (withText (keyed 2 k2) [0x41, 0x5A]).BlockReady := by
  decide +kernel

theorem witness_MdecDecryptsTheBlock :
    (withText (keyed 2 k2) [0x41, 0x5A]).KeyReady ∧ (withText (keyed 2 k2) [0x41, 0x5A]).KeyInvertible
      ∧ (withText (keyed 2 k2) [0x41, 0x5A]).BlockReady :=
  ⟨by decide +kernel, invertible_two (by decide) (by decide) (by decide) (by decide) (by decide), by decide +kernel⟩

/-- A length off by one; a key without inverse; a first byte unwritten; a last byte just outside the letters, at
either side. -/
theorem witness_MatrixCipherReportsTheFirstFailure :
    (withText (keyed 2 k2) [0x41]).KeyReady ∧ (withText (keyed 2 k2) [0x41]).textLen ≠ 2
      ∧ (withText (keyed 2 kBad) [0x41, 0x5A]).textLen = 2 ∧ ¬ (withText (keyed 2 kBad) [0x41, 0x5A]).KeyInvertible
      ∧ ({ keyed 2 k2 with inLen := 2 } : State).textLen = 2 ∧ ({ keyed 2 k2 with inLen := 2 } : State).KeyInvertible
      ∧ ({ keyed 2 k2 with inLen := 2 } : State).inBuf.read 0 = none
      ∧ (withText (keyed 2 k2) [0x41, 0x5B]).LetterOk 0 ∧ (withText (keyed 2 k2) [0x41, 0x5B]).inBuf.read 1 = some 0x5B#8
      ∧ 0x5A < (0x5B#8 : Byte).toNat ∧ (0x40#8 : Byte).toNat < 0x41 := by
  refine ⟨by decide +kernel, by decide, by decide, ?_, by decide, ?_, by decide, by decide, by decide, by decide,
    by decide⟩
  · exact not_invertible_two (by decide) (by decide) (by decide) (by decide) (by decide)
  · exact invertible_two (by decide) (by decide) (by decide) (by decide) (by decide)

theorem witness_MatrixCipherRoundTrip :
    ∃ s t s' : State, s.KeyReady ∧ s.KeyInvertible ∧ s.BlockReady ∧ exec .menc s = .next t ∧ SameKey s s'
      ∧ ∀ k, k < s.dim → s'.inBuf.read k = t.outBuf.read k := by
  obtain ⟨h1, h2, h3⟩ := witness_MdecDecryptsTheBlock
  obtain ⟨t, ht⟩ := exists_next (i := .menc) (s := withText (keyed 2 k2) [0x41, 0x5A]) (by decide +kernel)
  exact ⟨_, t, { withText (keyed 2 k2) [0x41, 0x5A] with inBuf := t.outBuf }, h1, h2, h3, ht,
    ⟨rfl, rfl, rfl, fun _ _ _ _ => rfl⟩, fun _ _ => rfl⟩

theorem witness_PosFindsExactlyTheSquaresLetters :
    Config.refBuild.square[5 * 4 + 4]? = some 0x5A#8 ∧ (0x40#8 : Byte).toNat < 0x41 ∧ 0x5A < (0x5B#8 : Byte).toNat := by
  decide

theorem witness_FindposWritesThePosition :
    Config.refBuild.square[5 * 4 + 4]? = some ((withOperand 0x5A).operand.setWidth 8)
      ∧ ¬ InSquare (withOperand 0x4A).build ((withOperand 0x4A).operand.setWidth 8) := by decide

/-- One pair for each case: a row, a column, a rectangle; and a letter with itself. -/
theorem witness_DgruleAppliesTheRule :
    Config.refBuild.square[5 * 0 + 0]? = some ((withOperand 0x4C50).operand.extractLsb' 0 8)
      ∧ Config.refBuild.square[5 * 0 + 1]? = some ((withOperand 0x4C50).operand.extractLsb' 8 8)
      ∧ Config.refBuild.square[5 * 1 + 0]? = some ((withOperand 0x4950).operand.extractLsb' 8 8)
      ∧ Config.refBuild.square[5 * 4 + 4]? = some ((withOperand 0x5A50).operand.extractLsb' 8 8) := by decide

theorem witness_DgruleReportsTheFirstLetterNotFound :
    ¬ InSquare Config.refBuild ((withOperand 0x414A).operand.extractLsb' 0 8)
      ∧ InSquare Config.refBuild ((withOperand 0x4A41).operand.extractLsb' 0 8)
      ∧ ¬ InSquare Config.refBuild ((withOperand 0x4A41).operand.extractLsb' 8 8) := by decide

theorem witness_DecUndoesEncOnEveryPair :
    (⟨4, 0⟩ : Position).row < 5 ∧ (⟨4, 0⟩ : Position).col < 5 ∧ (⟨0, 4⟩ : Position).row < 5
      ∧ (⟨0, 4⟩ : Position).col < 5 ∧ (⟨4, 0⟩ : Position).row ≠ (⟨0, 4⟩ : Position).row
      ∧ (⟨4, 0⟩ : Position).col ≠ (⟨0, 4⟩ : Position).col := by decide

theorem witness_NormalisedTextIsEvenAndUpperCase :
    ([0x41, 0x5A] : List Byte).length % 2 = 0 ∧ ∀ b ∈ ([0x41, 0x5A] : List Byte), 0x41 ≤ b.toNat ∧ b.toNat ≤ 0x5A := by
  decide

/-- The longest text of a small build and the empty text. -/
def longText : State := { withText State.reset [0x61, 0x42, 0x43] with build := smallBuild }

theorem witness_NormWritesTheNormalisedText :
    longText.TextReady ∧ longText.textLen = longText.build.textMax ∧ State.reset.TextReady := by decide +kernel

theorem witness_DencEncryptsTheNormalisedText :
    longText.TextReady ∧ ∀ b ∈ normalize longText.text, InSquare longText.build b := by decide +kernel

/-- The letter J at the last place of a text. -/
def jText : State := withText State.reset [0x41, 0x6A]

theorem witness_DencReportsTheFirstLetterNotFound :
    jText.TextReady ∧ 1 < (normalize jText.text).length
      ∧ (∀ k', k' < 1 → InSquare jText.build ((normalize jText.text).getD k' 0))
      ∧ ¬ InSquare jText.build ((normalize jText.text).getD 1 0) := by decide +kernel

theorem witness_DdecDecryptsTheText :
    (withText State.reset [0x41, 0x42]).TextReady ∧ (withText State.reset [0x41, 0x42]).textLen % 2 = 0
      ∧ ∀ k, k < (withText State.reset [0x41, 0x42]).textLen →
          InSquare Config.refBuild ((withText State.reset [0x41, 0x42]).inAt k) := by decide +kernel

/-- An odd length at TEXT_MAX; an even length with the first byte unwritten, and with the last not in the square. -/
theorem witness_DdecReportsTheFirstFailure :
    longText.textLen ≤ longText.build.textMax ∧ longText.textLen % 2 = 1
      ∧ ({ State.reset with inLen := 2 } : State).textLen % 2 = 0
      ∧ ({ State.reset with inLen := 2 } : State).inBuf.read 0 = none
      ∧ jText.textLen % 2 = 0 ∧ 1 < jText.textLen
      ∧ (∀ k', k' < 1 → ∃ b, jText.inBuf.read k' = some b ∧ InSquare jText.build b)
      ∧ jText.inBuf.read 1 = some 0x6A#8 ∧ ¬ InSquare jText.build 0x6A := by
  refine ⟨by decide, by decide, by decide, by decide, by decide, by decide, ?_, by decide, by decide⟩
  intro k' hk
  obtain rfl : k' = 0 := by omega
  exact ⟨0x41, by decide, by decide⟩

/-- One byte more than TEXT_MAX; exactly TEXT_MAX with the last byte unwritten. -/
theorem witness_TextCommandsCheckLengthThenRead :
    ({ longText with inLen := 4 } : State).build.textMax < ({ longText with inLen := 4 } : State).textLen
      ∧ ({ longText with inBuf := [(0, 0x41), (1, 0x41)] } : State).textLen ≤ smallBuild.textMax
      ∧ ∃ k, k < ({ longText with inBuf := [(0, 0x41), (1, 0x41)] } : State).textLen
          ∧ ({ longText with inBuf := [(0, 0x41), (1, 0x41)] } : State).inBuf.read k = none := by
  refine ⟨by decide, by decide, 2, by decide⟩

theorem witness_DigraphRoundTrip :
    ∃ s t s' : State, s.TextReady ∧ (∀ b ∈ normalize s.text, InSquare s.build b) ∧ exec .denc s = .next t
      ∧ s'.build = s.build ∧ s'.inLen = t.outLen ∧ (normalize s.text).length ≤ s.build.textMax
      ∧ ∀ k, k < (normalize s.text).length → s'.inBuf.read k = t.outBuf.read k := by
  obtain ⟨t, ht⟩ := exists_next (i := .denc) (s := withText State.reset [0x61, 0x62, 0x63]) (by decide +kernel)
  exact ⟨withText State.reset [0x61, 0x62, 0x63], t,
    { State.reset with inBuf := t.outBuf, inLen := t.outLen },
    by decide +kernel, by decide +kernel, ht, rfl, rfl, by decide +kernel, fun _ _ => rfl⟩

/-- The last aligned offset of the window, and the two registers that are written while busy. -/
theorem witness_WritesWhileBusyAreDropped :
    (State.reset.issue 1).busy = true ∧ 0x3FFC % 4 = 0 ∧ 0x3FFC < 0x4000 ∧ 0x3FFC ≠ 0x008 ∧ 0x3FFC ≠ 0x00C := by decide

/-- The edges of the ranges of read-only and reserved offsets. -/
theorem witness_ReadOnlyAndReservedWritesAreIgnored :
    ([0x028, 0x0FC, 0x200, 0x2FC, 0x320, 0xFFC, 0x2000, 0x3FFC] : List Nat).all
        (fun off => off % 4 == 0 && decide (0x028 ≤ off ∧ off < 0x100 ∨ 0x200 ≤ off ∧ off < 0x300
          ∨ 0x320 ≤ off ∧ off < 0x1000 ∨ 0x2000 ≤ off ∧ off < 0x4000)) = true
      ∧ (State.reset.build.nMax ≤ 4 ∧ 0x190 = 0x100 + 0x20 * 4 + 4 * 4)
      ∧ (State.reset.build.nMax ≤ 7 ∧ 0x31C = 0x300 + 4 * 7)
      ∧ (Config.refBuild.textMax + 3) / 4 ≤ 0x40 ∧ 0x40 < 0x400 := by decide

theorem witness_WrittenOperandsReadBack :
    State.reset.busy = false ∧ 3 < State.reset.build.nMax ∧ 63 < (State.reset.build.textMax + 3) / 4 := by decide

/-- A state with legal values; the last offset; reserved entries of the reference build at the edges. -/
theorem witness_ReservedBitsReadZero :
    State.reset.ValuesLegal ∧ 0x3FFC % 4 = 0 ∧ 0x3FFC < 0x4000
      ∧ (State.reset.build.nMax ≤ 4 ∧ State.reset.build.nMax ≤ 7)
      ∧ (State.reset.build.textMax + 3) / 4 ≤ 0x40 ∧ (State.reset.build.textMax + 4) / 4 ≤ 0x41 ∧ 0x41 < 0x400 := by
  decide

theorem witness_ReadsChangeNoRegister : 0x3FFC % 4 = 0 ∧ 0x3FFC < 0x4000 ∧ State.reset.busy = false := by decide

/-- A host about to make an access of two bytes at the last offset, and one about to write the last word. -/
theorem witness_BadAccessStopsTheHostAlone :
    State.reset.rst = false ∧ State.reset.host.halted = none ∧ 0x3FFF < 0x4000
      ∧ ({ State.reset with host := ⟨[.read 2 (.lit ((0x3FFF : Nat) : Int)) 0], 0, [], none⟩ } : State).host.program[0]?
          = some (.read 2 (.lit ((0x3FFF : Nat) : Int)) 0)
      ∧ 0x3FFC % 4 = 0
      ∧ ({ State.reset with
            host := ⟨[.write 4 (.lit ((0x3FFC : Nat) : Int)) (.lit ((0xFFFFFFFF#32).toNat : Int))], 0, [], none⟩ } :
          State).host.program[0]?
        = some (.write 4 (.lit ((0x3FFC : Nat) : Int)) (.lit ((0xFFFFFFFF#32).toNat : Int))) := by
  refine ⟨rfl, rfl, by decide, rfl, by decide, rfl⟩

/-- A completion with IE = 1; an idle core; a last aligned offset, and a dropped CMD write. -/
theorem witness_InterruptFollowsDoneAndEnable :
    (∃ t, coreStep ({ State.reset with ie := true }.issue 0) = .next t) ∧ State.reset.busy = false
      ∧ 0x3FFC % 4 = 0 ∧ 0x3FFC < 0x4000 ∧ (State.reset.issue 0).busy = true :=
  ⟨exists_core (by decide +kernel), by decide, by decide, by decide, by decide⟩

theorem exists_step {s : State} (p : State → Bool) (h : nextIs (step s) p = true) :
    ∃ t, step s = .next t ∧ p t = true := next_of_nextIs h

theorem witness_StepKeepsTheInvariant : State.reset.Inv ∧ ∃ t, step State.reset = .next t :=
  ⟨by unfold State.Inv; decide, State.reset, rfl⟩

theorem witness_KeySquareNeverChanges : ∃ t, step { State.reset with turns := [.rstAssert] } = .next t := ⟨_, rfl⟩

/-- A command in progress, and a host about to clear DONE. -/
def clearing : State := (State.reset.withProgram [wrOp 0x00C 2]).issue 0

/-- A completion by itself; and one in the same bus cycle as a host's clearing write. -/
theorem witness_DoneIsSetByCompletionsAlone :
    (∃ t, step (State.reset.issue 0) = .next t ∧ (State.reset.issue 0).done = false ∧ t.done = true)
      ∧ (∃ t, coreStep (State.reset.issue 0) = .next t)
      ∧ clearing.busy = true ∧ clearing.rst = false ∧ clearing.host.halted = none
      ∧ clearing.host.program[clearing.host.position]? = some (.write 4 (.lit 0x00C) (.lit ((2#32).toNat : Int)))
      ∧ ∃ t, takeTurn .sameCycle clearing = .next t ∧ t.done = true :=
  ⟨let ⟨t, h, hd⟩ := exists_step (s := State.reset.issue 0) (fun t => t.done) (by decide +kernel); ⟨t, h, rfl, hd⟩,
    exists_core (by decide +kernel), rfl, rfl, rfl, rfl,
    next_of_nextIs (p := fun t => t.done) (by decide +kernel)⟩

/-- Written entries and bytes of an idle core, at the edges of their files; the operands of a busy one. -/
theorem witness_RegistersReadTheirValues :
    ({ State.reset with rmat := [(27, 5)], rvec := [(3, 5)], outBuf := [(256, 0x41)] } : State).busy = false
      ∧ 3 < State.reset.build.nMax ∧ Memory.read [(27, (5 : Word))] (8 * 3 + 3) = some 5
      ∧ Memory.read [(3, (5 : BitVec 5))] 3 = some 5 ∧ 256 / 4 < (State.reset.build.textMax + 4) / 4
      ∧ Memory.read [(256, (0x41 : Byte))] 256 = some 0x41
      ∧ ((withVec (keyed 4 k4) [0, 1, 2, 3]).issue 1).busy = true
      ∧ ((withVec (keyed 4 k4) [0, 1, 2, 3]).issue 1).key.read (8 * 3 + 3) ≠ none
      ∧ ((withVec (keyed 4 k4) [0, 1, 2, 3]).issue 1).vec.read 3 = some 3
      ∧ 255 / 4 < (State.reset.build.textMax + 3) / 4 := by decide +kernel

/-- A busy core that stays busy, one that completes, and an idle one that is issued a command. -/
theorem witness_BusyLastsFromIssueToCompletion :
    (∃ t, step { State.reset.issue 0 with turns := [.host] } = .next t ∧ t.busy = true)
      ∧ (∃ t, step (State.reset.issue 0) = .next t ∧ (!t.busy) = true)
      ∧ ∃ t, step (State.reset.withProgram (expanded [.issue .nop])) = .next t ∧ t.busy = true :=
  ⟨exists_step (fun t => t.busy) (by decide +kernel), exists_step (fun t => !t.busy) (by decide +kernel),
    exists_step (fun t => t.busy) (by decide +kernel)⟩

/-- A result register that changes by a completion, and one that changes by reset. -/
theorem witness_OnlySuccessfulCommandsWriteResults :
    (∃ t, step ((keyed 2 k2).issue 1) = .next t ∧ decide (t.results ≠ (keyed 2 k2).results) = true)
      ∧ ∃ t, step { State.reset with resScalar := 1, turns := [.rstAssert] } = .next t
          ∧ decide (t.results ≠ ({ State.reset with resScalar := 1 } : State).results) = true :=
  ⟨exists_step (fun t => decide (t.results ≠ (keyed 2 k2).results)) (by decide +kernel),
    exists_step (fun t => decide (t.results ≠ ({ State.reset with resScalar := 1 } : State).results)) (by decide +kernel)⟩

theorem witness_OperandsStandStillWhileBusy :
    ∃ t, step ((keyed 2 k2).issue 1) = .next t ∧ ((keyed 2 k2).issue 1).busy = true ∧ (!t.rst) = true :=
  let ⟨t, h, hr⟩ := exists_step (s := (keyed 2 k2).issue 1) (fun t => !t.rst) (by decide +kernel)
  ⟨t, h, rfl, hr⟩

end Sys2Proof.Tests
end

/-! ## Host writes that change no register, and the DONE flag (10_state.md R36, R57, R58) -/

namespace Sys2Proof.Machine

/-! ### Host writes, by phase and by what stands at the offset -/

theorem busWrite_of_idle {s : State} (h : s.busy = false) (off : Nat) (v : Word) :
    busWrite off v s = regWrite s (regAt s.build off) v := by
  simp [busWrite, h]

theorem busWrite_of_busy {s : State} (h : s.busy = true) (off : Nat) (v : Word) :
    busWrite off v s = regWriteBusy s (regAt s.build off) v := by
  simp [busWrite, h]

/-- STATUS is written alike in both phases (R34, 70_reset_and_hazards.md R460). -/
theorem busWrite_status (v : Word) (s : State) : busWrite 0x00C v s = s.writeStatus v := by
  have hr : regAt s.build 0x00C = .status := regAt_scalar s.build (k := 3) (by decide)
  unfold busWrite
  rw [hr]
  exact ite_self _

theorem busWrite_cmd_of_idle {s : State} (h : s.busy = false) (w : Word) : busWrite 0x010 w s = s.issue w := by
  have hr : regAt s.build 0x010 = .cmd := regAt_scalar s.build (k := 4) (by decide)
  rw [busWrite_of_idle h, hr]
  rfl

/-- The read-only registers of R58, and the reserved offsets of R57. -/
def Reg.ignoresWrites : Reg → Bool
  | .ctrl | .status | .cmd | .ndim | .operand | .inLen | .key _ _ | .vec _ | .inWord _ => false
  | _ => true

theorem regWrite_of_ignoresWrites {r : Reg} (h : r.ignoresWrites = true) (s : State) (v : Word) :
    regWrite s r v = s := by
  cases r <;> simp [Reg.ignoresWrites] at h <;> rfl

theorem regWriteBusy_of_ignoresWrites {r : Reg} (h : r.ignoresWrites = true) (s : State) (v : Word) :
    regWriteBusy s r v = { s with wbusy := true } := by
  cases r <;> simp [Reg.ignoresWrites] at h <;> rfl

theorem busWrite_of_ignoresWrites {s : State} {off : Nat} (h : (regAt s.build off).ignoresWrites = true) (v : Word) :
    busWrite off v s = if s.busy then { s with wbusy := true } else s := by
  unfold busWrite
  rw [regWrite_of_ignoresWrites h, regWriteBusy_of_ignoresWrites h]

/-! ### Which offsets ignore writes -/

theorem ignoresWrites_ite {c : Prop} [Decidable c] {r : Reg} (h : r.ignoresWrites = true) :
    (if c then r else Reg.reserved).ignoresWrites = true := by
  split_ifs
  · exact h
  · rfl

/-- ID, CFG, ERRCODE and ERRINFO. -/
theorem regAt_identity_or_error_ignoresWrites (b : Build) {off : Nat} (h : off ∈ [0x000, 0x004, 0x014, 0x018]) :
    (regAt b off).ignoresWrites = true := by
  simp only [List.mem_cons, List.not_mem_nil, or_false] at h
  rcases h with rfl | rfl | rfl | rfl <;> rfl

/-- OUT_LEN, the RES registers and the gap after them. -/
theorem regAt_result_ignoresWrites (b : Build) {off : Nat} (h4 : off % 4 = 0) (h : 0x028 ≤ off ∧ off < 0x100) :
    (regAt b off).ignoresWrites = true := by
  by_cases hs : off < 0x03C
  · obtain ⟨k, hk, rfl⟩ : ∃ k, (10 ≤ k ∧ k < 15) ∧ off = 4 * k := ⟨off / 4, by omega, by omega⟩
    rw [regAt_scalar b (by omega)]
    obtain ⟨hlo, hhi⟩ := hk
    interval_cases k <;> rfl
  · rw [regAt_reserved b (by omega)]
    rfl

theorem regAt_rmat_file_ignoresWrites (b : Build) {off : Nat} (h4 : off % 4 = 0) (h : 0x200 ≤ off ∧ off < 0x300) :
    (regAt b off).ignoresWrites = true := by
  obtain ⟨i, j, hi, hj, rfl⟩ : ∃ i j, i < 8 ∧ j < 8 ∧ off = 0x200 + 0x20 * i + 4 * j :=
    ⟨(off - 0x200) / 0x20, off % 0x20 / 4, by omega, by omega, by omega⟩
  rw [regAt_rmat b hi hj]
  exact ignoresWrites_ite rfl

/-- RVEC, KSQ and the gaps around them. -/
theorem regAt_rvec_to_in_ignoresWrites (b : Build) {off : Nat} (h4 : off % 4 = 0) (h : 0x320 ≤ off ∧ off < 0x1000) :
    (regAt b off).ignoresWrites = true := by
  by_cases hv : off < 0x340
  · obtain ⟨j, hj, rfl⟩ : ∃ j, j < 8 ∧ off = 0x320 + 4 * j := ⟨(off - 0x320) / 4, by omega, by omega⟩
    rw [regAt_rvec b hj]
    exact ignoresWrites_ite rfl
  · by_cases hq : 0x380 ≤ off ∧ off < 0x39C
    · obtain ⟨w, hw, rfl⟩ : ∃ w, w < 7 ∧ off = 0x380 + 4 * w := ⟨(off - 0x380) / 4, by omega, by omega⟩
      rw [regAt_ksq b hw]
      rfl
    · rw [regAt_reserved b (by omega)]
      rfl

/-- OUT and all offsets after it. -/
theorem regAt_out_file_ignoresWrites (b : Build) {off : Nat} (h4 : off % 4 = 0) (h : 0x2000 ≤ off ∧ off < 0x4000) :
    (regAt b off).ignoresWrites = true := by
  by_cases ho : off < 0x3000
  · obtain ⟨w, hw, rfl⟩ : ∃ w, w < 0x400 ∧ off = 0x2000 + 4 * w := ⟨(off - 0x2000) / 4, by omega, by omega⟩
    rw [regAt_out b hw]
    exact ignoresWrites_ite rfl
  · rw [regAt_reserved b (by omega)]
    rfl

/-- KEY beyond the N_MAX × N_MAX block (R50). -/
theorem regAt_key_beyond (b : Build) {i j : Nat} (hi : i < 8) (hj : j < 8) (h : b.nMax ≤ i ∨ b.nMax ≤ j) :
    regAt b (0x100 + 0x20 * i + 4 * j) = .reserved := by
  rw [regAt_key b hi hj, if_neg (by omega)]

/-- VEC beyond N_MAX entries (R52). -/
theorem regAt_vec_beyond (b : Build) {j : Nat} (hj : j < 8) (h : b.nMax ≤ j) :
    regAt b (0x300 + 4 * j) = .reserved := by
  rw [regAt_vec b hj, if_neg (by omega)]

/-- IN beyond IN_WORDS words (R55). -/
theorem regAt_in_beyond (b : Build) {w : Nat} (hw : w < 0x400) (h : inWords b ≤ w) :
    regAt b (0x1000 + 4 * w) = .reserved := by
  rw [regAt_in b hw, if_neg (by omega)]

/-- Settles O47: each offset named holds a register that ignores writes, and STATUS holds only DONE and WBUSY
to be cleared. -/
theorem readOnlyAndReservedWritesAreIgnored : Obligations.ReadOnlyAndReservedWritesAreIgnored := by
  intro s v
  refine ⟨fun off h4 hoff => busWrite_of_ignoresWrites ?_ v, ?_, ?_⟩
  · rcases hoff with h | h | h | h | h | ⟨i, j, hi, hj, rfl, h⟩ | ⟨j, hj, rfl, h⟩ | ⟨w, hw, rfl, h⟩
    · exact regAt_identity_or_error_ignoresWrites s.build h
    · exact regAt_result_ignoresWrites s.build h4 h
    · exact regAt_rmat_file_ignoresWrites s.build h4 h
    · exact regAt_rvec_to_in_ignoresWrites s.build h4 h
    · exact regAt_out_file_ignoresWrites s.build h4 h
    · rw [regAt_key_beyond s.build hi hj h]; rfl
    · rw [regAt_vec_beyond s.build hj h]; rfl
    · rw [regAt_in_beyond s.build hw h]; rfl
  · rw [busWrite_status, State.writeStatus_seq]
  · rw [busWrite_status, State.writeStatus_errcode]

/-! ### DONE -/

/-- A completion sets DONE and clears BUSY (40_control.md R182). -/
theorem coreStep_completes {s t : State} (h : coreStep s = .next t) (hb : s.busy = true) :
    t.done = true ∧ t.busy = false := by
  rcases coreStep_next h with ⟨-, hi⟩ | ⟨q, rfl, -⟩ | ⟨c, x, -, -, rfl, -⟩
  · rw [hb] at hi; cases hi
  · exact ⟨State.finish_done _ _ _, State.finish_busy _ _ _⟩
  · exact ⟨State.finish_done _ _ _, State.finish_busy _ _ _⟩

/-- The completion of a bus cycle in which the host moves too comes last (log 6). -/
theorem coreTurn_hostStep_completes {s t : State} (h : coreTurn (hostStep s) = .next t)
    (hb : s.busy = true) (hr : s.rst = false) : t.done = true ∧ t.busy = false := by
  obtain ⟨hseq, hrst, -, -⟩ := hostStep_busy hb
  rw [coreTurn_run (hrst.trans hr)] at h
  exact coreStep_completes h ((busy_of_seq hseq).trans hb)

theorem takeTurn_sameCycle_of_busy {s : State} (hb : s.busy = true) :
    takeTurn .sameCycle s = coreTurn (hostStep s) := by
  simp [takeTurn, sameCycleTurn, hb]

/-- No host turn sets DONE. -/
theorem hostStep_done_of_clear {s : State} (h : s.done = false) : (hostStep s).done = false :=
  Bool.eq_false_iff.mpr fun hd => Bool.false_ne_true (h.symm.trans (hostStep_done hd))

/-- While rst is asserted the completion of a shared bus cycle does not happen (70_reset_and_hazards.md R450). -/
theorem coreTurn_hostStep_in_reset {s : State} (hr : s.rst = true) : coreTurn (hostStep s) = .next (hostStep s) := by
  obtain ⟨-, hrst, -, -⟩ := hostStep_frame s
  simp [coreTurn, hrst.trans hr]

/-- A step that takes DONE from 0 to 1 is a completion. -/
theorem step_raises_done {s t : State} (h : step s = .next t) (hs : s.done = false) (ht : t.done = true) :
    s.busy = true ∧ t.busy = false := by
  have clear_absurd : ∀ {u : State}, t = u → u.done = false → s.busy = true ∧ t.busy = false := by
    rintro u rfl hu
    exact absurd (hu.symm.trans ht) Bool.false_ne_true
  obtain ⟨ts, -, h⟩ := step_cases h
  have hhost : (hostStep { s with turns := ts }).done = false := hostStep_done_of_clear hs
  rcases h with ⟨host, -⟩ | nothing | ⟨hb, -, core, -⟩ | ⟨hb, -, sameCycle⟩ | ⟨rstAssert, -⟩ | ⟨rstRelease, -⟩
  · exact clear_absurd host hhost
  · exact clear_absurd nothing hs
  · exact ⟨hb, (coreStep_completes core hb).2⟩
  · cases hr : s.rst with
    | false => exact ⟨hb, (coreTurn_hostStep_completes sameCycle hb hr).2⟩
    | true =>
      have inReset := coreTurn_hostStep_in_reset (s := { s with turns := ts }) hr
      exact clear_absurd (Host.Outcome.next.inj (sameCycle.symm.trans inReset)) hhost
  · exact clear_absurd rstAssert rfl
  · exact clear_absurd rstRelease hs

/-- Settles O57: only `finish` sets DONE, and a completion is the last event of its bus cycle. -/
theorem doneIsSetByCompletionsAlone : Obligations.DoneIsSetByCompletionsAlone := by
  intro s t
  refine ⟨fun hb h => coreStep_completes h hb, step_raises_done, fun w hb => ?_, fun v => ?_, fun v hb hr _ _ h => ?_, rfl⟩
  · rw [busWrite_cmd_of_idle hb, State.issue_done]
  · rw [busWrite_status, State.writeStatus_done]
  · rw [takeTurn_sameCycle_of_busy hb] at h
    exact (coreTurn_hostStep_completes h hb hr).1

end Sys2Proof.Machine

/-! ## The host's turn at one bus access (20_memory.md R101) -/

namespace Sys2Proof.Machine

/-- The turn of a host that has not stopped is its next operation. -/
theorem hostStep_of_running {s : State} {op : HostOp} (hh : s.host.halted = none)
    (hp : s.host.program[s.host.position]? = some op) : hostStep s = hostOp op s := by
  simp only [hostStep, hh, hp]

/-- A bad read and a bad write stop the host alike: neither the value nor the name it carries matters. -/
theorem hostOp_bad_access {s : State} {width off x : Nat} {e : HostExpr} {op : HostOp} (hr : s.rst = false)
    (ho : off < 0x4000) (hop : op = .read width (.lit (off : Int)) x ∨ op = .write width (.lit (off : Int)) e)
    (bad : width ≠ 4 ∨ off % 4 ≠ 0) : hostOp op s = s.haltHost .busError := by
  rcases hop with rfl | rfl
  · exact hostOp_read_bad hr ho bad
  · exact hostOp_write_bad e hr ho bad

/-- Settles O52: the host's turn is the one operation, which either halts the host or is answered by the core. -/
theorem badAccessStopsTheHostAlone : Obligations.BadAccessStopsTheHostAlone := by
  intro s width off x e v op hr hh ho hop hp
  rw [hostStep_of_running hh hp]
  refine ⟨hostOp_bad_access hr ho hop, fun hw h4 => ?_⟩
  subst hw
  constructor
  · rintro rfl
    rw [hostOp_write_lit v hr ho h4, busWrite_advance]
    rfl
  · rintro rfl
    refine ⟨((busRead off s).1.toNat : Int), by simp, ?_⟩
    rw [hostOp_read_lit hr ho h4]
    rfl

end Sys2Proof.Machine

/-! ## Command words: the opcode map, and what an illegal word does (30_encoding.md R141 to R146) -/

namespace Sys2Proof.Machine

/-! ### The opcode field -/

theorem opField_and (v w : Word) : opField (v &&& w) = opField v &&& opField w :=
  BitVec.extractLsb'_and

/-- `w[7:0]` as R146 cuts it out of the word. -/
theorem and_opMask_eq (w : Word) : w &&& 0xFF#32 = (opField w).setWidth 32 := by
  apply BitVec.eq_of_toNat_eq
  have hmod : w.toNat &&& 255 = w.toNat % 256 := Nat.and_two_pow_sub_one_eq_mod _ 8
  simp [opField, hmod]
  omega

theorem toNat_and_opMask (w : Word) : (w &&& 0xFF#32).toNat = (opField w).toNat := by
  rw [and_opMask_eq, BitVec.toNat_setWidth_of_le (by decide)]

/-! ### The rows of the opcode map -/

/-- The mask and match columns of the map are R144's. -/
theorem maskMatch_eq_map : maskMatch = opcodeMap.map fun row => (row.mask, row.value) := rfl

theorem mem_maskMatch_iff {r : Word × Word} :
    r ∈ maskMatch ↔ ∃ row ∈ opcodeMap, (row.mask, row.value) = r := by
  rw [maskMatch_eq_map, List.mem_map]

/-- Every row's mask covers the whole opcode field, and its match value holds the row's opcode there. -/
theorem opField_of_mem_opcodeMap :
    ∀ row ∈ opcodeMap, opField row.mask = 0xFF ∧ opField row.value = row.op := by decide

theorem op_nodup : (opcodeMap.map OpcodeRow.op).Nodup := by decide

/-- The reserved opcodes are those no row has (R144, R146). -/
theorem op_not_reserved :
    ∀ row ∈ opcodeMap, row.op.toNat < 0x0A ∨ 0x0F < row.op.toNat ∧ row.op.toNat < 0x15 := by decide

theorem op_eq_of_match {row : OpcodeRow} (hrow : row ∈ opcodeMap) {w : Word} (h : w &&& row.mask = row.value) :
    row.op = opField w := by
  obtain ⟨hmask, hvalue⟩ := opField_of_mem_opcodeMap row hrow
  calc row.op = opField (w &&& row.mask) := by rw [h, hvalue]
    _ = opField w &&& BitVec.allOnes 8 := by rw [opField_and, hmask]; rfl
    _ = opField w := BitVec.and_allOnes

/-- The opcode field selects one row: opcodes are distinct. -/
theorem find_row_of_op {row : OpcodeRow} (hrow : row ∈ opcodeMap) {w : Word} (h : row.op = opField w) :
    opcodeMap.find? (fun r => r.op == opField w) = some row := by
  obtain ⟨found, hfind⟩ : ∃ found, opcodeMap.find? (fun r => r.op == opField w) = some found :=
    Option.isSome_iff_exists.mp (List.find?_isSome.mpr ⟨row, hrow, beq_iff_eq.mpr h⟩)
  have hop : found.op = opField w := beq_iff_eq.mp (List.find?_some hfind :)
  have hsame : found = row :=
    List.inj_on_of_nodup_map op_nodup (List.mem_of_find?_eq_some hfind) hrow (hop.trans h.symm)
  rw [hfind, hsame]

/-! ### The decoder -/

theorem decode_of_op {row : OpcodeRow} (hrow : row ∈ opcodeMap) {w : Word} (h : row.op = opField w) :
    decode w = if w &&& row.mask = row.value then .ok (row.command w) else .error .nonzeroUnusedBit := by
  simp only [decode, find_row_of_op hrow h]

theorem decode_of_reserved {w : Word} (h : ∀ row ∈ opcodeMap, row.op ≠ opField w) :
    decode w = .error .reservedOpcode := by
  have hnone : opcodeMap.find? (fun row => row.op == opField w) = none := by simpa using h
  simp only [decode, hnone]

theorem decode_eq_ok_iff {w : Word} {i : Instr} :
    decode w = .ok i ↔ ∃ row ∈ opcodeMap, w &&& row.mask = row.value ∧ row.command w = i := by
  constructor
  · intro h
    by_cases hop : ∃ row ∈ opcodeMap, row.op = opField w
    · obtain ⟨row, hrow, hop⟩ := hop
      rw [decode_of_op hrow hop] at h
      split_ifs at h with hmatch
      exact ⟨row, hrow, hmatch, Except.ok.inj h⟩
    · push Not at hop
      rw [decode_of_reserved hop] at h
      cases h
  · rintro ⟨row, hrow, hmatch, rfl⟩
    rw [decode_of_op hrow (op_eq_of_match hrow hmatch), if_pos hmatch]

/-- Settles O3: a match fixes the opcode field, and the opcode field selects the row the decoder checks. -/
theorem wordIsLegalExactlyByMaskAndMatch : Obligations.WordIsLegalExactlyByMaskAndMatch := by
  intro w
  constructor
  · rintro ⟨i, h⟩
    obtain ⟨row, hrow, hmatch, -⟩ := decode_eq_ok_iff.mp h
    exact ⟨_, mem_maskMatch_iff.mpr ⟨row, hrow, rfl⟩, hmatch⟩
  · rintro ⟨r, hr, hmatch⟩
    obtain ⟨row, hrow, rfl⟩ := mem_maskMatch_iff.mp hr
    exact ⟨_, decode_eq_ok_iff.mpr ⟨row, hrow, hmatch, rfl⟩⟩

/-! ### Illegal words -/

theorem decode_of_reserved_opcode {w : Word}
    (h : 0x0A ≤ (opField w).toNat ∧ (opField w).toNat ≤ 0x0F ∨ 0x15 ≤ (opField w).toNat) :
    decode w = .error .reservedOpcode := by
  refine decode_of_reserved fun row hrow hop => ?_
  have hknown := op_not_reserved row hrow
  rw [hop] at hknown
  omega

theorem decode_of_nonzero_unused_bit {row : OpcodeRow} (hrow : row ∈ opcodeMap) {w : Word}
    (hop : w &&& 0xFF#32 = row.value) (hbits : w &&& row.mask ≠ row.value) :
    decode w = .error .nonzeroUnusedBit := by
  have hfield : row.op = opField w := by
    rw [← (opField_of_mem_opcodeMap row hrow).2, ← hop, opField_and]
    exact BitVec.and_allOnes
  rw [decode_of_op hrow hfield, if_neg hbits]

/-- The completion of an illegal word in progress (40_control.md R181). -/
theorem coreStep_issue_illegal {w : Word} {e : DecodeError} (h : decode w = .error e) (s : State) :
    coreStep (s.issue w) = .next (s.ended 7 ((w &&& 0xFF#32).setWidth 16)) := by
  have hinfo : (w &&& 0xFF#32).setWidth 16 = (opField w).setWidth 16 := by
    rw [and_opMask_eq, BitVec.setWidth_setWidth_of_le _ (by decide)]
  rw [hinfo]
  simp only [coreStep, State.issue_latch, h]
  rfl

/-- Settles O5: no row has a reserved opcode, an unused bit fails its row's check, and the word completes with
an error alone. -/
theorem illegalCommandIssuesAndCompletes : Obligations.IllegalCommandIssuesAndCompletes := by
  refine ⟨fun w h => ?_, fun w r hr hop hbits => ?_, fun s w e he hidle => ?_⟩
  · rw [toNat_and_opMask] at h
    exact ⟨_, decode_of_reserved_opcode h⟩
  · obtain ⟨row, hrow, rfl⟩ := mem_maskMatch_iff.mp hr
    exact ⟨_, decode_of_nonzero_unused_bit hrow hop hbits⟩
  · rw [busWrite_cmd_of_idle hidle]
    exact ⟨State.issue_busy s w, coreStep_issue_illegal he s⟩

end Sys2Proof.Machine

/-! ## A host write of CMD, by phase (40_control.md R180) -/

namespace Sys2Proof.Machine

theorem busWrite_cmd_of_busy {s : State} (h : s.busy = true) (w : Word) :
    busWrite 0x010 w s = { s with wbusy := true } := by
  have hr : regAt s.build 0x010 = .cmd := regAt_scalar s.build (k := 4) (by decide)
  rw [busWrite_of_busy h, hr]
  rfl

/-- Settles O6: at CMD an idle core issues the word and a busy one drops it. -/
theorem commandWriteIssuesOrIsDropped : Obligations.CommandWriteIssuesOrIsDropped :=
  fun _ w => ⟨fun hidle => busWrite_cmd_of_idle hidle w, fun hbusy => busWrite_cmd_of_busy hbusy w⟩

end Sys2Proof.Machine

/-! ## The inverse key (41_linear_algebra.md R212) -/

namespace Sys2Proof.Machine

/-! ### The expansions as the library's determinant and adjugate -/

theorem gridMatrix_apply {n : Nat} (A : Grid) (i j : Fin n) : gridMatrix n A i j = A i j := rfl

/-- The expansion of R201 is the library's determinant; both are 1 at n = 0. -/
theorem det_eq_gridMatrix_det (n : Nat) (A : Grid) : det n A = (gridMatrix n A).det := by
  induction n, A using det.induct with
  | case1 A => simp [det]
  | case2 A => simp [det, gridMatrix_apply]
  | case3 A => simp [det, gridMatrix_apply, Matrix.det_fin_two]
  | case4 m A ih =>
    rw [det, sumTo_eq_sum, Matrix.det_succ_row_zero]
    refine Finset.sum_congr rfl fun i _ => ?_
    have minor : gridMatrix (m + 2) (sub A 0 i) = (gridMatrix (m + 3) A).submatrix Fin.succ i.succAbove := by
      rw [← Fin.succAbove_zero]
      exact gridMatrix_sub A 0 i
    rw [ih, minor, sign_eq_pow, Nat.zero_add]
    rfl

/-- The transposed cofactors of R206 are the library's adjugate. -/
theorem gridMatrix_adj (n : Nat) (A : Grid) : gridMatrix n (adj n A) = (gridMatrix n A).adjugate := by
  cases n with
  | zero => exact Subsingleton.elim _ _
  | succ n =>
    ext i j
    rw [Matrix.adjugate_fin_succ_eq_det_submatrix, ← gridMatrix_sub, ← det_eq_gridMatrix_det, ← sign_eq_pow]
    rfl

/-- A row of A times a column of adj(A). -/
theorem sumTo_mul_adj {n i j : Nat} (hi : i < n) (hj : j < n) (A : Grid) :
    (sumTo n fun l => A i l * adj n A l j) = if i = j then det n A else 0 := by
  have h := congrFun₂ (Matrix.mul_adjugate (gridMatrix n A)) ⟨i, hi⟩ ⟨j, hj⟩
  rw [← gridMatrix_adj, ← det_eq_gridMatrix_det, Matrix.mul_apply, Matrix.smul_apply, Matrix.one_apply,
    smul_eq_mul, mul_boole] at h
  simpa only [sumTo_eq_sum, gridMatrix_apply, Fin.mk.injEq] using h

/-! ### Residues -/

theorem mod26_eq_of_modEq {x y : Int} (h : x ≡ y [ZMOD 26]) : mod26 x = mod26 y :=
  congrArg Int.toNat h

theorem mod26_modEq (x : Int) : (mod26 x : Int) ≡ x [ZMOD 26] := by
  rw [mod26_cast]
  exact Int.mod_modEq x 26

theorem sumTo_modEq {n : Nat} {f g : Nat → Int} (h : ∀ l, f l ≡ g l [ZMOD 26]) :
    sumTo n f ≡ sumTo n g [ZMOD 26] := by
  rw [sumTo_eq_sum, sumTo_eq_sum]
  exact Int.ModEq.sum fun l _ => h l

/-- An entry of A · invKey(A) is k times that of A · adj(A), up to multiples of 26. -/
theorem sumTo_mul_invKey_modEq (n k : Nat) (A : Grid) (i j : Nat) :
    (sumTo n fun l => A i l * invKey n k A l j) ≡ k * sumTo n (fun l => A i l * adj n A l j) [ZMOD 26] := by
  have scaled : k * sumTo n (fun l => A i l * adj n A l j) = sumTo n fun l => A i l * (k * adj n A l j) := by
    simp only [sumTo_eq_sum, Finset.mul_sum, mul_left_comm]
  rw [scaled]
  exact sumTo_modEq fun l => (mod26_modEq (k * adj n A l j)).mul_left (A i l)

/-- An inverse of the residue of x is an inverse of x. -/
theorem mod26_mul_of_modInverse {x : Int} {k : Nat} (h : modInverse (mod26 x) = some k) : mod26 (k * x) = 1 := by
  obtain ⟨-, hk⟩ := modInverse_spec h
  rw [← hk, mul_comm]
  exact mod26_eq_of_modEq ((mod26_modEq x).symm.mul_right k)

/-- Settles O19: k times the library's A · adj(A) = det(A) · 1, where k · det(A) has residue 1. -/
theorem inverseKeyIdentity : Obligations.InverseKeyIdentity := by
  intro n k A _ hk i hi j hj
  rw [mod26_eq_of_modEq (sumTo_mul_invKey_modEq n k A i j), sumTo_mul_adj hi hj A]
  split_ifs
  · exact mod26_mul_of_modInverse hk
  · rw [mul_zero]
    rfl

end Sys2Proof.Machine

/-! ## The matrix cipher (42_matrix_cipher.md) -/

namespace Sys2Proof.Machine

/-! ### Letters and their values (00_scope.md R18) -/

theorem isUpper_iff (b : Byte) : isUpper b = true ↔ 0x41 ≤ b.toNat ∧ b.toNat ≤ 0x5A := by
  simp [isUpper]

theorem toNat_letter {v : Nat} (h : v < 26) : (letter v).toNat = 0x41 + v :=
  Nat.mod_eq_of_lt (by omega)

theorem isUpper_letter {v : Nat} (h : v < 26) : isUpper (letter v) = true := by
  rw [isUpper_iff, toNat_letter h]
  omega

theorem offset_letter {v : Nat} (h : v < 26) : offset (letter v) = v := by
  rw [offset, toNat_letter h]
  omega

theorem offset_lt {b : Byte} (h : isUpper b = true) : offset b < 26 := by
  rw [isUpper_iff] at h
  unfold offset
  omega

theorem letter_offset {b : Byte} (h : isUpper b = true) : letter (offset b) = b := by
  apply BitVec.eq_of_toNat_eq
  rw [toNat_letter (offset_lt h)]
  rw [isUpper_iff] at h
  unfold offset
  omega

theorem letter_eq_ofInt (v : Nat) : letter v = BitVec.ofInt 8 (0x41 + (v : Int)) :=
  (BitVec.ofInt_natCast 8 (0x41 + v)).symm

/-! ### The block in IN -/

/-- A ready byte is the one `inAt` reads, not its default. -/
theorem State.LetterOk.spec {s : State} {j : Nat} (h : s.LetterOk j) :
    s.inBuf.read j = some (s.inAt j) ∧ isUpper (s.inAt j) = true := by
  obtain ⟨b, hb, hu⟩ := (Option.any_eq_true _ _).mp h
  simp [State.inAt, hb, hu]

theorem State.letterOk_of_read {s : State} {j v : Nat} (h : s.inBuf.read j = some (letter v)) (hv : v < 26) :
    s.LetterOk j := by
  simp [State.LetterOk, h, isUpper_letter hv]

theorem State.blockAt_of_read {s : State} {j v : Nat} (h : s.inBuf.read j = some (letter v)) (hv : v < 26) :
    s.blockAt j = v := by
  simp [State.blockAt, State.inAt, h, offset_letter hv]

theorem State.LetterOk.blockAt_eq {s : State} {j : Nat} (h : s.LetterOk j) :
    s.blockAt j = ((s.inAt j).toNat : Int) - 0x41 := by
  have hu := (isUpper_iff _).mp h.spec.2
  simp only [State.blockAt, offset]
  omega

/-- A value of the block is its own residue. -/
theorem State.LetterOk.mod26_blockAt {s : State} {j : Nat} (h : s.LetterOk j) :
    mod26 (s.blockAt j) = offset (s.inAt j) := by
  have := offset_lt h.spec.2
  simp only [mod26, State.blockAt]
  omega

/-! ### The key over the integers mod 26 -/

/-- The n×n block of a grid over the integers mod 26. -/
def residueMatrix (n : Nat) (A : Grid) : Matrix (Fin n) (Fin n) (ZMod 26) :=
  (gridMatrix n A).map fun x => (x : ZMod 26)

theorem natCast_mod26 (x : Int) : (mod26 x : ZMod 26) = (x : ZMod 26) := by
  rw [← Int.cast_natCast]
  exact (ZMod.intCast_eq_intCast_iff _ _ 26).mpr (mod26_modEq x)

/-- Residues that are equal mod 26 are equal. -/
theorem mod26_eq_of_zmod_eq {x y : Int} (h : (x : ZMod 26) = y) : mod26 x = mod26 y :=
  mod26_eq_of_modEq ((ZMod.intCast_eq_intCast_iff x y 26).mp h)

theorem mvmod_cast (n : Nat) (A : Grid) (v : Nat → Int) (i : Fin n) :
    (mvmod n A v i : Int) = (gridMatrix n A).mulVec (fun j => v j) i % 26 := by
  rw [mvmod, mod26_cast, sumTo_eq_sum]
  rfl

theorem intCast_sumTo_mul {n : Nat} (A : Grid) (v : Nat → Int) (i : Fin n) :
    ((sumTo n fun j => A i j * v j : Int) : ZMod 26) = (residueMatrix n A).mulVec (fun j => (v j : ZMod 26)) i := by
  rw [sumTo_eq_sum, Int.cast_sum]
  exact Finset.sum_congr rfl fun j _ => Int.cast_mul _ _

/-- The inverse key is an inverse mod 26 (41_linear_algebra.md R212). -/
theorem residueMatrix_mul_invKey {n k : Nat} {A : Grid} (hn : 2 ≤ n) (hk : modInverse (mod26 (det n A)) = some k) :
    residueMatrix n A * residueMatrix n (invKey n k A) = 1 := by
  ext i j
  have identity := inverseKeyIdentity n k A hn hk i i.isLt j j.isLt
  calc (residueMatrix n A * residueMatrix n (invKey n k A)) i j
      = ((sumTo n fun l => A i l * invKey n k A l j : Int) : ZMod 26) :=
        (intCast_sumTo_mul A (fun l => invKey n k A l j) i).symm
    _ = (1 : Matrix (Fin n) (Fin n) (ZMod 26)) i j := by
        rw [← natCast_mod26, identity]
        simp [Matrix.one_apply, Fin.ext_iff]

/-- Multiplying by a matrix and then by its inverse mod 26 gives the residues of the vector. -/
theorem mvmod_of_mul_eq_one {n : Nat} {A B : Grid} {v w : Nat → Int} (h : residueMatrix n A * residueMatrix n B = 1)
    (hw : ∀ j : Fin n, w j = mvmod n B v j) (i : Fin n) : mvmod n A w i = mod26 (v i) := by
  have inner : (fun j : Fin n => (w j : ZMod 26)) = (residueMatrix n B).mulVec fun j => (v j : ZMod 26) := by
    funext j
    rw [hw, Int.cast_natCast, mvmod, natCast_mod26, intCast_sumTo_mul]
  apply mod26_eq_of_zmod_eq
  rw [intCast_sumTo_mul, inner, Matrix.mulVec_mulVec, h, Matrix.one_mulVec]

/-! ### Invertible keys (41_linear_algebra.md R210) -/

/-- An integer has an inverse mod 26 exactly when it is coprime with 26. -/
theorem modInverse_mod26_isSome_iff (x : Int) : (modInverse (mod26 x)).isSome = true ↔ Int.gcd x 26 = 1 := by
  have residue : Nat.gcd (mod26 x) 26 = Int.gcd x 26 := by
    rw [← Int.gcd_natCast_natCast, mod26_cast]
    exact Int.gcd_emod x 26
  rw [modInverse_isSome_iff _ (mod26_lt x), residue]

theorem keyInvertible_iff (s : State) :
    s.KeyInvertible ↔ (modInverse (mod26 (det s.dim s.keyGrid))).isSome = true := by
  rw [modInverse_mod26_isSome_iff, det_eq_gridMatrix_det]

theorem State.KeyInvertible.exists_modInverse {s : State} (h : s.KeyInvertible) :
    ∃ k, modInverse (mod26 (det s.dim s.keyGrid)) = some k :=
  Option.isSome_iff_exists.mp ((keyInvertible_iff s).mp h)

theorem modInverse_of_not_keyInvertible {s : State} (h : ¬ s.KeyInvertible) :
    modInverse (mod26 (det s.dim s.keyGrid)) = none :=
  Option.not_isSome_iff_eq_none.mp ((keyInvertible_iff s).not.mp h)

/-! ### A completion that writes a block -/

/-- A command that ends by writing a block of letters to OUT changes OUT_LEN and the first n bytes of OUT alone. -/
theorem completes_of_writeOut_blockText {i : Instr} {s : State} {u : Nat → Nat}
    (h : exec i s = .next ((s.writeOut (blockText s.dim u)).finish 0 0)) :
    ∃ m : Memory Byte, Completes i s { s with outBuf := m, outLen := BitVec.ofNat 16 s.dim }
      ∧ (∀ j, j < s.dim → m.read j = some (letter (u j))) ∧ ∀ x, s.dim ≤ x → m.read x = s.outBuf.read x := by
  have hlen : (blockText s.dim u).length = s.dim := by simp [blockText]
  refine ⟨(s.writeOut (blockText s.dim u)).outBuf, ?_, fun j hj => ?_, fun x hx => ?_⟩
  · have houtLen : BitVec.ofNat 16 s.dim = half (blockText s.dim u).length := congrArg half hlen.symm
    rw [Completes, h, houtLen]
    rfl
  · rw [State.writeOut_outBuf, Memory.read_writeRange, if_pos (by omega)]
    simp [blockText, hj]
  · rw [State.writeOut_outBuf, Memory.read_writeRange, if_neg (by omega)]

/-- Settles O29: MENC writes the letters of mvmod(K, p), and mvmod is the library's product mod 26. -/
theorem mencEncryptsTheBlock : Obligations.MencEncryptsTheBlock := by
  intro s hk hb
  have ⟨_, letters⟩ := hb
  obtain ⟨m, hc, hm, hrest⟩ := completes_of_writeOut_blockText (i := .menc) (execMenc_ready s hk hb)
  refine ⟨m, hc, fun i => ?_, hrest⟩
  have block : (fun j : Fin s.dim => s.blockAt j) = fun j : Fin s.dim => ((s.inAt j).toNat : Int) - 0x41 :=
    funext fun j => (letters j j.isLt).blockAt_eq
  rw [hm i i.isLt, letter_eq_ofInt, mvmod_cast, block]

/-- Settles O30: p = mvmod(invKey(K), c), and K · invKey(K) is 1 mod 26. -/
theorem mdecDecryptsTheBlock : Obligations.MdecDecryptsTheBlock := by
  intro s hk hinv hb
  have ⟨⟨two_le, _⟩, _⟩ := hk
  have ⟨_, letters⟩ := hb
  obtain ⟨k, hdet⟩ := hinv.exists_modInverse
  obtain ⟨m, hc, hm, hrest⟩ := completes_of_writeOut_blockText (i := .mdec) (execMdec_ready s k hk hb hdet)
  refine ⟨m, hc, ⟨fun i => mvmod s.dim (invKey s.dim k s.keyGrid) s.blockAt i,
    fun i => ⟨mod26_lt _, hm i i.isLt⟩, fun i => ?_⟩, hrest⟩
  have hi : s.LetterOk i := letters i i.isLt
  have cancel := mvmod_of_mul_eq_one (residueMatrix_mul_invKey two_le hdet) (v := s.blockAt)
    (w := fun j => mvmod s.dim (invKey s.dim k s.keyGrid) s.blockAt j) (fun _ => rfl) i
  rw [← mvmod_cast s.dim s.keyGrid fun j => mvmod s.dim (invKey s.dim k s.keyGrid) s.blockAt j, cancel,
    hi.mod26_blockAt, ← hi.blockAt_eq]
  rfl

/-! ### The failures, in order (42_matrix_cipher.md R261 to R263) -/

theorem checkBlock_error {s : State} (h : s.textLen ≠ s.dim) :
    checkBlock s = .error (.raise .invalidBlockLength s.inLen) := by
  rw [checkBlock, beq_eq_false_iff_ne.mpr h, require_false]

theorem checkLetter_ok_iff (s : State) (j : Nat) : checkLetter s j = .ok () ↔ s.LetterOk j := by
  rw [checkLetter_eq, State.LetterOk]
  cases s.inBuf.read j with
  | none => simp
  | some b => by_cases h : isUpper b <;> simp [h]

/-- The character loop stops at the first byte that is not ready. -/
theorem checkLetters_error {s : State} {j : Nat} {e : Stop} (hj : j < s.dim) (before : ∀ j', j' < j → s.LetterOk j')
    (he : checkLetter s j = .error e) : checkLetters s = .error e :=
  (scan_error_iff _ _ _ _).mpr
    ⟨j, Nat.zero_le j, by omega, he, fun j' _ hj' => (checkLetter_ok_iff s j').mpr (before j' hj')⟩

theorem checkLetter_unwritten {s : State} {j : Nat} (h : s.inBuf.read j = none) :
    checkLetter s j = .error (.fault .unwrittenOperand) := by
  rw [checkLetter_eq, h]

theorem checkLetter_not_upper {s : State} {j : Nat} {b : Byte} (h : s.inBuf.read j = some b)
    (hb : ¬ isUpper b = true) : checkLetter s j = .error (.raise .invalidCharacter (half j)) := by
  rw [checkLetter_eq, h]
  exact if_neg hb

/-- Both commands check the length right after the key. -/
theorem exec_of_wrong_length {i : Instr} {s : State} (hk : s.KeyReady) (h : s.textLen ≠ s.dim)
    (hi : i = .menc ∨ i = .mdec) : exec i s = conclude s (.error (.raise .invalidBlockLength s.inLen)) := by
  rcases hi with rfl | rfl
  · simp [exec, execMenc, (checkKey_ok_iff s).mpr hk, checkBlock_error h]
  · simp [exec, execMdec, (checkKey_ok_iff s).mpr hk, checkBlock_error h]

/-- MDEC checks the inverse before the characters. -/
theorem execMdec_of_not_keyInvertible {s : State} (hk : s.KeyReady) (hlen : s.textLen = s.dim)
    (h : ¬ s.KeyInvertible) :
    execMdec s = conclude s (.error (.raise .notInvertible (half (mod26 (det s.dim s.keyGrid))))) := by
  simp [execMdec, (checkKey_ok_iff s).mpr hk, (checkBlock_ok_iff s).mpr hlen,
    requireInverse_none (modInverse_of_not_keyInvertible h)]

/-- Past the length and (MDEC) the inverse, the command stops as its character loop does. -/
theorem exec_of_checkLetters_error {i : Instr} {s : State} {e : Stop} (hk : s.KeyReady) (hlen : s.textLen = s.dim)
    (hi : i = .menc ∨ i = .mdec ∧ s.KeyInvertible) (he : checkLetters s = .error e) :
    exec i s = conclude s (.error e) := by
  rcases hi with rfl | ⟨rfl, hinv⟩
  · simp [exec, execMenc, (checkKey_ok_iff s).mpr hk, (checkBlock_ok_iff s).mpr hlen, he]
  · obtain ⟨k, hdet⟩ := hinv.exists_modInverse
    simp [exec, execMdec, (checkKey_ok_iff s).mpr hk, (checkBlock_ok_iff s).mpr hlen, requireInverse_some hdet, he]

theorem half_mod26 (x : Int) : half (mod26 x) = BitVec.ofInt 16 (x % 26) := by
  rw [← mod26_cast, BitVec.ofInt_natCast]
  rfl

/-- Settles O31: each check that fails ends the command, and the earlier ones have passed. -/
theorem matrixCipherReportsTheFirstFailure : Obligations.MatrixCipherReportsTheFirstFailure := by
  intro s hk
  refine ⟨fun h => ⟨exec_of_wrong_length hk h (.inl rfl), exec_of_wrong_length hk h (.inr rfl)⟩,
    fun hlen h => ?_, fun i j hlen hi hj before => ⟨fun hnone => ?_, fun b hsome hb => ?_⟩⟩
  · rw [← half_mod26, ← det_eq_gridMatrix_det]
    exact execMdec_of_not_keyInvertible hk hlen h
  · exact exec_of_checkLetters_error hk hlen hi (checkLetters_error hj before (checkLetter_unwritten hnone))
  · have hup : ¬ isUpper b = true := by
      rw [isUpper_iff]
      omega
    exact exec_of_checkLetters_error hk hlen hi (checkLetters_error hj before (checkLetter_not_upper hsome hup))

/-! ### The round trip (42_matrix_cipher.md R264) -/

namespace SameKey

variable {s t : State} (h : SameKey s t)
include h

theorem dim_eq : t.dim = s.dim := congrArg BitVec.toNat h.ndim.symm

theorem textLen_eq : t.textLen = s.textLen := congrArg BitVec.toNat h.inLen.symm

theorem gridMatrix_eq : gridMatrix s.dim t.keyGrid = gridMatrix s.dim s.keyGrid := by
  ext i j
  simp only [gridMatrix_apply, State.keyGrid, h.key i i.isLt j j.isLt]

theorem det_eq : det t.dim t.keyGrid = det s.dim s.keyGrid := by
  rw [h.dim_eq, det_eq_gridMatrix_det, det_eq_gridMatrix_det, h.gridMatrix_eq]

theorem keyReady (hk : s.KeyReady) : t.KeyReady := by
  obtain ⟨hdim, hkey⟩ := hk
  refine ⟨?_, fun i hi j hj => ?_⟩
  · rwa [State.DimOk, h.dim_eq, ← h.build]
  · rw [h.dim_eq] at hi hj
    rw [State.KeyEntryOk, ← h.key i hi j hj]
    exact hkey i hi j hj

/-- The inverse key computed from `t` undoes the key of `s`: a one-sided inverse of a square matrix is two-sided. -/
theorem invKey_mul {k : Nat} (hn : 2 ≤ s.dim) (hdet : modInverse (mod26 (det t.dim t.keyGrid)) = some k) :
    residueMatrix s.dim (invKey s.dim k t.keyGrid) * residueMatrix s.dim s.keyGrid = 1 := by
  rw [mul_eq_one_comm, residueMatrix, ← h.gridMatrix_eq]
  rw [h.dim_eq] at hdet
  exact residueMatrix_mul_invKey hn hdet

end SameKey

theorem toNat_ofNat_dim (s : State) : (BitVec.ofNat 16 s.dim).toNat = s.dim :=
  Nat.mod_eq_of_lt (s.ndim.isLt.trans (by decide))

/-- Settles O32: invKey(K) · K is 1 mod 26 too, so MDEC gives the values of the block back. -/
theorem matrixCipherRoundTrip : Obligations.MatrixCipherRoundTrip := by
  intro s t s' hk hinv hb henc same hin
  have ⟨⟨two_le, _⟩, _⟩ := hk
  have ⟨length, letters⟩ := hb
  obtain ⟨k, hdet⟩ := hinv.exists_modInverse
  rw [← same.det_eq] at hdet
  obtain ⟨m, hc, hm, -⟩ := completes_of_writeOut_blockText (i := .menc) (execMenc_ready s hk hb)
  obtain rfl := Host.Outcome.next.inj (henc.symm.trans hc)
  have cipher : ∀ j, j < s.dim → s'.inBuf.read j = some (letter (mvmod s.dim s.keyGrid s.blockAt j)) :=
    fun j hj => (hin j hj).trans (hm j hj)
  have hb' : s'.BlockReady := by
    rw [State.BlockReady, same.textLen_eq, same.dim_eq]
    exact ⟨length, fun j hj => State.letterOk_of_read (cipher j hj) (mod26_lt _)⟩
  obtain ⟨m', hc', hm', -⟩ := completes_of_writeOut_blockText (i := .mdec)
    (execMdec_ready s' k (same.keyReady hk) hb' hdet)
  rw [same.dim_eq] at hc' hm'
  refine ⟨_, hc', rfl, toNat_ofNat_dim s, fun j hj => ?_⟩
  have letter_j : s.LetterOk j := letters j hj
  have plain : mvmod s.dim (invKey s.dim k s'.keyGrid) s'.blockAt j = offset (s.inAt j) := by
    rw [← letter_j.mod26_blockAt]
    exact mvmod_of_mul_eq_one (same.invKey_mul two_le hdet)
      (fun l => State.blockAt_of_read (cipher l l.isLt) (mod26_lt _)) ⟨j, hj⟩
  obtain ⟨hread, hupper⟩ := letter_j.spec
  calc m'.read j = some (letter (offset (s.inAt j))) := by rw [hm' j hj, plain]
    _ = s.inBuf.read j := by rw [letter_offset hupper, hread]

end Sys2Proof.Machine

/-! ## The key-square lookup (43_key_square.md) -/

namespace Sys2Proof.Machine

/-! ### SQ and pos against the sequence KEY_SQUARE -/

theorem sq_eq_iff (b : Build) {r c : Nat} (hr : r < 5) (hc : c < 5) (x : Byte) :
    sq b r c = x ↔ b.square[5 * r + c]? = some x := by
  have hlt : 5 * r + c < b.square.length := by rw [b.square_length]; omega
  simp [sq, hlt]

/-- A byte stands in at most one place of the square: its letters are distinct (00_scope.md R7). -/
theorem square_index_unique {b : Build} {x : Byte} {i j : Nat} (hi : b.square[i]? = some x)
    (hj : b.square[j]? = some x) : i = j := by
  obtain ⟨hlt, -⟩ := List.getElem?_eq_some_iff.mp hi
  exact (List.getElem?_inj hlt b.square_nodup).mp (hi.trans hj.symm)

/-- The scan of R290 meets place `k` of the sequence at row k / 5 and column k mod 5. -/
theorem sq_scan_eq_iff (b : Build) {k : Nat} (hk : k < 25) (x : Byte) :
    sq b (k / 5) (k % 5) = x ↔ b.square[k]? = some x := by
  rw [sq_eq_iff b (by omega) (by omega), Nat.div_add_mod]

theorem inSquare_iff_exists_index (b : Build) (x : Byte) :
    InSquare b x ↔ ∃ k, k < 25 ∧ b.square[k]? = some x := by
  rw [InSquare, List.mem_iff_getElem?]
  refine exists_congr fun k => (and_iff_right_of_imp fun h => ?_).symm
  rw [← b.square_length]
  exact (List.getElem?_eq_some_iff.mp h).1

/-- The first match in row-major order is the only one. -/
theorem pos_eq_some_iff (b : Build) (x : Byte) (p : Position) :
    pos b x = some p ↔ p.row < 5 ∧ p.col < 5 ∧ b.square[5 * p.row + p.col]? = some x := by
  obtain ⟨row, col⟩ := p
  simp only [pos, Option.map_eq_some_iff, List.find?_range_eq_some, List.mem_range, beq_iff_eq, Position.mk.injEq]
  constructor
  · rintro ⟨k, ⟨hmatch, hk, -⟩, rfl, rfl⟩
    have hrow : k / 5 < 5 := by omega
    have hcol : k % 5 < 5 := by omega
    exact ⟨hrow, hcol, (sq_eq_iff b hrow hcol x).mp hmatch⟩
  · rintro ⟨hrow, hcol, hsquare⟩
    have hk : 5 * row + col < 25 := by omega
    refine ⟨5 * row + col, ⟨(sq_scan_eq_iff b hk x).mpr hsquare, hk, fun j hj => ?_⟩, by omega, by omega⟩
    have hne : sq b (j / 5) (j % 5) ≠ x := fun hmatch =>
      hj.ne (square_index_unique ((sq_scan_eq_iff b (hj.trans hk) x).mp hmatch) hsquare)
    simpa using hne

theorem pos_eq_none_iff (b : Build) (x : Byte) : pos b x = none ↔ ¬ InSquare b x := by
  rw [inSquare_iff_exists_index]
  simp only [pos, Option.map_eq_none_iff, List.find?_eq_none, List.mem_range, beq_iff_eq, not_exists, not_and]
  exact forall₂_congr fun k hk => (sq_scan_eq_iff b hk x).not

/-- 'J' and every byte that is no upper-case letter stand in no legal square (R291). -/
theorem not_inSquare_of_not_letter (b : Build) {x : Byte} (h : x = 0x4A ∨ x.toNat < 0x41 ∨ 0x5A < x.toNat) :
    ¬ InSquare b x := by
  intro hmem
  obtain ⟨lower, upper, notJ⟩ := b.square_letter hmem
  rcases h with rfl | h | h
  · exact notJ rfl
  · omega
  · omega

/-- Settles O33: the scan finds the one place of a letter, and only letters other than 'J' have one. -/
theorem posFindsExactlyTheSquaresLetters : Obligations.PosFindsExactlyTheSquaresLetters :=
  fun b c => ⟨pos_eq_some_iff b c, fun h => (pos_eq_none_iff b c).mpr (not_inSquare_of_not_letter b h)⟩

/-! ### FINDPOS (R292) -/

theorem operandByte0_eq_setWidth (s : State) : s.operandByte0 = s.operand.setWidth 8 :=
  (BitVec.setWidth_eq_extractLsb' (by decide)).symm

/-- A field shifted past the bits below it adds to them. -/
theorem ofNat_or_shiftLeft {w a k : Nat} (h : a < 2 ^ k) (b : Nat) :
    BitVec.ofNat w a ||| BitVec.ofNat w b <<< k = BitVec.ofNat w (a + 2 ^ k * b) := by
  have hshift : BitVec.ofNat w b <<< k = BitVec.ofNat w (2 ^ k * b) := by
    apply BitVec.eq_of_toNat_eq
    simp [Nat.shiftLeft_eq, Nat.mul_comm]
  rw [hshift, ← BitVec.ofNat_or, Nat.or_comm, ← Nat.two_pow_add_eq_or_of_lt h, Nat.add_comm]

/-- RES_POS as a number: its fields do not overlap (10_state.md R48). -/
theorem posWord_eq_ofNat {p1 p2 : Position} (hr1 : p1.row < 5) (hc1 : p1.col < 5) (hr2 : p2.row < 5) :
    posWord p1 p2 = BitVec.ofNat 32 (p1.row + 0x10 * p1.col + 0x100 * p2.row + 0x1000 * p2.col) := by
  rw [posWord, ofNat_or_shiftLeft (by omega), ofNat_or_shiftLeft (by omega), ofNat_or_shiftLeft (by omega)]
  rfl

theorem completes_findpos_of_pos {s : State} {p : Position} (h : pos s.build s.operandByte0 = some p) :
    Completes .findpos s { s with resPos := posWord p ⟨0, 0⟩ } := by
  simp only [Completes, exec, execFindpos, lookup_some h]
  rfl

theorem raises_findpos_of_pos_none {s : State} (h : pos s.build s.operandByte0 = none) :
    Raises .findpos s 3 0 := by
  simp only [Raises, exec, execFindpos, lookup_none h]
  rfl

/-- Settles O34: FINDPOS ends as pos of its byte does. -/
theorem findposWritesThePosition : Obligations.FindposWritesThePosition := by
  intro s
  rw [← operandByte0_eq_setWidth]
  refine ⟨fun r c hr hc hsquare => ?_, fun habsent => ?_⟩
  · have found : pos s.build s.operandByte0 = some ⟨r, c⟩ := (pos_eq_some_iff _ _ _).mpr ⟨hr, hc, hsquare⟩
    have word : posWord ⟨r, c⟩ ⟨0, 0⟩ = BitVec.ofNat 32 (r + 16 * c) := posWord_eq_ofNat hr hc (by decide)
    rw [← word]
    exact completes_findpos_of_pos found
  · exact raises_findpos_of_pos_none ((pos_eq_none_iff _ _).mpr habsent)

end Sys2Proof.Machine

/-! ## The substitution rule (44_digraph_cipher.md) -/

namespace Sys2Proof.Machine

/-! ### The three cases of subst (R310, R311) -/

theorem square_getElem?_eq_sq (b : Build) {r c : Nat} (hr : r < 5) (hc : c < 5) :
    b.square[5 * r + c]? = some (sq b r c) :=
  (sq_eq_iff b hr hc _).mp rfl

/-- pos undoes SQ. -/
theorem pos_sq (b : Build) {r c : Nat} (hr : r < 5) (hc : c < 5) : pos b (sq b r c) = some ⟨r, c⟩ :=
  (pos_eq_some_iff b _ _).mpr ⟨hr, hc, square_getElem?_eq_sq b hr hc⟩

/-- A shifted row or column stays in the square. -/
theorem shift_lt (x : Nat) (d : Direction) : (x + Direction.shift d) % 5 < 5 := Nat.mod_lt _ (by decide)

theorem subst_sameRow (b : Build) (r c1 c2 : Nat) (d : Direction) :
    subst b ⟨r, c1⟩ ⟨r, c2⟩ d
      = ⟨sq b r ((c1 + Direction.shift d) % 5), sq b r ((c2 + Direction.shift d) % 5), 0⟩ :=
  if_pos rfl

theorem subst_sameCol (b : Build) {r1 r2 : Nat} (hr : r1 ≠ r2) (c : Nat) (d : Direction) :
    subst b ⟨r1, c⟩ ⟨r2, c⟩ d
      = ⟨sq b ((r1 + Direction.shift d) % 5) c, sq b ((r2 + Direction.shift d) % 5) c, 1⟩ :=
  (if_neg hr).trans (if_pos rfl)

theorem subst_rectangle (b : Build) {r1 c1 r2 c2 : Nat} (hr : r1 ≠ r2) (hc : c1 ≠ c2) (d : Direction) :
    subst b ⟨r1, c1⟩ ⟨r2, c2⟩ d = ⟨sq b r1 c2, sq b r2 c1, 2⟩ :=
  (if_neg hr).trans (if_neg hc)

/-! ### DGRULE (R313) -/

/-- RES_PAIR as a number: its fields do not overlap (10_state.md R49). -/
theorem pairWord_eq_ofNat (p : Pair) :
    pairWord p = BitVec.ofNat 32 (p.out1.toNat + 0x100 * p.out2.toNat + 0x10000 * p.case) := by
  have h1 := p.out1.isLt
  have h2 := p.out2.isLt
  simp only [pairWord, BitVec.zeroExtend, ← BitVec.ofNat_toNat]
  rw [ofNat_or_shiftLeft h1, ofNat_or_shiftLeft (by omega)]
  rfl

theorem completes_dgrule_of_pos {s : State} {p1 p2 : Position} (h1 : pos s.build s.operandByte0 = some p1)
    (h2 : pos s.build s.operandByte1 = some p2) (m : Direction) :
    Completes (.dgrule m) s
      { s with resPair := pairWord (subst s.build p1 p2 m), resPos := posWord p1 p2 } := by
  simp only [Completes, exec, execDgrule, lookup_some h1, lookup_some h2]
  rfl

/-- Settles O35: DGRULE finds both letters and writes the pair subst answers, whose bytes stand where the case says. -/
theorem dgruleAppliesTheRule : Obligations.DgruleAppliesTheRule := by
  intro m s r1 c1 r2 c2 k hr1 hc1 hr2 hc2 hk h1 h2
  obtain rfl : k = Direction.shift m := hk
  have found1 : pos s.build s.operandByte0 = some ⟨r1, c1⟩ := (pos_eq_some_iff _ _ _).mpr ⟨hr1, hc1, h1⟩
  have found2 : pos s.build s.operandByte1 = some ⟨r2, c2⟩ := (pos_eq_some_iff _ _ _).mpr ⟨hr2, hc2, h2⟩
  have completes := completes_dgrule_of_pos found1 found2 m
  rw [pairWord_eq_ofNat, posWord_eq_ofNat hr1 hc1 hr2] at completes
  refine ⟨_, _, _, completes, ?sameRow, ?sameCol, ?rectangle⟩
  case sameRow =>
    rintro rfl
    rw [subst_sameRow]
    exact ⟨rfl, square_getElem?_eq_sq _ hr1 (shift_lt c1 _), square_getElem?_eq_sq _ hr1 (shift_lt c2 _)⟩
  case sameCol =>
    rintro hr rfl
    rw [subst_sameCol _ hr]
    exact ⟨rfl, square_getElem?_eq_sq _ (shift_lt r1 _) hc1, square_getElem?_eq_sq _ (shift_lt r2 _) hc1⟩
  case rectangle =>
    intro hr hc
    rw [subst_rectangle _ hr hc]
    exact ⟨rfl, square_getElem?_eq_sq _ hr1 hc2, square_getElem?_eq_sq _ hr2 hc1⟩

/-! ### DEC undoes ENC (R312) -/

/-- 1 forward and 4 forward is once around the five places. -/
theorem shift_dec_shift_enc {x : Nat} (hx : x < 5) :
    ((x + Direction.shift .enc) % 5 + Direction.shift .dec) % 5 = x := by
  simp only [Direction.shift]
  omega

/-- Rows that differ still differ after the shift of ENC. -/
theorem shift_enc_ne {x y : Nat} (hx : x < 5) (hy : y < 5) (h : x ≠ y) :
    (x + Direction.shift .enc) % 5 ≠ (y + Direction.shift .enc) % 5 := by
  intro heq
  rw [← shift_dec_shift_enc hx, heq, shift_dec_shift_enc hy] at h
  exact h rfl

/-- The result of ENC on the letters at `p1` and `p2` stands in the square, and DEC there gives both letters back. -/
def DecUndoesEnc (b : Build) (p1 p2 : Position) : Prop :=
  ∃ q1 q2, pos b (subst b p1 p2 .enc).out1 = some q1 ∧ pos b (subst b p1 p2 .enc).out2 = some q2
    ∧ (subst b q1 q2 .dec).out1 = sq b p1.row p1.col ∧ (subst b q1 q2 .dec).out2 = sq b p2.row p2.col

theorem decUndoesEnc_sameRow (b : Build) {r c1 c2 : Nat} (hr : r < 5) (hc1 : c1 < 5) (hc2 : c2 < 5) :
    DecUndoesEnc b ⟨r, c1⟩ ⟨r, c2⟩ := by
  rw [DecUndoesEnc, subst_sameRow]
  refine ⟨_, _, pos_sq b hr (shift_lt c1 _), pos_sq b hr (shift_lt c2 _), ?_⟩
  rw [subst_sameRow, shift_dec_shift_enc hc1, shift_dec_shift_enc hc2]
  exact ⟨rfl, rfl⟩

theorem decUndoesEnc_sameCol (b : Build) {r1 r2 c : Nat} (hr1 : r1 < 5) (hr2 : r2 < 5) (hc : c < 5)
    (hr : r1 ≠ r2) : DecUndoesEnc b ⟨r1, c⟩ ⟨r2, c⟩ := by
  rw [DecUndoesEnc, subst_sameCol b hr]
  refine ⟨_, _, pos_sq b (shift_lt r1 _) hc, pos_sq b (shift_lt r2 _) hc, ?_⟩
  rw [subst_sameCol b (shift_enc_ne hr1 hr2 hr), shift_dec_shift_enc hr1, shift_dec_shift_enc hr2]
  exact ⟨rfl, rfl⟩

/-- The rectangle's corners: applied at the other two, either direction gives the first two. -/
theorem rectangle_selfInverse (b : Build) {r1 c1 r2 c2 : Nat} (hr1 : r1 < 5) (hc1 : c1 < 5) (hr2 : r2 < 5)
    (hc2 : c2 < 5) (hr : r1 ≠ r2) (hc : c1 ≠ c2) (d d' : Direction) :
    pos b (subst b ⟨r1, c1⟩ ⟨r2, c2⟩ d).out1 = some ⟨r1, c2⟩
      ∧ pos b (subst b ⟨r1, c1⟩ ⟨r2, c2⟩ d).out2 = some ⟨r2, c1⟩
      ∧ subst b ⟨r1, c2⟩ ⟨r2, c1⟩ d' = ⟨sq b r1 c1, sq b r2 c2, 2⟩ := by
  rw [subst_rectangle b hr hc]
  exact ⟨pos_sq b hr1 hc2, pos_sq b hr2 hc1, subst_rectangle b hr hc.symm d'⟩

theorem decUndoesEnc_rectangle (b : Build) {r1 c1 r2 c2 : Nat} (hr1 : r1 < 5) (hc1 : c1 < 5) (hr2 : r2 < 5)
    (hc2 : c2 < 5) (hr : r1 ≠ r2) (hc : c1 ≠ c2) : DecUndoesEnc b ⟨r1, c1⟩ ⟨r2, c2⟩ := by
  obtain ⟨found1, found2, undo⟩ := rectangle_selfInverse b hr1 hc1 hr2 hc2 hr hc .enc .dec
  refine ⟨_, _, found1, found2, ?_⟩
  rw [undo]
  exact ⟨rfl, rfl⟩

/-- Settles O37: the rectangle swaps its corners, and in an aligned case the shifts of ENC and DEC make a full turn. -/
theorem decUndoesEncOnEveryPair : Obligations.DecUndoesEncOnEveryPair := by
  rintro b ⟨r1, c1⟩ ⟨r2, c2⟩ hr1 hc1 hr2 hc2
  refine ⟨rectangle_selfInverse b hr1 hc1 hr2 hc2, ?_⟩
  change DecUndoesEnc b ⟨r1, c1⟩ ⟨r2, c2⟩
  by_cases hr : r1 = r2
  · subst hr
    exact decUndoesEnc_sameRow b hr1 hc1 hc2
  · by_cases hc : c1 = c2
    · subst hc
      exact decUndoesEnc_sameCol b hr1 hr2 hc1 hr
    · exact decUndoesEnc_rectangle b hr1 hc1 hr2 hc2 hr hc

end Sys2Proof.Machine

/-! ## Errors and the interrupt output (60_exceptions.md R402, R420) -/

namespace Sys2Proof.Machine

/-! ### Errors -/

/-- Settles O9: a completion that writes results has error code 0; the others are `finish`, which writes none. -/
theorem failedCommandWritesNoResult : Obligations.FailedCommandWritesNoResult := by
  intro s t hbusy hstep herr
  rcases coreStep_next hstep with ⟨-, hidle⟩ | ⟨q, rfl, -⟩ | ⟨c, x, -, -, rfl, -⟩
  · rw [hbusy] at hidle; cases hidle
  · exact absurd (State.finish_errcode _ _ _) herr
  · rfl

/-! ### The interrupt output -/

/-- A completion sets DONE and keeps IE. -/
theorem coreStep_irq {s t : State} (hbusy : s.busy = true) (h : coreStep s = .next t) : t.irq = s.ie := by
  rcases coreStep_next h with ⟨-, hidle⟩ | ⟨q, rfl, -⟩ | ⟨c, x, -, -, rfl, -⟩
  · rw [hbusy] at hidle; cases hidle
  · rw [State.finish_irq, State.withResults_ie]
  · exact State.finish_irq _ _ _

theorem State.writeStatus_irq (s : State) (v : Word) : (s.writeStatus v).irq = (s.irq && !v.getLsbD 1) :=
  Bool.and_right_comm s.done (!v.getLsbD 1) s.ie

theorem State.writeCtrl_irq (s : State) (v : Word) : (s.writeCtrl v).irq = (s.done && v.getLsbD 0) := rfl

/-- CTRL is written alike in both phases (R33, 70_reset_and_hazards.md R460). -/
theorem busWrite_ctrl (v : Word) (s : State) : busWrite 0x008 v s = s.writeCtrl v := by
  have hr : regAt s.build 0x008 = .ctrl := regAt_scalar s.build (k := 2) (by decide)
  unfold busWrite
  rw [hr]
  exact ite_self _

/-- An idle core changes DONE or IE only at CTRL, STATUS and CMD. -/
theorem regWrite_irq {r : Reg} (hctrl : r ≠ .ctrl) (hstatus : r ≠ .status) (hcmd : r ≠ .cmd) (s : State) (v : Word) :
    (regWrite s r v).irq = s.irq := by
  cases r
  case ctrl => exact absurd rfl hctrl
  case status => exact absurd rfl hstatus
  case cmd => exact absurd rfl hcmd
  all_goals rfl

/-- A busy core changes DONE or IE only at CTRL and STATUS. -/
theorem regWriteBusy_irq {r : Reg} (hctrl : r ≠ .ctrl) (hstatus : r ≠ .status) (s : State) (v : Word) :
    (regWriteBusy s r v).irq = s.irq := by
  cases r
  case ctrl => exact absurd rfl hctrl
  case status => exact absurd rfl hstatus
  all_goals rfl

/-- Every other aligned write reaches neither CTRL nor STATUS, and CMD only while BUSY = 1. -/
theorem busWrite_irq_other {s : State} {off : Nat} (h4 : off % 4 = 0) (hctrl : off ≠ 0x008) (hstatus : off ≠ 0x00C)
    (hcmd : off = 0x010 → s.busy = true) (v : Word) : (busWrite off v s).irq = s.irq := by
  have notCtrl : regAt s.build off ≠ .ctrl := fun h => hctrl (regAt_scalar_inv s.build (k := 2) h (by decide) h4)
  have notStatus : regAt s.build off ≠ .status := fun h => hstatus (regAt_scalar_inv s.build (k := 3) h (by decide) h4)
  cases hb : s.busy with
  | true =>
    rw [busWrite_of_busy hb]
    exact regWriteBusy_irq notCtrl notStatus s v
  | false =>
    have notCmd : regAt s.build off ≠ .cmd := fun h =>
      absurd (hb.symm.trans (hcmd (regAt_scalar_inv s.build (k := 4) h (by decide) h4))) Bool.false_ne_true
    rw [busWrite_of_idle hb]
    exact regWrite_irq notCtrl notStatus notCmd s v

/-- Settles O53: a completion sets DONE, issue and STATUS clear it, CTRL sets IE, and no other write reaches either. -/
theorem interruptFollowsDoneAndEnable : Obligations.InterruptFollowsDoneAndEnable := by
  intro s
  refine ⟨rfl, fun t hb h => coreStep_irq hb h, fun w hb => ?issue, fun v => ?status, fun v => ?ctrl,
    fun off v h4 _ hctrl hstatus hcmd => busWrite_irq_other h4 hctrl hstatus hcmd v, rfl⟩
  case issue => rw [busWrite_cmd_of_idle hb, State.issue_irq]
  case status => rw [busWrite_status, State.writeStatus_irq]
  case ctrl => rw [busWrite_ctrl, State.writeCtrl_irq]

end Sys2Proof.Machine

/-! ## Reset and hazards (70_reset_and_hazards.md R450 to R460) -/

namespace Sys2Proof.Machine

/-! ### A completion and the operands (R457) -/

/-- Settles O10: the result writes are no operands, and `finish` writes the status registers alone. -/
theorem commandsKeepOperandRegisters : Obligations.CommandsKeepOperandRegisters := by
  intro s t hbusy hstep
  rcases coreStep_next hstep with ⟨-, hidle⟩ | ⟨q, rfl, -⟩ | ⟨c, x, -, -, rfl, -⟩
  · rw [hbusy] at hidle; cases hidle
  · exact ⟨rfl, rfl, rfl, rfl, rfl, rfl, rfl⟩
  · exact ⟨rfl, rfl, rfl, rfl, rfl, rfl, rfl⟩

/-! ### Host writes while BUSY = 1 (R460) -/

/-- A busy core lets only CTRL and STATUS be written. -/
theorem regWriteBusy_drops {r : Reg} (hctrl : r ≠ .ctrl) (hstatus : r ≠ .status) (s : State) (v : Word) :
    regWriteBusy s r v = { s with wbusy := true } := by
  cases r
  case ctrl => exact absurd rfl hctrl
  case status => exact absurd rfl hstatus
  all_goals rfl

theorem busWrite_drops_of_busy {s : State} (hbusy : s.busy = true) {off : Nat} (h4 : off % 4 = 0)
    (hctrl : off ≠ 0x008) (hstatus : off ≠ 0x00C) (v : Word) : busWrite off v s = { s with wbusy := true } := by
  have notCtrl : regAt s.build off ≠ .ctrl := fun h => hctrl (regAt_scalar_inv s.build (k := 2) h (by decide) h4)
  have notStatus : regAt s.build off ≠ .status := fun h => hstatus (regAt_scalar_inv s.build (k := 3) h (by decide) h4)
  rw [busWrite_of_busy hbusy]
  exact regWriteBusy_drops notCtrl notStatus s v

/-- Settles O46: CTRL and STATUS are written alike in both phases, and every other offset is dropped. -/
theorem writesWhileBusyAreDropped : Obligations.WritesWhileBusyAreDropped := by
  intro s off v hbusy h4 _
  refine ⟨fun hctrl hstatus => busWrite_drops_of_busy hbusy h4 hctrl hstatus v, ?ctrl, ?status⟩
  case ctrl =>
    rintro rfl
    exact busWrite_ctrl v s
  case status =>
    rintro rfl
    exact busWrite_status v s

/-! ### The build and the registers that show it (R453) -/

theorem coreStep_build {s t : State} (h : coreStep s = .next t) : t.build = s.build := by
  rcases coreStep_next h with ⟨rfl, -⟩ | ⟨q, rfl, -⟩ | ⟨c, x, -, -, rfl, -⟩
  · rfl
  · rw [State.finish_build, State.withResults_build]
  · exact State.finish_build _ _ _

theorem hostStep_build (s : State) : (hostStep s).build = s.build := (hostStep_frame s).1

theorem coreTurn_build {s t : State} (h : coreTurn s = .next t) : t.build = s.build := by
  cases hr : s.rst with
  | false => exact coreStep_build (coreTurn_run hr ▸ h)
  | true =>
    obtain rfl : s = t := by simpa [coreTurn, hr] using h
    rfl

/-- No step, reset included, changes the build. -/
theorem step_build {s t : State} (h : step s = .next t) : t.build = s.build := by
  obtain ⟨ts, -, h⟩ := step_cases h
  rcases h with ⟨rfl, -⟩ | rfl | ⟨-, -, core, -⟩ | ⟨-, -, sameCycle⟩ | ⟨rfl, -⟩ | ⟨rfl, -⟩
  · exact hostStep_build _
  · rfl
  · exact coreStep_build (s := { s with turns := ts }) core
  · exact (coreTurn_build sameCycle).trans (hostStep_build _)
  · rfl
  · rfl

/-- A byte appended at the low end moves every field up by 8 bits. -/
theorem extractLsb'_append_byte {m : Nat} (hi : BitVec m) (lo : Byte) (start : Nat) :
    (hi ++ lo).extractLsb' (8 + start) 8 = hi.extractLsb' start 8 := by
  rw [BitVec.extractLsb'_append_eq_of_le (Nat.le_add_right 8 start), Nat.add_sub_cancel_left]

/-- A packed word's bytes are those it was packed from (20_memory.md R100). -/
theorem wordByte_packWord (f : Nat → Byte) {k : Nat} (hk : k < 4) : wordByte (packWord f) k = f k := by
  interval_cases k
  · exact BitVec.extractLsb'_append_eq_right
  · exact (extractLsb'_append_byte _ _ _).trans BitVec.extractLsb'_append_eq_right
  · exact (extractLsb'_append_byte _ _ _).trans ((extractLsb'_append_byte _ _ _).trans BitVec.extractLsb'_append_eq_right)
  · exact (extractLsb'_append_byte _ _ _).trans ((extractLsb'_append_byte _ _ _).trans BitVec.extractLsb'_append_eq_left)

theorem busRead_id (s : State) : (busRead 0x000 s).1 = idWord := rfl

theorem busRead_cfg (s : State) : (busRead 0x004 s).1 = cfgWord s.build := rfl

theorem busRead_ksq {w : Nat} (hw : w < 7) (s : State) : (busRead (0x380 + 4 * w) s).1 = ksqWord s.build w := by
  unfold busRead
  rw [regAt_ksq s.build hw]
  rfl

/-- Settles O56: every turn keeps the build, and a word of KSQ is packed from its square. -/
theorem keySquareNeverChanges : Obligations.KeySquareNeverChanges := by
  intro s t h
  refine ⟨step_build h, fun w k hw hk => ?_⟩
  rw [busRead_ksq hw, step_build h]
  exact wordByte_packWord _ hk

/-! ### Reset (R450, R454) -/

/-- Settles O14: `resetCore` writes the table, and ID, CFG and the key square show the build, which it keeps. -/
theorem resetGivesTheTabulatedState : Obligations.ResetGivesTheTabulatedState := by
  intro s
  refine ⟨_, rfl, rfl, rfl, rfl, rfl, rfl, rfl, rfl, rfl, rfl, rfl, rfl, rfl, rfl, rfl, ?id, ?cfg, rfl⟩
  case id => rw [busRead_id, busRead_id]
  case cfg => rw [busRead_cfg, busRead_cfg, State.resetCore_build]

end Sys2Proof.Machine

/-! ## Command words: decoding and encoding are inverse (30_encoding.md R141 to R145) -/

namespace Sys2Proof.Machine

open Laws

/-- Every command's word passes the check of its row of R144. -/
theorem encode_matches_row (i : Instr) : MaskedWord.Statement i := by
  cases i with
  | nop => exact MaskedWord.nop
  | det => exact MaskedWord.det
  | subm r c => exact MaskedWord.subm r c
  | cof r c => exact MaskedWord.cof r c
  | adj => exact MaskedWord.adj
  | modinv => exact MaskedWord.modinv
  | invkey => exact MaskedWord.invkey
  | mvmul m => exact MaskedWord.mvmul m
  | menc => exact MaskedWord.menc
  | mdec => exact MaskedWord.mdec
  | findpos => exact MaskedWord.findpos
  | dgrule m => exact MaskedWord.dgrule m
  | norm => exact MaskedWord.norm
  | denc => exact MaskedWord.denc
  | ddec => exact MaskedWord.ddec

/-- Settles O1: the row that a command's word matches names that command. -/
theorem decodeOfEncodeIsTheCommand : Obligations.DecodeOfEncodeIsTheCommand := by
  intro i hwf
  obtain ⟨row, hfind, hmatch, hcommand⟩ := encode_matches_row i hwf
  exact decode_eq_ok_iff.mpr ⟨row, List.mem_of_find?_eq_some hfind, hmatch, hcommand⟩

/-- Settles O4: the nine words are the encodings of well-formed commands. -/
theorem writtenOutWordsDecode : Obligations.WrittenOutWordsDecode :=
  ⟨decodeOfEncodeIsTheCommand .nop rfl, decodeOfEncodeIsTheCommand .det rfl,
    decodeOfEncodeIsTheCommand (.subm 1 2) rfl, decodeOfEncodeIsTheCommand (.cof 2 0) rfl,
    decodeOfEncodeIsTheCommand (.mvmul .rmat) rfl, decodeOfEncodeIsTheCommand .mdec rfl,
    decodeOfEncodeIsTheCommand .findpos rfl, decodeOfEncodeIsTheCommand (.dgrule .dec) rfl,
    decodeOfEncodeIsTheCommand .ddec rfl⟩

/-! ### A word from its fixed bits and its fields -/

/-- A word is its bits under a mask together with the others. -/
theorem and_or_and_not (w m : Word) : w &&& m ||| w &&& ~~~m = w := by
  rw [← BitVec.and_or_distrib_left, BitVec.or_not_self, BitVec.and_allOnes]

/-- The M bit under its mask. -/
theorem and_mBit (w : Word) : w &&& 0x00000100 = if mField w then 0x00000100 else 0 :=
  BitVec.and_twoPow w 8

/-- The R and C fields under their mask. -/
theorem and_indexMask (w : Word) : w &&& 0x00770000 = indexBits (rField w) (cField w) := by
  simp only [indexBits, rField, cField, BitVec.ofNat_toNat]
  apply BitVec.eq_of_getLsbD_eq
  intro k hk
  interval_cases k <;> simp

theorem rField_le (w : Word) : rField w ≤ 7 := Nat.le_of_lt_succ (BitVec.isLt _)

theorem cField_le (w : Word) : cField w ≤ 7 := Nat.le_of_lt_succ (BitVec.isLt _)

/-! ### Every row of R144 -/

/-- A word that matches the row is the word of the command the row names. -/
def RowExact (row : OpcodeRow) : Prop :=
  ∀ w, w &&& row.mask = row.value → (row.command w).wf = true ∧ encode (row.command w) = w

/-- A row that fixes all 32 bits. -/
theorem rowExact_of_fullMask {op : Byte} {i : Instr} (hwf : i.wf = true) :
    RowExact ⟨op, 0xFFFFFFFF, encode i, fun _ => i⟩ :=
  fun _ hmatch => ⟨hwf, hmatch.symm.trans BitVec.and_allOnes⟩

/-- A word that matches under all bits but M, from its M bit. -/
theorem eq_of_match_mBit {w value : Word} (h : w &&& 0xFFFFFEFF = value) :
    (value ||| if mField w then 0x00000100 else 0) = w := by
  rw [← h, ← and_mBit]
  exact and_or_and_not w 0xFFFFFEFF

/-- A word that matches under all bits but R and C, from those fields. -/
theorem eq_of_match_indexBits {w value : Word} (h : w &&& 0xFF88FFFF = value) :
    value ||| indexBits (rField w) (cField w) = w := by
  rw [← h, ← and_indexMask]
  exact and_or_and_not w 0xFF88FFFF

theorem indexOk_fields (w : Word) : (indexOk (rField w) && indexOk (cField w)) = true := by
  simp [indexOk, rField_le, cField_le]

/-- SUBM and COF: a row that leaves R and C free. -/
theorem rowExact_of_indexMask {op : Byte} {value : Word} {mk : Nat → Nat → Instr}
    (hmk : ∀ r c, (mk r c).wf = (indexOk r && indexOk c) ∧ encode (mk r c) = value ||| indexBits r c) :
    RowExact ⟨op, 0xFF88FFFF, value, fun w => mk (rField w) (cField w)⟩ := by
  intro w hmatch
  obtain ⟨hwf, hencode⟩ := hmk (rField w) (cField w)
  exact ⟨hwf.trans (indexOk_fields w), hencode.trans (eq_of_match_indexBits hmatch)⟩

/-- MVMUL and DGRULE: a row that leaves M free. -/
theorem rowExact_of_mMask {op : Byte} {value : Word} {mk : Bool → Instr}
    (hmk : ∀ m, (mk m).wf = true ∧ encode (mk m) = value ||| if m then 0x00000100 else 0) :
    RowExact ⟨op, 0xFFFFFEFF, value, fun w => mk (mField w)⟩ := by
  intro w hmatch
  obtain ⟨hwf, hencode⟩ := hmk (mField w)
  exact ⟨hwf, hencode.trans (eq_of_match_mBit hmatch)⟩

theorem rowExact_of_mem_opcodeMap : ∀ row ∈ opcodeMap, RowExact row := by
  intro row hrow
  simp only [opcodeMap, List.cons_append, List.nil_append, List.mem_cons, List.not_mem_nil, or_false] at hrow
  rcases hrow with rfl | rfl | rfl | rfl | rfl | rfl | rfl | rfl | rfl | rfl | rfl | rfl | rfl | rfl | rfl
  · exact rowExact_of_fullMask (i := .nop) rfl
  · exact rowExact_of_fullMask (i := .det) rfl
  · exact rowExact_of_indexMask (mk := .subm) fun _ _ => ⟨rfl, rfl⟩
  · exact rowExact_of_indexMask (mk := .cof) fun _ _ => ⟨rfl, rfl⟩
  · exact rowExact_of_fullMask (i := .adj) rfl
  · exact rowExact_of_fullMask (i := .modinv) rfl
  · exact rowExact_of_fullMask (i := .invkey) rfl
  · exact rowExact_of_mMask (mk := fun m => .mvmul (.ofBit m)) (by decide)
  · exact rowExact_of_fullMask (i := .menc) rfl
  · exact rowExact_of_fullMask (i := .mdec) rfl
  · exact rowExact_of_fullMask (i := .findpos) rfl
  · exact rowExact_of_mMask (mk := fun m => .dgrule (.ofBit m)) (by decide)
  · exact rowExact_of_fullMask (i := .norm) rfl
  · exact rowExact_of_fullMask (i := .denc) rfl
  · exact rowExact_of_fullMask (i := .ddec) rfl

/-- Settles O2: a legal word matches a row, and each row's words are those its commands encode to. -/
theorem legalWordIsItsCommandsEncoding : Obligations.LegalWordIsItsCommandsEncoding := by
  intro w i h
  obtain ⟨row, hrow, hmatch, rfl⟩ := decode_eq_ok_iff.mp h
  exact rowExact_of_mem_opcodeMap row hrow w hmatch

end Sys2Proof.Machine

/-! ## The command lifecycle (40_control.md section 1, 70_reset_and_hazards.md sections 3 and 4) -/

namespace Sys2Proof.Machine

/-! ### The core's step -/

theorem coreStep_of_decode {s : State} {w : Word} {i : Instr} (hseq : s.seq = .busy w) (hdecode : decode w = .ok i) :
    coreStep s = exec i s := by
  simp only [coreStep, State.latch, hseq, hdecode]

/-- Settles O7: the core's turn decodes the latch, scheduled or not. -/
theorem coreTurnRunsTheDecodedCommand : Obligations.CoreTurnRunsTheDecodedCommand := by
  intro s w i hrst hseq hdecode
  refine ⟨fun ts => ?_, ?_⟩
  · exact (coreTurn_run (s := { s with turns := ts }) hrst).trans (coreStep_of_decode hseq hdecode)
  · have hturn : unscheduledTurn { s with turns := [] } = coreStep { s with turns := [] } := by
      simp [unscheduledTurn, hrst, State.busy, hseq]
    exact hturn.trans (coreStep_of_decode hseq hdecode)

/-- Settles O8: a busy core's step is a success with result writes or an error from 1 to 7. -/
theorem completionIsSuccessOrErrorWithoutResults : Obligations.CompletionIsSuccessOrErrorWithoutResults := by
  intro s t hbusy hstep
  rcases coreStep_next hstep with ⟨-, hidle⟩ | ⟨q, rfl, -⟩ | ⟨code, info, hlo, hhi, rfl, -⟩
  · rw [hbusy] at hidle; cases hidle
  · exact .inl ⟨q, rfl⟩
  · exact .inr ⟨code, info, hlo, hhi, rfl⟩

/-- Settles O12: NOP concludes with the state it found. -/
theorem nopCompletes : Obligations.NopCompletes := fun _ => rfl

/-! ### What a step does to the state, its turn taken off the schedule -/

/-- The moves of 40_control.md R183 and of the platform's rst. A completion may share its bus cycle with a host
operation, which then comes first (log 6). -/
inductive Moves (s : State) : State → Prop
  | nothing : Moves s s
  | host : Moves s (hostStep s)
  | completion {u t : State} : s.busy = true → u = s ∨ u = hostStep s → coreStep u = .next t → Moves s t
  | rstAssert : Moves s { s.resetCore with rst := true }
  | rstRelease : Moves s { s with rst := false }

/-- Under rst the completion of a shared bus cycle does not happen. -/
theorem moves_of_sameCycle {s t : State} (hbusy : s.busy = true) (h : coreTurn (hostStep s) = .next t) : Moves s t := by
  cases hrst : s.rst with
  | false =>
    rw [coreTurn_run ((hostStep_frame s).2.1.trans hrst)] at h
    exact .completion hbusy (.inr rfl) h
  | true =>
    obtain rfl := Host.Outcome.next.inj (h.symm.trans (coreTurn_hostStep_in_reset hrst))
    exact .host

theorem step_moves {s t : State} (h : step s = .next t) : Moves { s with turns := s.turns.tail } t := by
  obtain ⟨_, rfl, h⟩ := step_cases h
  rcases h with ⟨rfl, -⟩ | rfl | ⟨hbusy, -, core, -⟩ | ⟨hbusy, -, sameCycle⟩ | ⟨rfl, -⟩ | ⟨rfl, -⟩
  · exact .host
  · exact .nothing
  · exact .completion hbusy (.inl rfl) core
  · exact moves_of_sameCycle hbusy sameCycle
  · exact .rstAssert
  · exact .rstRelease

/-- The state a completion starts from is the busy one, at most a host operation later. -/
theorem completion_start_busy {s u : State} (hbusy : s.busy = true) (hu : u = s ∨ u = hostStep s) : u.busy = true := by
  rcases hu with rfl | rfl
  · exact hbusy
  · exact (busy_of_seq (hostStep_busy hbusy).1).trans hbusy

theorem completion_start_results {s u : State} (hu : u = s ∨ u = hostStep s) : u.results = s.results := by
  rcases hu with rfl | rfl
  · rfl
  · exact (hostStep_frame s).2.2.2

/-! ### BUSY and the latch (10_state.md R35) -/

/-- What R35 says of BUSY and the latch over a move from `s` to `t`. -/
def BusyLasts (s t : State) : Prop :=
  (s.busy = true → t.busy = true → t.seq = s.seq)
    ∧ (s.busy = true → t.busy = false → t.done = true ∨ t.rst = true)
    ∧ (s.busy = false → t.busy = true → t.done = false ∧ t.errcode = 0 ∧ t.errinfo = 0)

theorem busyLasts_of_seq_eq {s t : State} (h : t.seq = s.seq) : BusyLasts s t := by
  have hbusy := busy_of_seq h
  refine ⟨fun _ _ => h, fun hs ht => ?_, fun hs ht => ?_⟩
  · rw [hbusy, hs] at ht; cases ht
  · rw [hbusy, hs] at ht; cases ht

theorem busyLasts_hostStep (s : State) : BusyLasts s (hostStep s) := by
  cases hs : s.busy with
  | true => exact busyLasts_of_seq_eq (hostStep_busy hs).1
  | false =>
    refine ⟨fun h => ?_, fun h => ?_, fun _ => (hostStep_idle hs).1⟩
    · rw [hs] at h; cases h
    · rw [hs] at h; cases h

theorem busyLasts_of_completed {s t : State} (hs : s.busy = true) (ht : t.busy = false)
    (hend : t.done = true ∨ t.rst = true) : BusyLasts s t := by
  refine ⟨fun _ h => ?_, fun _ _ => hend, fun h => ?_⟩
  · rw [ht] at h; cases h
  · rw [hs] at h; cases h

theorem busyLasts_of_idle {s t : State} (hs : s.busy = false) (ht : t.busy = false) : BusyLasts s t := by
  refine ⟨fun h => ?_, fun h => ?_, fun _ h => ?_⟩
  · rw [hs] at h; cases h
  · rw [hs] at h; cases h
  · rw [ht] at h; cases h

theorem Moves.busyLasts {s t : State} (h : Moves s t) : BusyLasts s t := by
  cases h with
  | nothing => exact busyLasts_of_seq_eq rfl
  | host => exact busyLasts_hostStep s
  | completion hbusy hu hcore =>
    obtain ⟨hdone, hidle⟩ := coreStep_completes hcore (completion_start_busy hbusy hu)
    exact busyLasts_of_completed hbusy hidle (.inl hdone)
  | rstAssert =>
    cases hs : s.busy with
    | true => exact busyLasts_of_completed hs rfl (.inr rfl)
    | false => exact busyLasts_of_idle hs rfl
  | rstRelease => exact busyLasts_of_seq_eq rfl

/-- Settles O58: by the move, BUSY ends with DONE or under reset and begins with an issue. -/
theorem busyLastsFromIssueToCompletion : Obligations.BusyLastsFromIssueToCompletion :=
  fun _ _ h => (step_moves h).busyLasts

/-! ### Results (10_state.md R61) -/

theorem Moves.results {s t : State} (h : Moves s t) (hne : t.results ≠ s.results) :
    s.busy = true ∧ t.busy = false ∧ t.errcode = 0 ∨ t.rst = true := by
  cases h with
  | nothing => exact absurd rfl hne
  | host => exact absurd (hostStep_frame s).2.2.2 hne
  | completion hbusy hu hcore =>
    have hub := completion_start_busy hbusy hu
    have hclear := mt (failedCommandWritesNoResult _ _ hub hcore)
    rw [completion_start_results hu] at hclear
    exact .inl ⟨hbusy, (coreStep_completes hcore hub).2, not_not.mp (hclear hne)⟩
  | rstAssert => exact .inr rfl
  | rstRelease => exact absurd rfl hne

/-- Settles O59: host moves keep the results, and a completion that writes them has error code 0. -/
theorem onlySuccessfulCommandsWriteResults : Obligations.OnlySuccessfulCommandsWriteResults :=
  fun _ _ h hne => (step_moves h).results hne

/-! ### Operands of a command in progress (20_memory.md R107) -/

/-- The operand registers that the host writes are the same. -/
def KeepsOperands (s t : State) : Prop :=
  t.ndim = s.ndim ∧ t.operand = s.operand ∧ t.inLen = s.inLen ∧ t.key = s.key ∧ t.vec = s.vec ∧ t.inBuf = s.inBuf

theorem keepsOperands_refl (s : State) : KeepsOperands s s := ⟨rfl, rfl, rfl, rfl, rfl, rfl⟩

theorem KeepsOperands.trans {s t u : State} (h : KeepsOperands s t) (h' : KeepsOperands t u) : KeepsOperands s u := by
  obtain ⟨ndim, operand, inLen, key, vec, inBuf⟩ := h
  obtain ⟨ndim', operand', inLen', key', vec', inBuf'⟩ := h'
  exact ⟨ndim'.trans ndim, operand'.trans operand, inLen'.trans inLen, key'.trans key, vec'.trans vec,
    inBuf'.trans inBuf⟩

theorem keepsOperands_coreStep {s t : State} (hbusy : s.busy = true) (h : coreStep s = .next t) :
    KeepsOperands s t := by
  obtain ⟨ndim, operand, inLen, key, vec, inBuf, -⟩ := commandsKeepOperandRegisters s t hbusy h
  exact ⟨ndim, operand, inLen, key, vec, inBuf⟩

theorem Moves.keepsOperands {s t : State} (h : Moves s t) (hbusy : s.busy = true) (hrst : t.rst = false) :
    KeepsOperands s t := by
  cases h with
  | nothing => exact keepsOperands_refl s
  | host => exact hostStep_busy_operands hbusy
  | completion _ hu hcore =>
    have hcompletion := keepsOperands_coreStep (completion_start_busy hbusy hu) hcore
    rcases hu with rfl | rfl
    · exact hcompletion
    · exact KeepsOperands.trans (hostStep_busy_operands hbusy) hcompletion
  | rstAssert => cases hrst
  | rstRelease => exact keepsOperands_refl s

/-- Settles O60: while BUSY = 1 the host's writes to operands are dropped and completions write none. -/
theorem operandsStandStillWhileBusy : Obligations.OperandsStandStillWhileBusy :=
  fun _ _ h hbusy hrst => (step_moves h).keepsOperands hbusy hrst

/-! ### Completion within the schedule (70_reset_and_hazards.md R470) -/

/-- Within `n` steps the core is idle, or stopped by an unwritten operand. -/
def EndsWithin (n : Nat) (s : State) : Prop :=
  ∃ k, k ≤ n ∧ ((∃ t : State, Host.Core.run Sys2Proof.core k s = .next t ∧ t.busy = false)
    ∨ Host.Core.run Sys2Proof.core k s = .fault Fault.unwrittenOperand)

theorem run_succ_of_next {s t : State} (h : step s = .next t) (k : Nat) :
    Host.Core.run Sys2Proof.core (k + 1) s = Host.Core.run Sys2Proof.core k t := by
  have hstep : Sys2Proof.core.step s = .next t := h
  simp only [Host.Core.run, hstep]

theorem run_one_of_fault {s : State} {f : Fault} (h : step s = .fault f) :
    Host.Core.run Sys2Proof.core 1 s = .fault f := by
  have hstep : Sys2Proof.core.step s = .fault f := h
  simp only [Host.Core.run, hstep]

theorem EndsWithin.of_step {n : Nat} {s t : State} (h : step s = .next t) (ht : EndsWithin n t) :
    EndsWithin (n + 1) s := by
  obtain ⟨k, hk, hend⟩ := ht
  refine ⟨k + 1, Nat.succ_le_succ hk, ?_⟩
  rwa [run_succ_of_next h]

theorem endsWithin_of_idle (n : Nat) {s : State} (h : s.busy = false) : EndsWithin n s :=
  ⟨0, Nat.zero_le n, .inl ⟨s, rfl, h⟩⟩

/-- A step that is the core's step of a busy core ends the command. -/
theorem endsWithin_of_coreStep (n : Nat) {s u : State} (hu : u.busy = true) (h : step s = coreStep u) :
    EndsWithin (n + 1) s := by
  rcases coreStep_busy hu with ⟨t, hcore, hidle, -⟩ | hfault
  · exact .of_step (h.trans hcore) (endsWithin_of_idle n hidle)
  · exact ⟨1, Nat.le_add_left 1 n, .inr (run_one_of_fault (h.trans hfault))⟩

theorem endsWithin_of_busy {s : State} (hbusy : s.busy = true) (hrst : s.rst = false) :
    EndsWithin (s.turns.length + 1) s := by
  induction hts : s.turns generalizing s with
  | nil =>
    have hstep : step s = coreStep s := by simp [step, hts, unscheduledTurn, hrst, hbusy]
    exact endsWithin_of_coreStep 0 hbusy hstep
  | cons turn ts ih =>
    have hstep : step s = takeTurn turn { s with turns := ts } := by simp [step, hts]
    obtain ⟨hseq, hrst', hturns, -⟩ := hostStep_busy (s := { s with turns := ts }) hbusy
    have hbusy' : (hostStep { s with turns := ts }).busy = true := (busy_of_seq hseq).trans hbusy
    cases turn with
    | host => exact .of_step hstep (ih hbusy' (hrst'.trans hrst) hturns)
    | core => exact endsWithin_of_coreStep _ (u := { s with turns := ts }) hbusy (hstep.trans (coreTurn_run hrst))
    | sameCycle =>
      have hcycle := takeTurn_sameCycle_of_busy (s := { s with turns := ts }) hbusy
      exact endsWithin_of_coreStep _ hbusy' (hstep.trans (hcycle.trans (coreTurn_run (hrst'.trans hrst))))
    | rstAssert => exact .of_step hstep (endsWithin_of_idle _ rfl)
    | rstRelease => exact .of_step hstep (ih (s := { s with turns := ts, rst := false }) hbusy rfl rfl)

/-- Settles O13: by induction on the schedule, whose turns complete the command, reset it or leave it in progress. -/
theorem commandInProgressCompletes : Obligations.CommandInProgressCompletes :=
  fun _ hbusy hrst => endsWithin_of_busy hbusy hrst

end Sys2Proof.Machine

/-! ## Normalisation (44_digraph_cipher.md R314 to R316) -/

namespace Sys2Proof.Machine

theorem isLower_iff (b : Byte) : isLower b = true ↔ 0x61 ≤ b.toNat ∧ b.toNat ≤ 0x7A := by
  simp [isLower]

theorem isAlpha_iff (b : Byte) :
    isAlpha b = true ↔ 0x41 ≤ b.toNat ∧ b.toNat ≤ 0x5A ∨ 0x61 ≤ b.toNat ∧ b.toNat ≤ 0x7A := by
  rw [isAlpha, Bool.or_eq_true, isUpper_iff, isLower_iff]

/-- On letters, upper() lowers the code of a lower-case one by 0x20. -/
theorem upper_of_isAlpha {b : Byte} (h : isAlpha b = true) :
    upper b = if 0x61 ≤ b.toNat then BitVec.ofNat 8 (b.toNat - 0x20) else b := by
  rw [isAlpha_iff] at h
  have hlower : isLower b = true ↔ 0x61 ≤ b.toNat := by
    rw [isLower_iff]
    omega
  simp only [upper, hlower]
  refine if_ctx_congr Iff.rfl (fun hle => ?_) fun _ => rfl
  apply BitVec.eq_of_toNat_eq
  rw [BitVec.toNat_sub_of_le (by rw [BitVec.le_def]; exact le_trans (by decide) hle)]
  exact (Nat.mod_eq_of_lt (by omega)).symm

theorem isUpper_upper {b : Byte} (h : isAlpha b = true) : isUpper (upper b) = true := by
  rw [upper_of_isAlpha h, isUpper_iff]
  rw [isAlpha_iff] at h
  split_ifs with hle
  · rw [BitVec.toNat_ofNat]
    omega
  · omega

theorem upper_of_isUpper {b : Byte} (h : isUpper b = true) : upper b = b := by
  rw [isUpper_iff] at h
  have hlower : ¬ isLower b = true := by
    rw [isLower_iff]
    omega
  exact if_neg hlower

theorem isUpper_of_mem_lettersOf {t : List Byte} {b : Byte} (h : b ∈ lettersOf t) : isUpper b = true := by
  obtain ⟨c, hc, rfl⟩ := List.mem_map.mp h
  exact isUpper_upper (List.mem_filter.mp hc).2

theorem length_lettersOf_le (t : List Byte) : (lettersOf t).length ≤ t.length := by
  rw [lettersOf, List.length_map]
  exact List.length_filter_le _ _

/-- An upper-case text is its own letters. -/
theorem lettersOf_of_isUpper {t : List Byte} (h : ∀ b ∈ t, isUpper b = true) : lettersOf t = t := by
  have hall : t.filter isAlpha = t := List.filter_eq_self.mpr fun b hb => by simp [isAlpha, h b hb]
  rw [lettersOf, hall]
  exact (List.map_congr_left fun b hb => upper_of_isUpper (h b hb)).trans (List.map_id' t)

theorem length_normalize_even (t : List Byte) : (normalize t).length % 2 = 0 := by
  unfold normalize
  split_ifs with hodd
  · rw [List.length_append, List.length_singleton]
    omega
  · omega

theorem length_normalize_le (t : List Byte) : (normalize t).length ≤ t.length + 1 := by
  have := length_lettersOf_le t
  unfold normalize
  split_ifs
  · rw [List.length_append, List.length_singleton]
    omega
  · omega

theorem isUpper_of_mem_normalize {t : List Byte} {b : Byte} (h : b ∈ normalize t) : isUpper b = true := by
  unfold normalize at h
  split_ifs at h
  · rcases List.mem_append.mp h with hletter | hpad
    · exact isUpper_of_mem_lettersOf hletter
    · rw [List.mem_singleton.mp hpad]
      decide
  · exact isUpper_of_mem_lettersOf h

/-- Even-length upper-case text is left alone (90_conflicts.md C3). -/
theorem normalize_of_even_isUpper {t : List Byte} (heven : t.length % 2 = 0) (h : ∀ b ∈ t, isUpper b = true) :
    normalize t = t := by
  rw [normalize, lettersOf_of_isUpper h, if_neg (by omega)]

/-- The letters as the statement writes them. -/
theorem lettersOf_eq (t : List Byte) :
    lettersOf t = (t.filter fun b => decide (0x41 ≤ b.toNat ∧ b.toNat ≤ 0x5A ∨ 0x61 ≤ b.toNat ∧ b.toNat ≤ 0x7A)).map
      fun b => if 0x61 ≤ b.toNat then BitVec.ofNat 8 (b.toNat - 0x20) else b := by
  have hletters : (fun b : Byte =>
      decide (0x41 ≤ b.toNat ∧ b.toNat ≤ 0x5A ∨ 0x61 ≤ b.toNat ∧ b.toNat ≤ 0x7A)) = isAlpha :=
    funext fun b => by rw [Bool.eq_iff_iff, decide_eq_true_eq, isAlpha_iff]
  rw [hletters, lettersOf]
  exact List.map_congr_left fun b hb => upper_of_isAlpha (List.mem_filter.mp hb).2

/-- Settles O38: the letters are upper-cased one by one, and the pad makes their count even. -/
theorem normalisedTextIsEvenAndUpperCase : Obligations.NormalisedTextIsEvenAndUpperCase := by
  intro t
  refine ⟨⟨lettersOf t, lettersOf_eq t, rfl⟩, length_normalize_even t, length_normalize_le t,
    fun b hb => (isUpper_iff b).mp (isUpper_of_mem_normalize hb), ?_, fun heven h => ?_⟩
  · exact normalize_of_even_isUpper (length_normalize_even t) fun _ => isUpper_of_mem_normalize
  · exact normalize_of_even_isUpper heven fun b hb => (isUpper_iff b).mpr (h b hb)

end Sys2Proof.Machine

/-! ## The invariant of the machine (10_state.md sections 4 and 5, 70_reset_and_hazards.md R450) -/

namespace Sys2Proof.Machine

/-! ### The invariant, part by part -/

/-- The operand arrays are canonical and hold only entries that exist. -/
structure OperandArraysOk (b : Build) (key vec : Memory (BitVec 5)) (inBuf : Memory Byte) : Prop where
  key_wf : key.wf = true
  vec_wf : vec.wf = true
  inBuf_wf : inBuf.wf = true
  key_exist : (key.all fun e => inBlock b e.1) = true
  vec_exist : (vec.all fun e => decide (e.1 < b.nMax)) = true
  inBuf_exist : (inBuf.all fun e => decide (e.1 < 4 * inWords b)) = true

/-- RES_POS holds its four fields alone, each below 5. -/
def ResPosOk (w : Word) : Prop :=
  w &&& ~~~(0x00007777 : Word) = 0
    ∧ (posField w 0 ≤ 4 ∧ posField w 4 ≤ 4 ∧ posField w 8 ≤ 4 ∧ posField w 12 ≤ 4)

/-- RES_PAIR holds its three fields alone, and one of the three cases. -/
def ResPairOk (w : Word) : Prop := w &&& ~~~(0x0003FFFF : Word) = 0 ∧ (w.extractLsb' 16 2).toNat ≠ 3

/-- The result registers are canonical, hold only entries that exist, and legal values. -/
structure ResultsOk (b : Build) (r : Results) : Prop where
  rmat_wf : r.rmat.wf = true
  rvec_wf : r.rvec.wf = true
  outBuf_wf : r.outBuf.wf = true
  rmat_exist : (r.rmat.all fun e => inBlock b e.1) = true
  rvec_exist : (r.rvec.all fun e => decide (e.1 < b.nMax)) = true
  outBuf_exist : (r.outBuf.all fun e => decide (e.1 < 4 * outWords b)) = true
  outLen_le : r.outLen.toNat ≤ 4 * outWords b
  resDetmod_le : r.resDetmod.toNat ≤ 25
  resPos_ok : ResPosOk r.resPos
  resPair_ok : ResPairOk r.resPair
  rvec_residues : (r.rvec.all fun e => decide (e.2.toNat ≤ 25)) = true

/-- ERRCODE and ERRINFO hold a code of 60_exceptions.md R400 and no detail without an error. -/
def ErrorOk (code : BitVec 4) (info : Half) : Prop := code.toNat ≤ 7 ∧ (code = 0 → info = 0)

theorem errorOk_zero : ErrorOk 0 0 := ⟨by decide, fun _ => rfl⟩

theorem inv_iff (s : State) :
    s.Inv ↔ OperandArraysOk s.build s.key s.vec s.inBuf ∧ ResultsOk s.build s.results
      ∧ s.host.names.wf = true ∧ ErrorOk s.errcode s.errinfo ∧ s.PhaseOk := by
  constructor
  · rintro ⟨⟨key, rmat, vec, rvec, inBuf, outBuf, names⟩, ⟨key', rmat', vec', rvec', inBuf', outBuf'⟩,
      ⟨code, info, outLen, detmod, posMask, posFields, pairMask, pairCase, residues⟩, phase⟩
    exact ⟨⟨key, vec, inBuf, key', vec', inBuf'⟩, ⟨rmat, rvec, outBuf, rmat', rvec', outBuf', outLen, detmod,
      ⟨posMask, posFields⟩, ⟨pairMask, pairCase⟩, residues⟩, names, ⟨code, info⟩, phase⟩
  · rintro ⟨⟨key, vec, inBuf, key', vec', inBuf'⟩, ⟨rmat, rvec, outBuf, rmat', rvec', outBuf', outLen, detmod,
      ⟨posMask, posFields⟩, ⟨pairMask, pairCase⟩, residues⟩, names, ⟨code, info⟩, phase⟩
    exact ⟨⟨key, rmat, vec, rvec, inBuf, outBuf, names⟩, ⟨key', rmat', vec', rvec', inBuf', outBuf'⟩,
      ⟨code, info, outLen, detmod, posMask, posFields, pairMask, pairCase, residues⟩, phase⟩

/-! ### Moves that touch no register of the core -/

/-- The host agent, the schedule and the draw counter are no part of what the invariant says of the core. -/
theorem State.Inv.with_agents {s : State} (h : s.Inv) {agent : HostAgent} (hnames : agent.names.wf = true)
    (ts : List Turn) (d : Nat) : State.Inv { s with host := agent, turns := ts, draws := d } := by
  obtain ⟨operands, results, -, error, flags, reset⟩ := (inv_iff s).mp h
  refine (inv_iff _).mpr ⟨operands, results, hnames, error, flags, fun hrst => ?_⟩
  exact congrArg (fun t : State => { t with host := agent, turns := ts, draws := d }) (reset hrst)

theorem State.Inv.with_turns {s : State} (h : s.Inv) (ts : List Turn) : State.Inv { s with turns := ts } := by
  obtain ⟨-, -, names, -⟩ := (inv_iff s).mp h
  exact h.with_agents names ts s.draws

theorem State.Inv.with_rst_released {s : State} (h : s.Inv) : State.Inv { s with rst := false } := by
  obtain ⟨operands, results, names, error, flags, -⟩ := (inv_iff s).mp h
  exact (inv_iff _).mpr ⟨operands, results, names, error, flags, fun hrst => Bool.noConfusion hrst⟩

theorem resPosOk_zero : ResPosOk 0 := by unfold ResPosOk; decide

theorem resPairOk_zero : ResPairOk 0 := by unfold ResPairOk; decide

theorem resultsOk_reset (b : Build) : ResultsOk b ⟨0, 0, 0, 0, 0, [], [], []⟩ :=
  ⟨rfl, rfl, rfl, rfl, rfl, rfl, Nat.zero_le _, Nat.zero_le _, resPosOk_zero, resPairOk_zero, rfl⟩

/-- A core after reset meets the invariant (R450), whether rst is still asserted or not. -/
theorem inv_resetCore {s : State} (hnames : s.host.names.wf = true) (rst : Bool) :
    State.Inv { s.resetCore with rst := rst } :=
  (inv_iff _).mpr ⟨⟨rfl, rfl, rfl, rfl, rfl, rfl⟩, resultsOk_reset s.build, hnames, errorOk_zero,
    fun hbusy => Bool.noConfusion hbusy, fun _ => rfl⟩

/-- Settles O55: State.reset is a core after reset, with rst released. -/
theorem resetMeetsTheInvariant : Obligations.ResetMeetsTheInvariant := inv_resetCore (s := State.reset) rfl false

/-- Under rst the core is idle. -/
theorem State.Inv.rst_of_busy {s : State} (h : s.Inv) (hbusy : s.busy = true) : s.rst = false := by
  obtain ⟨-, -, -, -, -, reset⟩ := (inv_iff s).mp h
  cases hrst : s.rst with
  | false => rfl
  | true =>
    rw [← reset hrst, State.resetCore_busy] at hbusy
    cases hbusy

/-! ### Host writes -/

/-- An entry or a word of a host-written array that exists. -/
def Reg.Exists (b : Build) : Reg → Prop
  | .key i j => i < b.nMax ∧ j < b.nMax
  | .vec j => j < b.nMax
  | .inWord w => w < inWords b
  | _ => True

theorem scalarReg_exists (b : Build) (k : Nat) : (scalarReg k).Exists b := by
  unfold scalarReg
  split <;> trivial

theorem blockReg_exists {b : Build} {mk : Nat → Nat → Reg}
    (h : ∀ i j, i < b.nMax ∧ j < b.nMax → (mk i j).Exists b) (rel : Nat) : (blockReg b mk rel).Exists b := by
  unfold blockReg
  split_ifs with hin
  · exact h _ _ hin
  · trivial

theorem lineReg_exists {b : Build} {n : Nat} {mk : Nat → Reg} (h : ∀ k, k < n → (mk k).Exists b) (rel : Nat) :
    (lineReg n mk rel).Exists b := by
  unfold lineReg
  split_ifs with hin
  · exact h _ hin
  · trivial

theorem exists_ite {b : Build} {c : Prop} [Decidable c] {r r' : Reg} (h : r.Exists b) (h' : r'.Exists b) :
    (if c then r else r').Exists b := by
  split_ifs
  · exact h
  · exact h'

/-- The register map names only entries that exist. -/
theorem regAt_exists (b : Build) (off : Nat) : (regAt b off).Exists b :=
  have line {n : Nat} {mk : Nat → Reg} (h : ∀ k, (mk k).Exists b) (rel : Nat) : (lineReg n mk rel).Exists b :=
    lineReg_exists (fun k _ => h k) rel
  have reserved : Reg.reserved.Exists b := trivial
  exists_ite (scalarReg_exists b _) <| exists_ite reserved <|
  exists_ite (blockReg_exists (mk := .key) (fun _ _ h => h) _) <|
  exists_ite (blockReg_exists (mk := .rmat) (fun _ _ _ => trivial) _) <|
  exists_ite (lineReg_exists (mk := .vec) (fun _ h => h) _) <| exists_ite (line (mk := .rvec) (fun _ => trivial) _) <|
  exists_ite reserved <| exists_ite (line (mk := .ksq) (fun _ => trivial) _) <|
  exists_ite reserved <| exists_ite (lineReg_exists (mk := .inWord) (fun _ h => h) _) <|
  exists_ite (line (mk := .outWord) (fun _ => trivial) _) reserved

theorem inBlock_entryIndex {b : Build} {i j : Nat} (hi : i < b.nMax) (hj : j < b.nMax) :
    inBlock b (entryIndex i j) = true := by
  have := b.bounds
  have hdiv : (8 * i + j) / 8 = i := by omega
  have hmod : (8 * i + j) % 8 = j := by omega
  simp [inBlock, entryIndex, hdiv, hmod, hi, hj]

theorem operandArraysOk_regWrite {s : State} {r : Reg} (hr : r.Exists s.build)
    (h : OperandArraysOk s.build s.key s.vec s.inBuf) (v : Word) :
    OperandArraysOk (regWrite s r v).build (regWrite s r v).key (regWrite s r v).vec (regWrite s r v).inBuf := by
  cases r
  case key i j =>
    obtain ⟨hi, hj⟩ := hr
    exact { h with
      key_wf := Memory.wf_write _ _ _ h.key_wf
      key_exist := Memory.all_write _ _ _ _ h.key_exist (inBlock_entryIndex hi hj) }
  case vec j =>
    exact { h with
      vec_wf := Memory.wf_write _ _ _ h.vec_wf
      vec_exist := Memory.all_write _ _ _ _ h.vec_exist (decide_eq_true hr) }
  case inWord w =>
    have hw : w < inWords s.build := hr
    exact { h with
      inBuf_wf := Memory.wf_writeRange _ _ _ _ h.inBuf_wf
      inBuf_exist := Memory.all_writeRange _ _ _ _ _ h.inBuf_exist fun k hk =>
        decide_eq_true (show 4 * w + k < 4 * inWords s.build by omega) }
  all_goals exact h

/-- A host write keeps the operand arrays in form. -/
theorem operandArraysOk_busWrite {s : State} (h : OperandArraysOk s.build s.key s.vec s.inBuf) (o : Nat) (v : Word) :
    OperandArraysOk (busWrite o v s).build (busWrite o v s).key (busWrite o v s).vec (busWrite o v s).inBuf := by
  rcases busWrite_cases o v s with ⟨-, hw | hw | hw⟩ | ⟨-, hw⟩
  · rw [hw]; exact h
  · rw [hw]; exact h
  · rw [hw]; exact h
  · rw [hw]; exact operandArraysOk_regWrite (regAt_exists s.build o) h v

/-- DONE, ERRCODE and ERRINFO are 0 while BUSY = 1. -/
def FlagsOk (s : State) : Prop := s.busy = true → s.done = false ∧ s.errcode = 0 ∧ s.errinfo = 0

theorem flagsOk_writeStatus {s : State} (h : FlagsOk s) (v : Word) : FlagsOk (s.writeStatus v) := by
  intro hbusy
  obtain ⟨done, error⟩ := h hbusy
  exact ⟨by rw [State.writeStatus_done, done, Bool.false_and], error⟩

/-- A host write keeps the error registers legal and the flags in phase. -/
theorem errorOk_flagsOk_busWrite {s : State} (herror : ErrorOk s.errcode s.errinfo) (hflags : FlagsOk s)
    (o : Nat) (v : Word) : ErrorOk (busWrite o v s).errcode (busWrite o v s).errinfo ∧ FlagsOk (busWrite o v s) := by
  rcases busWrite_cases o v s with ⟨-, hw | hw | hw⟩ | ⟨-, hw⟩
  · rw [hw]; exact ⟨herror, hflags⟩
  · rw [hw]; exact ⟨herror, flagsOk_writeStatus hflags v⟩
  · rw [hw]; exact ⟨herror, hflags⟩
  · rw [hw]
    rcases regWrite_cases s (regAt s.build o) v with hw | hw | hw | hw | ⟨_, _, _, _, _, _, hw⟩ <;> rw [hw]
    · exact ⟨herror, hflags⟩
    · exact ⟨herror, hflags⟩
    · exact ⟨herror, flagsOk_writeStatus hflags v⟩
    · exact ⟨errorOk_zero, fun _ => ⟨rfl, rfl, rfl⟩⟩
    · exact ⟨herror, hflags⟩

theorem State.Inv.busWrite {s : State} (h : s.Inv) (hrst : s.rst = false) (o : Nat) (v : Word) :
    (busWrite o v s).Inv := by
  obtain ⟨operands, results, names, error, flags, -⟩ := (inv_iff s).mp h
  obtain ⟨build_eq, rst_eq, -, results_eq, -⟩ := busWrite_frame o v s
  obtain ⟨error', flags'⟩ := errorOk_flagsOk_busWrite error flags o v
  refine (inv_iff _).mpr ⟨operandArraysOk_busWrite operands o v, ?_, ?_, error', flags', fun hr => ?_⟩
  · rwa [build_eq, results_eq]
  · rwa [busWrite_keeps_host]
  · rw [rst_eq, hrst] at hr; cases hr

/-! ### Host turns -/

/-- The host's names stay canonical: only a read, a poll or an assignment writes one. -/
theorem hostOp_names_wf (op : HostOp) {s : State} (h : s.host.names.wf = true) :
    (hostOp op s).host.names.wf = true := by
  have received {width : Nat} {off : Int} {v : Word} {t : State} (hread : hostRead s width off = .ok (v, t)) (x : Nat) :
      (t.receive x v).host.names.wf = true := by
    unfold hostRead at hread
    split at hread
    · cases hread
      exact Memory.wf_write _ _ _ h
    · cases hread
  cases op with
  | read width off x =>
    simp only [hostOp]
    split
    · exact h
    · next hread => exact received hread x
  | write width off e =>
    simp only [hostOp]
    split
    · exact h
    · next hwrite =>
      unfold hostWrite at hwrite
      split at hwrite
      · cases hwrite
        rw [State.advanceHost_host, busWrite_keeps_host]
        exact h
      · cases hwrite
  | poll x =>
    simp only [hostOp]
    split
    · exact h
    · next hread => split_ifs <;> exact received hread x
  | assign x e => exact Memory.wf_write _ _ _ h
  | branch rel a b p =>
    simp only [hostOp]
    split_ifs <;> exact h
  | goto p => exact h

theorem hostStep_names_wf {s : State} (h : s.host.names.wf = true) : (hostStep s).host.names.wf = true := by
  unfold hostStep
  split
  · exact h
  · split
    · exact h
    · exact hostOp_names_wf _ h

theorem State.Inv.hostStep {s : State} (h : s.Inv) : (hostStep s).Inv := by
  obtain ⟨-, -, names, -⟩ := (inv_iff s).mp h
  have names' := hostStep_names_wf names
  rcases hostStep_cases s with ⟨agent, hstep⟩ | ⟨o, agent, -, -, hstep⟩ | ⟨o, v, agent, hrst, -, hstep⟩
  · rw [hstep] at names' ⊢
    exact h.with_agents names' s.turns s.draws
  · rw [hstep] at names' ⊢
    exact h.with_agents names' s.turns _
  · rw [hstep] at names' ⊢
    exact (h.busWrite hrst o v).with_agents names' _ _

/-! ### Legal result values -/

/-- A word below 2^k has no bit outside the low k. -/
theorem and_not_lowMask {w : Word} {k : Nat} (h : w.toNat < 2 ^ k) : w &&& ~~~(BitVec.ofNat 32 (2 ^ k - 1)) = 0 := by
  apply BitVec.eq_of_getLsbD_eq
  intro i hi
  rw [BitVec.getLsbD_and, BitVec.getLsbD_not, BitVec.getLsbD_ofNat, Nat.testBit_two_pow_sub_one]
  by_cases hik : i < k
  · simp [hi, hik]
  · have hbit : w.getLsbD i = false := Nat.testBit_lt_two_pow (h.trans_le (Nat.pow_le_pow_right (by decide) (by omega)))
    simp [hbit]

theorem posField_ofNat {n : Nat} (h : n < 2 ^ 32) (pos : Nat) : posField (BitVec.ofNat 32 n) pos = n / 2 ^ pos % 8 := by
  rw [posField, BitVec.extractLsb'_toNat, BitVec.toNat_ofNat, Nat.mod_eq_of_lt h, Nat.shiftRight_eq_div_pow]

/-- A field of RES_POS below 5 stays in its three bits, at each of the four places. -/
theorem posField_in_mask {x : Nat} (hx : x < 5) :
    BitVec.ofNat 32 x &&& ~~~(0x00007777 : Word) = 0 ∧ BitVec.ofNat 32 x <<< 4 &&& ~~~(0x00007777 : Word) = 0
      ∧ BitVec.ofNat 32 x <<< 8 &&& ~~~(0x00007777 : Word) = 0
      ∧ BitVec.ofNat 32 x <<< 12 &&& ~~~(0x00007777 : Word) = 0 := by
  interval_cases x <;> decide

/-- A position in the square. -/
def Position.InSquare (p : Position) : Prop := p.row < 5 ∧ p.col < 5

theorem resPosOk_posWord {p1 p2 : Position} (h1 : p1.InSquare) (h2 : p2.InSquare) : ResPosOk (posWord p1 p2) := by
  obtain ⟨hr1, hc1⟩ := h1
  obtain ⟨hr2, hc2⟩ := h2
  constructor
  · obtain ⟨row1, -⟩ := posField_in_mask hr1
    obtain ⟨-, col1, -⟩ := posField_in_mask hc1
    obtain ⟨-, -, row2, -⟩ := posField_in_mask hr2
    obtain ⟨-, -, -, col2⟩ := posField_in_mask hc2
    rw [posWord, BitVec.and_or_distrib_right, BitVec.and_or_distrib_right, BitVec.and_or_distrib_right, row1, col1,
      row2, col2]
    rfl
  · rw [posWord_eq_ofNat hr1 hc1 hr2]
    simp only [posField_ofNat (show p1.row + 0x10 * p1.col + 0x100 * p2.row + 0x1000 * p2.col < 2 ^ 32 by omega)]
    omega

theorem subst_case_le (b : Build) (p1 p2 : Position) (d : Direction) : (subst b p1 p2 d).case ≤ 2 := by
  unfold subst
  split_ifs <;> simp

theorem resPairOk_pairWord {p : Pair} (h : p.case ≤ 2) : ResPairOk (pairWord p) := by
  have h1 := p.out1.isLt
  have h2 := p.out2.isLt
  rw [pairWord_eq_ofNat]
  have hlt : p.out1.toNat + 0x100 * p.out2.toNat + 0x10000 * p.case < 2 ^ 18 := by omega
  have htoNat := Nat.mod_eq_of_lt (hlt.trans (show 2 ^ 18 < 2 ^ 32 by decide))
  constructor
  · exact and_not_lowMask (k := 18) (by rwa [BitVec.toNat_ofNat, htoNat])
  · rw [BitVec.extractLsb'_toNat, BitVec.toNat_ofNat, htoNat, Nat.shiftRight_eq_div_pow]
    omega

theorem toNat_ofNat_residue (x : Int) : (BitVec.ofNat 5 (mod26 x)).toNat ≤ 25 := by
  have := mod26_lt x
  rw [BitVec.toNat_ofNat]
  omega

/-! ### Result writes -/

theorem resultsOk_writeRmat {s : State} (h : ResultsOk s.build s.results) (n : Nat) (f : Nat → Nat → Word) :
    ResultsOk s.build (s.writeRmat n f).results :=
  { h with
    rmat_wf := Memory.wf_writeBlock _ _ _ _ h.rmat_wf
    rmat_exist := Memory.all_writeBlock _ _ _ _ _ h.rmat_exist fun _ hi _ hj => inBlock_entryIndex hi hj }

theorem resultsOk_writeRvec {s : State} (h : ResultsOk s.build s.results) (n : Nat) {f : Nat → Nat}
    (hf : ∀ i, f i < 26) : ResultsOk s.build (s.writeRvec n f).results := by
  have residue (i : Nat) : ((if i < n then BitVec.ofNat 5 (f i) else 0 : BitVec 5)).toNat ≤ 25 := by
    have := hf i
    split_ifs
    · rw [BitVec.toNat_ofNat]
      omega
    · decide
  exact { h with
    rvec_wf := Memory.wf_writeRange _ _ _ _ h.rvec_wf
    rvec_exist := Memory.all_writeRange _ _ _ _ _ h.rvec_exist fun k hk => decide_eq_true (by simpa using hk)
    rvec_residues := Memory.all_writeRange _ _ _ _ _ h.rvec_residues fun k _ => decide_eq_true (residue k) }

theorem resultsOk_writeOut {s : State} (h : ResultsOk s.build s.results) {t : List Byte}
    (ht : t.length ≤ 4 * outWords s.build) : ResultsOk s.build (s.writeOut t).results :=
  { h with
    outBuf_wf := Memory.wf_writeRange _ _ _ _ h.outBuf_wf
    outBuf_exist := Memory.all_writeRange _ _ _ _ _ h.outBuf_exist fun k hk =>
      decide_eq_true (show 0 + k < 4 * outWords s.build by omega)
    outLen_le := (Nat.mod_le _ _).trans ht }

theorem resultsOk_scalar {s : State} (h : ResultsOk s.build s.results) (w : Word) :
    ResultsOk s.build { s.results with resScalar := w } := { h with }

theorem resultsOk_detmod {b : Build} {r : Results} (h : ResultsOk b r) (w : Word) (x : Int) :
    ResultsOk b { r with resScalar := w, resDetmod := BitVec.ofNat 5 (mod26 x) } :=
  { h with resDetmod_le := toNat_ofNat_residue x }

/-! ### How long an output text can be -/

theorem digraphs_length {b : Build} {dir : Direction} {rd : Nat → Check Byte} {q n : Nat} {u : List Byte}
    (h : digraphs b dir rd q n = .ok u) : u.length = 2 * n := by
  induction n generalizing q u with
  | zero => cases h; rfl
  | succ n ih =>
    obtain ⟨a, -, h⟩ := bind_eq_ok h
    obtain ⟨p1, -, h⟩ := bind_eq_ok h
    obtain ⟨c, -, h⟩ := bind_eq_ok h
    obtain ⟨p2, -, h⟩ := bind_eq_ok h
    obtain ⟨rest, hrest, h⟩ := bind_eq_ok h
    cases h
    simp only [List.length_cons, ih hrest]
    omega

theorem length_text (s : State) : s.text.length = s.textLen := by simp [State.text]

/-- A normalised text fits OUT (10_state.md R56). -/
theorem length_normalize_text_le {s : State} (h : s.textLen ≤ s.build.textMax) :
    (normalize s.text).length ≤ 4 * outWords s.build := by
  have := length_normalize_le s.text
  rw [length_text] at this
  simp only [outWords]
  omega

/-- A block whose bytes all exist in IN fits OUT. -/
theorem dim_le_of_letters {s : State} (hin : (s.inBuf.all fun e => decide (e.1 < 4 * inWords s.build)) = true)
    (h : ∀ j, j < s.dim → s.LetterOk j) : s.dim ≤ 4 * outWords s.build := by
  by_cases h0 : s.dim = 0
  · omega
  · have hmem := Memory.mem_of_read (h (s.dim - 1) (by omega)).spec.1
    have hlt := of_decide_eq_true (List.all_eq_true.mp hin _ hmem)
    simp only [inWords, outWords] at hlt ⊢
    omega

/-! ### Completions -/

theorem resultsOk_of_conclude {s t : State} {r : Check State} (h : conclude s r = .next t)
    (hs : ResultsOk s.build s.results) (hr : ∀ u, r = .ok u → ResultsOk s.build u.results) :
    ResultsOk s.build t.results := by
  rcases (conclude_next_iff s t r).mp h with ⟨u, hu, rfl⟩ | ⟨e, x, -, rfl⟩
  · exact hr u hu
  · exact hs

theorem lookup_eq_ok {b : Build} {c : Byte} {k : Nat} {p : Position} (h : lookup b c k = .ok p) : pos b c = some p := by
  unfold lookup at h
  split at h
  · next hpos => cases h; exact hpos
  · cases h

theorem inSquare_of_pos {b : Build} {c : Byte} {p : Position} (h : pos b c = some p) : p.InSquare := by
  obtain ⟨hrow, hcol, -⟩ := (pos_eq_some_iff b c p).mp h
  exact ⟨hrow, hcol⟩

/-- Every command's result writes are legal. -/
theorem exec_resultsOk {i : Instr} {s t : State} (h : exec i s = .next t) (hs : ResultsOk s.build s.results)
    (hin : (s.inBuf.all fun e => decide (e.1 < 4 * inWords s.build)) = true) : ResultsOk s.build t.results := by
  have block {n : Nat} {u : Nat → Nat} (hn : n ≤ 4 * outWords s.build) :
      ResultsOk s.build (s.writeOut (blockText n u)).results :=
    resultsOk_writeOut hs (by simpa [blockText] using hn)
  cases i with
  | nop => exact resultsOk_of_conclude (r := .ok s) h hs fun u hu => by cases hu; exact hs
  | det =>
    refine resultsOk_of_conclude h hs fun u hu => ?_
    obtain ⟨-, -, hu⟩ := bind_eq_ok hu
    cases hu
    exact resultsOk_detmod hs _ _
  | subm r c =>
    refine resultsOk_of_conclude h hs fun u hu => ?_
    obtain ⟨-, -, hu⟩ := bind_eq_ok hu
    obtain ⟨-, -, hu⟩ := bind_eq_ok hu
    cases hu
    exact resultsOk_writeRmat hs _ _
  | cof r c =>
    refine resultsOk_of_conclude h hs fun u hu => ?_
    obtain ⟨-, -, hu⟩ := bind_eq_ok hu
    obtain ⟨-, -, hu⟩ := bind_eq_ok hu
    cases hu
    exact resultsOk_scalar hs _
  | adj =>
    refine resultsOk_of_conclude h hs fun u hu => ?_
    obtain ⟨-, -, hu⟩ := bind_eq_ok hu
    cases hu
    exact resultsOk_writeRmat hs _ _
  | modinv =>
    refine resultsOk_of_conclude h hs fun u hu => ?_
    obtain ⟨k, -, hu⟩ := bind_eq_ok hu
    cases hu
    exact resultsOk_scalar hs _
  | invkey =>
    refine resultsOk_of_conclude h hs fun u hu => ?_
    obtain ⟨-, -, hu⟩ := bind_eq_ok hu
    obtain ⟨k, -, hu⟩ := bind_eq_ok hu
    cases hu
    exact resultsOk_detmod (resultsOk_writeRmat hs _ _) _ _
  | mvmul m =>
    refine resultsOk_of_conclude h hs fun u hu => ?_
    obtain ⟨A, -, hu⟩ := bind_eq_ok hu
    obtain ⟨-, -, hu⟩ := bind_eq_ok hu
    cases hu
    exact resultsOk_writeRvec hs _ fun _ => mod26_lt _
  | menc =>
    refine resultsOk_of_conclude h hs fun u hu => ?_
    obtain ⟨-, -, hu⟩ := bind_eq_ok hu
    obtain ⟨-, -, hu⟩ := bind_eq_ok hu
    obtain ⟨⟨⟩, hletters, hu⟩ := bind_eq_ok hu
    cases hu
    exact block (dim_le_of_letters hin ((checkLetters_ok_iff s).mp hletters))
  | mdec =>
    refine resultsOk_of_conclude h hs fun u hu => ?_
    obtain ⟨-, -, hu⟩ := bind_eq_ok hu
    obtain ⟨-, -, hu⟩ := bind_eq_ok hu
    obtain ⟨k, -, hu⟩ := bind_eq_ok hu
    obtain ⟨⟨⟩, hletters, hu⟩ := bind_eq_ok hu
    cases hu
    exact block (dim_le_of_letters hin ((checkLetters_ok_iff s).mp hletters))
  | findpos =>
    refine resultsOk_of_conclude h hs fun u hu => ?_
    obtain ⟨p, hp, hu⟩ := bind_eq_ok hu
    cases hu
    exact { hs with
      resPos_ok := resPosOk_posWord (inSquare_of_pos (lookup_eq_ok hp)) ⟨Nat.succ_pos 4, Nat.succ_pos 4⟩ }
  | dgrule m =>
    refine resultsOk_of_conclude h hs fun u hu => ?_
    obtain ⟨p1, hp1, hu⟩ := bind_eq_ok hu
    obtain ⟨p2, hp2, hu⟩ := bind_eq_ok hu
    cases hu
    exact { hs with
      resPos_ok := resPosOk_posWord (inSquare_of_pos (lookup_eq_ok hp1)) (inSquare_of_pos (lookup_eq_ok hp2))
      resPair_ok := resPairOk_pairWord (subst_case_le _ _ _ _) }
  | norm =>
    refine resultsOk_of_conclude h hs fun u hu => ?_
    obtain ⟨⟨⟩, hmax, hu⟩ := bind_eq_ok hu
    obtain ⟨-, -, hu⟩ := bind_eq_ok hu
    cases hu
    exact resultsOk_writeOut hs (length_normalize_text_le ((checkTextMax_ok_iff s).mp hmax))
  | denc =>
    refine resultsOk_of_conclude h hs fun u hu => ?_
    obtain ⟨⟨⟩, hmax, hu⟩ := bind_eq_ok hu
    obtain ⟨-, -, hu⟩ := bind_eq_ok hu
    obtain ⟨t, ht, hu⟩ := bind_eq_ok hu
    cases hu
    have hfits := length_normalize_text_le ((checkTextMax_ok_iff s).mp hmax)
    exact resultsOk_writeOut hs (by rw [digraphs_length ht]; omega)
  | ddec =>
    refine resultsOk_of_conclude h hs fun u hu => ?_
    obtain ⟨⟨⟩, hmax, hu⟩ := bind_eq_ok hu
    obtain ⟨-, -, hu⟩ := bind_eq_ok hu
    obtain ⟨t, ht, hu⟩ := bind_eq_ok hu
    cases hu
    have hfits := (checkTextMax_ok_iff s).mp hmax
    exact resultsOk_writeOut hs (by rw [digraphs_length ht]; simp only [outWords]; omega)

theorem coreStep_resultsOk {s t : State} (h : coreStep s = .next t) (hs : ResultsOk s.build s.results)
    (hin : (s.inBuf.all fun e => decide (e.1 < 4 * inWords s.build)) = true) : ResultsOk s.build t.results := by
  rcases coreStep_cases s with ⟨-, idle⟩ | ⟨w, i, -, -, command⟩ | ⟨w, e, -, -, illegal⟩
  · obtain rfl := Host.Outcome.next.inj (idle.symm.trans h)
    exact hs
  · exact exec_resultsOk (command.symm.trans h) hs hin
  · obtain rfl := Host.Outcome.next.inj (illegal.symm.trans h)
    exact hs

/-- A completed command leaves legal results and an error, and the core idle. -/
theorem State.Inv.finish {s : State} (h : s.Inv) (hbusy : s.busy = true) {q : Results} (hq : ResultsOk s.build q)
    {code : BitVec 4} {info : Half} (herror : ErrorOk code info) : ((s.withResults q).finish code info).Inv := by
  obtain ⟨operands, -, names, -, -, -⟩ := (inv_iff s).mp h
  refine (inv_iff _).mpr ⟨operands, hq, names, herror, fun hb => Bool.noConfusion hb, fun hrst => ?_⟩
  exact absurd ((h.rst_of_busy hbusy).symm.trans hrst) Bool.false_ne_true

theorem State.Inv.coreStep {s t : State} (h : s.Inv) (hstep : coreStep s = .next t) : t.Inv := by
  obtain ⟨operands, results, -⟩ := (inv_iff s).mp h
  have results' := coreStep_resultsOk hstep results operands.inBuf_exist
  rcases coreStep_next hstep with ⟨rfl, -⟩ | ⟨q, rfl, hbusy⟩ | ⟨code, info, hlo, hhi, rfl, hbusy⟩
  · exact h
  · exact h.finish hbusy results' errorOk_zero
  · have hcode : ErrorOk code info := ⟨hhi, by rintro rfl; exact absurd hlo (by decide)⟩
    exact h.finish hbusy results hcode

theorem State.Inv.moves {s t : State} (h : s.Inv) (hmove : Moves s t) : t.Inv := by
  cases hmove with
  | nothing => exact h
  | host => exact h.hostStep
  | completion _ hu hcore =>
    rcases hu with rfl | rfl
    · exact h.coreStep hcore
    · exact h.hostStep.coreStep hcore
  | rstAssert =>
    obtain ⟨-, -, names, -⟩ := (inv_iff s).mp h
    exact inv_resetCore names true
  | rstRelease => exact h.with_rst_released

/-- Settles O54: each move of a step keeps the invariant, part by part. -/
theorem stepKeepsTheInvariant : Obligations.StepKeepsTheInvariant :=
  fun s _ h hstep => (h.with_turns s.turns.tail).moves (step_moves hstep)

end Sys2Proof.Machine

/-! ## CheckKey and CheckDim (40_control.md R185, R186) -/

namespace Sys2Proof.Machine

theorem not_dimOk {s : State} (h : s.dim < 2 ∨ s.build.nMax < s.dim) : ¬ s.DimOk := by
  rintro ⟨_, _⟩
  omega

/-- Settles O15: the dimension is the first thing MVMUL RMAT checks. -/
theorem dimensionOutOfRangeStopsMvmulRmat : Obligations.DimensionOutOfRangeStopsMvmulRmat := by
  intro s h
  have hmatrix : checkMatrix .rmat s = .error (.raise .invalidKey 0xFFFF#16) := by
    simp only [checkMatrix, checkDim_error s (not_dimOk h), bind_error_check]
  simp only [Raises, exec, execMvmul, hmatrix, bind_error_check]
  rfl

/-- A command that reads the key ends as CheckKey does. -/
theorem exec_of_checkKey_error {i : Instr} {s : State} {e : Stop} (hi : UsesKey i = true) (h : checkKey s = .error e) :
    exec i s = conclude s (.error e) := by
  cases i with
  | det => simp only [exec, execDet, h, bind_error_check]
  | subm r c => simp only [exec, execSubm, h, bind_error_check]
  | cof r c => simp only [exec, execCof, h, bind_error_check]
  | adj => simp only [exec, execAdj, h, bind_error_check]
  | invkey => simp only [exec, execInvkey, h, bind_error_check]
  | mvmul m =>
    cases m with
    | key => simp only [exec, execMvmul, checkMatrix, h, bind_error_check]
    | rmat => cases hi
  | menc => simp only [exec, execMenc, h, bind_error_check]
  | mdec => simp only [exec, execMdec, h, bind_error_check]
  | nop | modinv | findpos | dgrule | norm | denc | ddec => cases hi

theorem checkKey_of_not_dimOk {s : State} (h : ¬ s.DimOk) : checkKey s = .error (.raise .invalidKey 0xFFFF#16) := by
  rw [checkKey, checkDim_error s h, bind_error_check]

/-- CheckKey stops at the first failing entry in row-major order. -/
theorem checkKey_of_first_failure {s : State} {r c : Nat} {e : Stop} (hdim : s.DimOk) (hr : r < s.dim) (hc : c < s.dim)
    (before : ∀ r' c', r' < s.dim → c' < s.dim → r' < r ∨ r' = r ∧ c' < c → s.KeyEntryOk r' c')
    (he : checkKeyEntry s r c = .error e) : checkKey s = .error e := by
  rw [checkKey, (checkDim_ok_iff s).mpr hdim, bind_ok_check, scan_error_iff]
  refine ⟨r, Nat.zero_le r, by omega, ?_, fun r' _ hr' => ?_⟩
  · exact (scan_error_iff _ _ _ _).mpr ⟨c, Nat.zero_le c, by omega, he, fun c' _ hc' =>
      (checkKeyEntry_ok_iff s r c').mpr (before r c' hr (by omega) (.inr ⟨rfl, hc'⟩))⟩
  · exact (scan_ok_iff _ _ _).mpr fun c' _ hc' =>
      (checkKeyEntry_ok_iff s r' c').mpr (before r' c' (by omega) (by omega) (.inl hr'))

theorem checkKeyEntry_unwritten {s : State} {r c : Nat} (h : s.key.read (8 * r + c) = none) :
    checkKeyEntry s r c = .error (.fault .unwrittenOperand) := by
  rw [checkKeyEntry_eq, entryIndex, h]

theorem checkKeyEntry_above {s : State} {r c : Nat} {v : BitVec 5} (h : s.key.read (8 * r + c) = some v)
    (hv : 25 < v.toNat) : checkKeyEntry s r c = .error (.raise .invalidKey (half (8 * r + c))) := by
  rw [checkKeyEntry_eq, entryIndex, h]
  exact if_neg (by omega)

/-- Settles O16: the dimension, then the first failing entry, ends CheckKey and with it the command. -/
theorem checkKeyReportsTheFirstFailure : Obligations.CheckKeyReportsTheFirstFailure := by
  intro i s hi
  refine ⟨fun hdim => ?_, fun r c hdim hr hc before => ⟨fun hnone => ?_, fun v hsome hv => ?_⟩⟩
  · exact exec_of_checkKey_error hi (checkKey_of_not_dimOk (not_dimOk hdim))
  · exact exec_of_checkKey_error hi (checkKey_of_first_failure hdim hr hc before (checkKeyEntry_unwritten hnone))
  · exact exec_of_checkKey_error hi (checkKey_of_first_failure hdim hr hc before (checkKeyEntry_above hsome hv))

end Sys2Proof.Machine

/-! ## Exact integers (00_scope.md R8, 41_linear_algebra.md R201) -/

namespace Sys2Proof.Machine

/-- Settles O17: the expansion is the library's along the first row. -/
theorem determinantIsTheLibrarysDeterminant : Obligations.DeterminantIsTheLibrarysDeterminant :=
  fun n A _ => det_eq_gridMatrix_det n A

/-- The entries of the n×n block are within [0, 25]. -/
def EntriesInRange (n : Nat) (A : Grid) : Prop := ∀ i, i < n → ∀ j, j < n → 0 ≤ A i j ∧ A i j ≤ 25

/-- The bound of R8: n! products of n entries. -/
theorem abs_det_le {n : Nat} {A : Grid} (h : EntriesInRange n A) : |det n A| ≤ n.factorial * 25 ^ n := by
  have hentries (i j : Fin n) : AbsoluteValue.abs (gridMatrix n A i j) ≤ 25 := by
    obtain ⟨hlo, hhi⟩ := h i i.isLt j j.isLt
    exact (abs_of_nonneg hlo).le.trans hhi
  have hbound := Matrix.det_le hentries
  rwa [Fintype.card_fin, nsmul_eq_mul, ← det_eq_gridMatrix_det] at hbound

theorem skip_lt {n r i : Nat} (hi : i < n) : skip r i < n + 1 := by
  unfold skip
  split_ifs <;> omega

theorem EntriesInRange.sub {n : Nat} {A : Grid} (h : EntriesInRange (n + 1) A) (r c : Nat) :
    EntriesInRange n (sub A r c) :=
  fun _ hi _ hj => h _ (skip_lt hi) _ (skip_lt hj)

theorem abs_sign (r c : Nat) : |sign r c| = 1 := by
  unfold sign
  split_ifs <;> rfl

/-- A cofactor is a determinant of one row and column less, up to sign. -/
theorem abs_cof_le {n : Nat} {A : Grid} (h : EntriesInRange (n + 1) A) (r c : Nat) :
    |cof (n + 1) A r c| ≤ (n + 1).factorial * 25 ^ (n + 1) := by
  have hminor : |cof (n + 1) A r c| ≤ n.factorial * 25 ^ n := by
    rw [cof, abs_mul, abs_sign, one_mul]
    exact abs_det_le (h.sub r c)
  have hfact : ((n.factorial : ℕ) : Int) ≤ (n + 1).factorial := by exact_mod_cast Nat.factorial_le n.le_succ
  have hpow : (25 : Int) ^ n ≤ 25 ^ (n + 1) := pow_le_pow_right₀ (by decide) n.le_succ
  exact hminor.trans (mul_le_mul hfact hpow (by positivity) (by positivity))

/-- The bound of R8 is below 2^31. -/
theorem exactBound_lt {n : Nat} (h : n ≤ 5) : (n.factorial : Int) * 25 ^ n < 2 ^ 31 := by
  interval_cases n <;> decide

theorem toInt_intWord {x : Int} (h : |x| < 2 ^ 31) : (intWord x).toInt = x := by
  obtain ⟨hlo, hhi⟩ := abs_lt.mp h
  rw [intWord, BitVec.toInt_ofInt]
  exact Int.bmod_eq_of_le (by omega) (by omega)

/-- Settles O18: the bound of R8 holds of determinants and cofactors, and for n ≤ 5 it is below 2^31. -/
theorem exactResultsFitThirtyTwoBits : Obligations.ExactResultsFitThirtyTwoBits := by
  intro n A _ hn hA
  have hlt := exactBound_lt hn
  refine ⟨abs_det_le hA, toInt_intWord ((abs_det_le hA).trans_lt hlt), fun htwo r c _ _ => ?_⟩
  obtain ⟨m, rfl⟩ := Nat.exists_eq_add_of_le' (Nat.le_of_succ_le htwo)
  have hcof (r c : Nat) := abs_cof_le hA r c
  exact ⟨hcof r c, toInt_intWord ((hcof r c).trans_lt hlt), toInt_intWord ((hcof c r).trans_lt hlt)⟩

end Sys2Proof.Machine

/-! ## The modular-arithmetic unit's commands (41_linear_algebra.md section 2) -/

namespace Sys2Proof.Machine

theorem ofNat_mod26 (w : Nat) (x : Int) : BitVec.ofNat w (mod26 x) = BitVec.ofInt w (x % 26) := by
  rw [← mod26_cast, BitVec.ofInt_natCast]

/-! ### Reads of RMAT and RVEC after a result write -/

theorem writeRmat_read {s : State} {i j : Nat} (hi : i < s.build.nMax) (hj : j < s.build.nMax) (n : Nat)
    (f : Nat → Nat → Word) :
    (s.writeRmat n f).rmat.read (8 * i + j) = some (if i < n ∧ j < n then f i j else 0) := by
  have := s.build.bounds
  have hdiv : (8 * i + j) / 8 = i := by omega
  have hmod : (8 * i + j) % 8 = j := by omega
  rw [State.writeRmat_rmat, Memory.read_writeBlock _ _ _ _ _ (by omega), hdiv, hmod, if_pos ⟨hi, hj⟩]

theorem writeRmat_read_zero {s : State} {i j n : Nat} (hi : i < s.build.nMax) (hj : j < s.build.nMax)
    (h : n ≤ i ∨ n ≤ j) (f : Nat → Nat → Word) : (s.writeRmat n f).rmat.read (8 * i + j) = some 0 := by
  rw [writeRmat_read hi hj, if_neg (by omega)]

theorem writeRmat_read_outside {s : State} {x : Nat} (h : ¬ (x / 8 < s.build.nMax ∧ x % 8 < s.build.nMax)) (n : Nat)
    (f : Nat → Nat → Word) : (s.writeRmat n f).rmat.read x = s.rmat.read x := by
  have := s.build.bounds
  rw [State.writeRmat_rmat, Memory.read_writeBlock _ _ _ _ _ (by omega), if_neg h]

theorem writeRvec_read (s : State) (n : Nat) (f : Nat → Nat) (i : Nat) :
    (s.writeRvec n f).rvec.read i
      = if i < s.build.nMax then some (if i < n then BitVec.ofNat 5 (f i) else 0) else s.rvec.read i := by
  simp only [State.writeRvec_rvec, Memory.read_writeRange, Nat.zero_le, true_and, Nat.zero_add, Nat.sub_zero]

/-! ### DET (R214) -/

/-- Settles O20: DET writes the expansion, which is the library's determinant. -/
theorem detWritesTheDeterminant : Obligations.DetWritesTheDeterminant := by
  intro s h
  rw [State.keyMatrix, ← det_eq_gridMatrix_det, ← ofNat_mod26]
  exact execDet_ready s h

/-! ### SUBM and COF (R215, R216) -/

/-- A ready entry is written. -/
theorem State.KeyEntryOk.read {s : State} {i j : Nat} (h : s.KeyEntryOk i j) :
    ∃ v : BitVec 5, s.key.read (8 * i + j) = some v ∧ s.keyGrid i j = v.toNat := by
  obtain ⟨v, hv, -⟩ := (Option.any_eq_true _ _).mp h
  exact ⟨v, hv, by simp [State.keyGrid, hv]⟩

theorem intWord_natCast (n : Nat) : intWord n = BitVec.ofNat 32 n := BitVec.ofInt_natCast 32 n

/-- A ready entry of the key as a word of RMAT. -/
theorem State.KeyEntryOk.read_map {s : State} {i j : Nat} (h : s.KeyEntryOk i j) :
    some (intWord (s.keyGrid i j)) = (s.key.read (8 * i + j)).map fun v => v.setWidth 32 := by
  obtain ⟨v, hread, hgrid⟩ := h.read
  rw [hread, hgrid, intWord_natCast, BitVec.ofNat_toNat, Option.map_some]

/-- Settles O21: SUBM writes the minor's entries, each one a written entry of KEY. -/
theorem submWritesTheSubmatrix : Obligations.SubmWritesTheSubmatrix := by
  intro s r c h hr hc
  have ⟨_, hkey⟩ := h
  refine ⟨_, execSubm_ready s r c h hr hc, fun i j hi hj => ?_, fun x hx => writeRmat_read_outside hx _ _⟩
  refine (writeRmat_read hi hj _ _).trans ?_
  by_cases hij : i < s.dim - 1 ∧ j < s.dim - 1
  · rw [if_pos hij, if_pos hij]
    have hi' : skip r i < s.dim := (skip_lt hij.1).trans_le (by omega)
    have hj' : skip c j < s.dim := (skip_lt hij.2).trans_le (by omega)
    exact (hkey _ hi' _ hj').read_map
  · rw [if_neg hij, if_neg hij]

theorem checkIndex_error {s : State} {r c : Nat} (h : s.dim ≤ r ∨ s.dim ≤ c) :
    checkIndex s r c = .error (.raise .invalidArgument (half (8 * r + c))) := by
  have hout : (decide (r < s.dim) && decide (c < s.dim)) = false := by
    rw [Bool.and_eq_false_iff, decide_eq_false_iff_not, decide_eq_false_iff_not]
    omega
  rw [checkIndex, hout, require_false]

/-- Settles O22: both commands check the key and then the indexes. -/
theorem submAndCofRejectIndexesOutOfRange : Obligations.SubmAndCofRejectIndexesOutOfRange := by
  intro s r c h hout
  have hkey := (checkKey_ok_iff s).mpr h
  have hindex := checkIndex_error hout
  constructor
  · simp only [Raises, exec, execSubm, hkey, hindex, bind_ok_check, bind_error_check]
    rfl
  · simp only [Raises, exec, execCof, hkey, hindex, bind_ok_check, bind_error_check]
    rfl

theorem adj_eq_adjugate {n : Nat} (A : Grid) (i j : Fin n) : adj n A i j = (gridMatrix n A).adjugate i j := by
  rw [← gridMatrix_adj, gridMatrix_apply]

/-- Settles O23: the cofactor (r, c) is entry (c, r) of the expansion's adjugate. -/
theorem cofWritesTheCofactor : Obligations.CofWritesTheCofactor := by
  intro s r c h
  rw [State.keyMatrix, ← adj_eq_adjugate]
  exact execCof_ready s r c h r.isLt c.isLt

/-! ### ADJ (R217) -/

/-- An index of the n×n block exists in RMAT. -/
theorem State.DimOk.lt_nMax {s : State} (h : s.DimOk) (i : Fin s.dim) : i < s.build.nMax := i.isLt.trans_le h.2

/-- Settles O24: ADJ writes the transposed cofactors, the library's adjugate. -/
theorem adjWritesTheAdjugate : Obligations.AdjWritesTheAdjugate := by
  intro s h
  have ⟨hdim, _⟩ := h
  refine ⟨_, execAdj_ready s h, fun i j => ?_, fun i j hi hj hout => writeRmat_read_zero hi hj hout _,
    fun x hx => writeRmat_read_outside hx _ _⟩
  rw [← adj_eq_adjugate]
  refine (writeRmat_read (hdim.lt_nMax i) (hdim.lt_nMax j) _ _).trans ?_
  rw [if_pos ⟨i.isLt, j.isLt⟩, intWord]

/-! ### MODINV (R218) -/

theorem modInverse_of_gcd_ne_one {x : Int} (h : Int.gcd x 26 ≠ 1) : modInverse (mod26 x) = none :=
  Option.not_isSome_iff_eq_none.mp (mt (modInverse_mod26_isSome_iff x).mp h)

theorem exists_modInverse_of_gcd_eq_one {x : Int} (h : Int.gcd x 26 = 1) : ∃ k, modInverse (mod26 x) = some k :=
  Option.isSome_iff_exists.mp ((modInverse_mod26_isSome_iff x).mpr h)

theorem mul_emod_of_modInverse {x : Int} {k : Nat} (h : modInverse (mod26 x) = some k) : x * k % 26 = 1 := by
  rw [← mod26_cast, mul_comm, mod26_mul_of_modInverse h]
  rfl

/-- Settles O25: the table of inverses has one exactly for the residues coprime with 26. -/
theorem modinvWritesTheInverse : Obligations.ModinvWritesTheInverse := by
  intro s
  constructor
  · intro hgcd
    obtain ⟨k, hk⟩ := exists_modInverse_of_gcd_eq_one hgcd
    refine ⟨k, (modInverse_spec hk).1, mul_emod_of_modInverse hk, ?_⟩
    simp only [Completes, exec, execModinv, State.operandInt, requireInverse_some hk, bind_ok_check]
    rfl
  · intro hgcd
    simp only [Raises, exec, execModinv, State.operandInt, requireInverse_none (modInverse_of_gcd_ne_one hgcd),
      bind_error_check, conclude_raise, half_mod26]
    rfl

/-! ### INVKEY (R219) -/

theorem raises_invkey_of_not_keyInvertible {s : State} (h : s.KeyReady) (hinv : ¬ s.KeyInvertible) :
    Raises .invkey s 4 (BitVec.ofInt 16 (s.keyMatrix.det % 26)) := by
  rw [State.keyMatrix, ← det_eq_gridMatrix_det, ← half_mod26]
  simp only [Raises, exec, execInvkey, (checkKey_ok_iff s).mpr h,
    requireInverse_none (modInverse_of_not_keyInvertible hinv), bind_ok_check, bind_error_check]
  rfl

theorem invKey_range (n k : Nat) (A : Grid) (i j : Nat) : 0 ≤ invKey n k A i j ∧ invKey n k A i j ≤ 25 := by
  have := mod26_lt (k * adj n A i j)
  unfold invKey
  omega

/-- Entry by entry, the key times its inverse is the identity mod 26. -/
theorem gridMatrix_mul_invKey_emod {n k : Nat} {A : Grid} (hn : 2 ≤ n) (hk : modInverse (mod26 (det n A)) = some k)
    (i j : Fin n) : (gridMatrix n A * gridMatrix n (invKey n k A)) i j % 26 = (1 : Matrix (Fin n) (Fin n) ℤ) i j := by
  have hsum : (gridMatrix n A * gridMatrix n (invKey n k A)) i j = sumTo n fun l => A i l * invKey n k A l j := by
    rw [Matrix.mul_apply, sumTo_eq_sum]
    rfl
  rw [hsum, ← mod26_cast, inverseKeyIdentity n k A hn hk i i.isLt j j.isLt]
  simp [Matrix.one_apply, Fin.ext_iff]

/-- Settles O26: the inverse of the determinant decides, and the inverse key meets R212. -/
theorem invkeyWritesTheInverseKey : Obligations.InvkeyWritesTheInverseKey := by
  intro s h
  refine ⟨raises_invkey_of_not_keyInvertible h, fun hinv => ?_⟩
  have ⟨hdim, _⟩ := h
  obtain ⟨k, hk⟩ := hinv.exists_modInverse
  rw [State.keyMatrix, ← det_eq_gridMatrix_det, ← ofNat_mod26]
  refine ⟨_, execInvkey_ready s k h hk, ⟨gridMatrix s.dim (invKey s.dim k s.keyGrid), fun i j => ?_,
    gridMatrix_mul_invKey_emod hdim.1 hk⟩, fun i j hi hj hout => writeRmat_read_zero hi hj hout _,
    fun x hx => writeRmat_read_outside hx _ _⟩
  obtain ⟨hlo, hhi⟩ := invKey_range s.dim k s.keyGrid i j
  refine ⟨hlo, hhi, (writeRmat_read (hdim.lt_nMax i) (hdim.lt_nMax j) _ _).trans ?_⟩
  rw [if_pos ⟨i.isLt, j.isLt⟩, intWord, gridMatrix_apply]

/-! ### MVMUL (R220) -/

theorem checkMatrix_key {s : State} (h : s.KeyReady) : checkMatrix .key s = .ok s.keyGrid := by
  rw [checkMatrix, (checkKey_ok_iff s).mpr h, bind_ok_check]

theorem checkMatrix_rmat {s : State} (h : s.RmatReady) : checkMatrix .rmat s = .ok s.rmatGrid := by
  obtain ⟨hdim, hwritten⟩ := h
  rw [checkMatrix, (checkDim_ok_iff s).mpr hdim, (checkRmat_ok_iff s).mpr hwritten, bind_ok_check, bind_ok_check]

theorem mvmul_completes {m : MatrixSelect} {s : State} {A : Grid} (hA : checkMatrix m s = .ok A) (hdim : s.DimOk)
    (hv : s.VecReady) :
    ∃ u : Memory (BitVec 5), Completes (.mvmul m) s { s with rvec := u }
      ∧ (∀ i : Fin s.dim, u.read i = some (BitVec.ofInt 5
          ((gridMatrix s.dim A).mulVec (fun j => s.vecAt j) i % 26)))
      ∧ (∀ i, s.dim ≤ i → i < s.build.nMax → u.read i = some 0)
      ∧ ∀ x, s.build.nMax ≤ x → u.read x = s.rvec.read x := by
  have hexec : Completes (.mvmul m) s (s.writeRvec s.dim (mvmod s.dim A s.vecAt)) := by
    simp only [Completes, exec, execMvmul, hA, (checkVec_ok_iff s).mpr hv, bind_ok_check]
    rfl
  refine ⟨_, hexec, fun i => ?_, fun i hle hlt => ?_, fun x hx => ?_⟩
  · refine (writeRvec_read s _ _ i).trans ?_
    rw [if_pos (hdim.lt_nMax i), if_pos i.isLt, ← mvmod_cast, BitVec.ofInt_natCast]
  · refine (writeRvec_read s _ _ i).trans ?_
    rw [if_pos hlt, if_neg (by omega)]
  · refine (writeRvec_read s _ _ x).trans ?_
    rw [if_neg (by omega)]

/-- Settles O27: the matrix is KEY or RMAT as its check answers it, and mvmod is the library's product mod 26. -/
theorem mvmulWritesTheProduct : Obligations.MvmulWritesTheProduct := by
  intro m s hm hv
  cases m with
  | key => exact mvmul_completes (checkMatrix_key hm) hm.1 hv
  | rmat => exact mvmul_completes (checkMatrix_rmat hm) hm.1 hv

theorem checkVec_error {s : State} {j : Nat} {e : Stop} (hj : j < s.dim) (before : ∀ j', j' < j → s.VecEntryOk j')
    (he : checkVecEntry s j = .error e) : checkVec s = .error e :=
  (scan_error_iff _ _ _ _).mpr
    ⟨j, Nat.zero_le j, by omega, he, fun j' _ hj' => (checkVecEntry_ok_iff s j').mpr (before j' hj')⟩

theorem checkVecEntry_unwritten {s : State} {j : Nat} (h : s.vec.read j = none) :
    checkVecEntry s j = .error (.fault .unwrittenOperand) := by
  rw [checkVecEntry_eq, h]

theorem checkVecEntry_above {s : State} {j : Nat} {v : BitVec 5} (h : s.vec.read j = some v) (hv : 25 < v.toNat) :
    checkVecEntry s j = .error (.raise .invalidCharacter (half j)) := by
  rw [checkVecEntry_eq, h]
  exact if_neg (by omega)

/-- Past the matrix, MVMUL stops as its loop over VEC does. -/
theorem exec_of_checkVec_error {m : MatrixSelect} {s : State} {A : Grid} {e : Stop} (hA : checkMatrix m s = .ok A)
    (he : checkVec s = .error e) : exec (.mvmul m) s = conclude s (.error e) := by
  simp only [exec, execMvmul, hA, he, bind_ok_check, bind_error_check]

/-- A loop whose rounds know one stop alone passes or ends in it. -/
theorem scan_of_only_stop {f : Nat → Check Unit} {e : Stop} (h : ∀ k, f k = .ok () ∨ f k = .error e) (a n : Nat) :
    scan f a n = .ok () ∨ scan f a n = .error e := by
  cases hs : scan f a n with
  | ok => exact .inl rfl
  | error e' =>
    obtain ⟨k, -, -, hk, -⟩ := (scan_error_iff _ _ _ _).mp hs
    rcases h k with hok | herr
    · rw [hok] at hk; cases hk
    · rw [← herr.symm.trans hk]; exact .inr rfl

theorem written_map_cases {α : Type} (v : Option α) :
    (written v).map (fun _ => ()) = .ok () ∨ (written v).map (fun _ => ()) = .error (.fault .unwrittenOperand) := by
  cases v with
  | some v => exact .inl rfl
  | none => exact .inr rfl

theorem checkRmat_unwritten {s : State} {i j : Nat} (hi : i < s.dim) (hj : j < s.dim)
    (h : s.rmat.read (8 * i + j) = none) : checkRmat s = .error (.fault .unwrittenOperand) := by
  refine (scan_of_only_stop (fun i => scan_of_only_stop (fun j => written_map_cases _) 0 s.dim) 0 s.dim).resolve_left ?_
  intro hok
  have hsome := (checkRmat_ok_iff s).mp hok i hi j hj
  rw [entryIndex, h] at hsome
  cases hsome

/-- The outcomes of the loop over VEC, past the matrix. -/
theorem mvmul_first_failure {m : MatrixSelect} {s : State} {A : Grid} (hA : checkMatrix m s = .ok A) {j : Nat}
    (hj : j < s.dim) (before : ∀ j', j' < j → s.VecEntryOk j') :
    (s.vec.read j = none → exec (.mvmul m) s = .fault .unwrittenOperand)
      ∧ ∀ v : BitVec 5, s.vec.read j = some v → 25 < v.toNat → Raises (.mvmul m) s 2 (BitVec.ofNat 16 j) :=
  ⟨fun hnone => exec_of_checkVec_error hA (checkVec_error hj before (checkVecEntry_unwritten hnone)),
    fun _ hsome hv => exec_of_checkVec_error hA (checkVec_error hj before (checkVecEntry_above hsome hv))⟩

/-- Settles O28: past the matrix the loop over VEC decides, and the loop over RMAT knows one stop alone. -/
theorem mvmulReportsTheFirstFailure : Obligations.MvmulReportsTheFirstFailure := by
  intro m s
  constructor
  · intro hm j hj before
    cases m with
    | key => exact mvmul_first_failure (checkMatrix_key hm) hj before
    | rmat => exact mvmul_first_failure (checkMatrix_rmat hm) hj before
  · rintro rfl hdim ⟨i, j, hi, hj, hnone⟩
    simp only [exec, execMvmul, checkMatrix, (checkDim_ok_iff s).mpr hdim, checkRmat_unwritten hi hj hnone,
      bind_ok_check, bind_error_check]
    rfl

end Sys2Proof.Machine

/-! ## The digraph cipher's commands (44_digraph_cipher.md) -/

namespace Sys2Proof.Machine

/-! ### DGRULE's failures (R313) -/

theorem lookup_not_inSquare {b : Build} {c : Byte} (h : ¬ InSquare b c) (k : Nat) :
    lookup b c k = .error (.raise .notFound (half k)) :=
  lookup_none ((pos_eq_none_iff b c).mpr h) k

theorem exists_pos_of_inSquare {b : Build} {c : Byte} (h : InSquare b c) : ∃ p, pos b c = some p :=
  Option.ne_none_iff_exists'.mp fun hnone => (pos_eq_none_iff b c).mp hnone h

theorem inSquare_of_pos_eq_some {b : Build} {c : Byte} {p : Position} (h : pos b c = some p) : InSquare b c := by
  by_contra hout
  rw [(pos_eq_none_iff b c).mpr hout] at h
  cases h

/-- Settles O36: ch1 is looked up before ch2. -/
theorem dgruleReportsTheFirstLetterNotFound : Obligations.DgruleReportsTheFirstLetterNotFound := by
  intro m s
  constructor
  · intro h1
    have hlookup : lookup s.build s.operandByte0 0 = .error (.raise .notFound 0) := lookup_not_inSquare h1 0
    simp only [Raises, exec, execDgrule, hlookup, bind_error_check]
    rfl
  · intro h1 h2
    obtain ⟨p1, hp1⟩ := exists_pos_of_inSquare h1
    have hlookup1 : lookup s.build s.operandByte0 0 = .ok p1 := lookup_some hp1 0
    have hlookup2 : lookup s.build s.operandByte1 1 = .error (.raise .notFound 1) := lookup_not_inSquare h2 1
    simp only [Raises, exec, execDgrule, hlookup1, hlookup2, bind_ok_check, bind_error_check]
    rfl

/-! ### A completion that writes OUT -/

theorem completes_of_writeOut {i : Instr} {s : State} {t : List Byte} {n : Nat} (hlen : t.length = n)
    (h : exec i s = .next ((s.writeOut t).finish 0 0)) :
    ∃ m : Memory Byte, Completes i s { s with outBuf := m, outLen := BitVec.ofNat 16 n }
      ∧ (∀ k, k < n → m.read k = t[k]?) ∧ ∀ k, n ≤ k → m.read k = s.outBuf.read k := by
  subst hlen
  have hread (k : Nat) :
      (s.writeOut t).outBuf.read k = if k < t.length then some (t.getD k 0) else s.outBuf.read k := by
    simp only [State.writeOut_outBuf, Memory.read_writeRange, Nat.zero_le, true_and, Nat.zero_add, Nat.sub_zero]
  refine ⟨(s.writeOut t).outBuf, h, fun k hk => ?_, fun k hk => ?_⟩
  · rw [hread, if_pos hk]
    simp [hk]
  · rw [hread, if_neg (by omega)]

/-- Settles O39: NORM writes the normalised text of what it read. -/
theorem normWritesTheNormalisedText : Obligations.NormWritesTheNormalisedText :=
  fun s h => completes_of_writeOut (i := .norm) rfl (execNorm_ready s h)

/-! ### The digraph loop on letters of the square -/

/-- Byte by byte, `u` is the substitution applied to `n` pairs of the letters `c`. -/
def SubstitutesPairs (b : Build) (dir : Direction) (c : Nat → Byte) (n : Nat) (u : Nat → Option Byte) : Prop :=
  ∀ q, q < n → ∃ p1 p2, pos b (c (2 * q)) = some p1 ∧ pos b (c (2 * q + 1)) = some p2
    ∧ u (2 * q) = some (subst b p1 p2 dir).out1 ∧ u (2 * q + 1) = some (subst b p1 p2 dir).out2

theorem digraphs_of_inSquare {b : Build} {rd : Nat → Check Byte} {c : Nat → Byte} {n : Nat} (dir : Direction)
    (hr : ∀ k, k < 2 * n → rd k = .ok (c k)) (hin : ∀ k, k < 2 * n → InSquare b (c k)) :
    ∃ u, digraphs b dir rd 0 n = .ok u ∧ u.length = 2 * n ∧ SubstitutesPairs b dir c n (u[·]?) := by
  have hpos (k : Nat) : ∃ p, k < 2 * n → pos b (c k) = some p := by
    by_cases hk : k < 2 * n
    · obtain ⟨p, hp⟩ := exists_pos_of_inSquare (hin k hk)
      exact ⟨p, fun _ => hp⟩
    · exact ⟨⟨0, 0⟩, fun h => absurd h hk⟩
  choose p hp using hpos
  obtain ⟨u, hu, hlen, hpairs⟩ := digraphs_ok b dir rd c p 0 n (fun k _ hk => hr k (by omega))
    (fun k _ hk => hp k (by omega))
  refine ⟨u, hu, hlen, fun q hq => ⟨p (2 * q), p (2 * q + 1), hp _ (by omega), hp _ (by omega), ?_⟩⟩
  have hpair := hpairs q hq
  rwa [Nat.zero_add] at hpair

/-- The loop stops at the first letter that is unwritten or not in the square. -/
theorem digraphs_of_first_failure {b : Build} {rd : Nat → Check Byte} {c : Nat → Byte} {n k : Nat} {e : Stop}
    (dir : Direction) (hk : k < 2 * n) (before : ∀ k', k' < k → rd k' = .ok (c k') ∧ InSquare b (c k'))
    (he : rd k = .error e ∨ rd k = .ok (c k) ∧ ¬ InSquare b (c k) ∧ e = .raise .notFound (half k)) :
    digraphs b dir rd 0 n = .error e := by
  refine digraphs_error b dir rd c 0 n k e (Nat.zero_le k) (by omega) (fun x _ hx => ?_) ?_
  · obtain ⟨hread, hin⟩ := before x hx
    exact ⟨hread, exists_pos_of_inSquare hin⟩
  · rcases he with hread | ⟨hread, hout, rfl⟩
    · exact .inl hread
    · exact .inr ⟨hread, (pos_eq_none_iff b _).mpr hout, rfl⟩

/-! ### DENC (R319) -/

theorem normalize_pairs (t : List Byte) : 2 * ((normalize t).length / 2) = (normalize t).length := by
  have := length_normalize_even t
  omega

theorem getD_mem {t : List Byte} {k : Nat} (h : k < t.length) : t.getD k 0 ∈ t := by
  rw [List.getD_eq_getElem _ _ h]
  exact List.getElem_mem h

/-- DENC past its checks ends as its digraph loop does. -/
theorem execDenc_of_digraphs {s : State} {r : Check (List Byte)} (h : s.TextReady)
    (hr : digraphs s.build .enc (fun k => .ok ((normalize s.text).getD k 0)) 0 ((normalize s.text).length / 2) = r) :
    exec .denc s = conclude s (r.map s.writeOut) := by
  subst hr
  simp only [exec, execDenc, (checkTextMax_ok_iff s).mpr h.1, (checkText_ok_iff s).mpr h.2, bind_ok_check]
  rfl

/-- DENC on letters of the square. -/
theorem denc_completes {s : State} (h : s.TextReady) (hin : ∀ b ∈ normalize s.text, InSquare s.build b) :
    ∃ m : Memory Byte,
      Completes .denc s { s with outBuf := m, outLen := BitVec.ofNat 16 (normalize s.text).length }
      ∧ SubstitutesPairs s.build .enc (fun k => (normalize s.text).getD k 0) ((normalize s.text).length / 2) m.read
      ∧ ∀ k, (normalize s.text).length ≤ k → m.read k = s.outBuf.read k := by
  have hpairs := normalize_pairs s.text
  obtain ⟨u, hu, hlen, hsubst⟩ := digraphs_of_inSquare (b := s.build) .enc (n := (normalize s.text).length / 2)
    (rd := fun k => .ok ((normalize s.text).getD k 0)) (fun _ _ => rfl) fun k hk => hin _ (getD_mem (by omega))
  obtain ⟨m, hm, hread, hrest⟩ := completes_of_writeOut (i := .denc) (hlen.trans hpairs) (execDenc_of_digraphs h hu)
  refine ⟨m, hm, fun q hq => ?_, hrest⟩
  obtain ⟨p1, p2, hp1, hp2, h1, h2⟩ := hsubst q hq
  exact ⟨p1, p2, hp1, hp2, (hread _ (by omega)).trans h1, (hread _ (by omega)).trans h2⟩

/-- Settles O40: the loop over the normalised text meets letters of the square alone. -/
theorem dencEncryptsTheNormalisedText : Obligations.DencEncryptsTheNormalisedText := by
  intro s h hin
  obtain ⟨m, hm, hsubst, hrest⟩ := denc_completes h hin
  exact ⟨m, hm, fun q hq => hsubst q (by omega), hrest⟩

/-- Settles O41: the loop stops at the first letter that is not found. -/
theorem dencReportsTheFirstLetterNotFound : Obligations.DencReportsTheFirstLetterNotFound := by
  intro s k h hk before hout
  have hpairs := normalize_pairs s.text
  exact execDenc_of_digraphs h (digraphs_of_first_failure .enc (by omega) (fun k' hk' => ⟨rfl, before k' hk'⟩)
    (.inr ⟨rfl, hout, rfl⟩))

/-! ### DDEC (R320, R321) -/

theorem checkEven_ok_iff (s : State) : checkEven s = .ok () ↔ s.textLen % 2 = 0 := by
  simp [checkEven, require_ok_iff]

theorem checkEven_error {s : State} (h : s.textLen % 2 = 1) :
    checkEven s = .error (.raise .invalidBlockLength s.inLen) := by
  have hodd : (s.textLen % 2 == 0) = false := by simp [h]
  rw [checkEven, hodd, require_false]

/-- DDEC past its checks ends as its digraph loop does. -/
theorem execDdec_of_digraphs {s : State} {r : Check (List Byte)} (hmax : s.textLen ≤ s.build.textMax)
    (heven : s.textLen % 2 = 0) (hr : digraphs s.build .dec (readIn s) 0 (s.textLen / 2) = r) :
    exec .ddec s = conclude s (r.map s.writeOut) := by
  subst hr
  simp only [exec, execDdec, (checkTextMax_ok_iff s).mpr hmax, (checkEven_ok_iff s).mpr heven, bind_ok_check]
  rfl

theorem readIn_of_isSome {s : State} {k : Nat} (h : (s.inBuf.read k).isSome = true) : readIn s k = .ok (s.inAt k) := by
  obtain ⟨b, hb⟩ := Option.isSome_iff_exists.mp h
  simp [readIn, State.inAt, hb]

theorem readIn_of_read {s : State} {k : Nat} {b : Byte} (h : s.inBuf.read k = some b) :
    readIn s k = .ok (s.inAt k) ∧ s.inAt k = b := by
  simp [readIn, State.inAt, h]

theorem ofNat_textLen (s : State) : BitVec.ofNat 16 s.textLen = s.inLen := by simp [State.textLen]

/-- DDEC on letters of the square. -/
theorem ddec_completes {s : State} (h : s.TextReady) (heven : s.textLen % 2 = 0)
    (hin : ∀ k, k < s.textLen → InSquare s.build (s.inAt k)) :
    ∃ m : Memory Byte, Completes .ddec s { s with outBuf := m, outLen := s.inLen }
      ∧ SubstitutesPairs s.build .dec s.inAt (s.textLen / 2) m.read
      ∧ ∀ k, s.textLen ≤ k → m.read k = s.outBuf.read k := by
  obtain ⟨hmax, hwritten⟩ := h
  obtain ⟨u, hu, hlen, hsubst⟩ := digraphs_of_inSquare (b := s.build) (rd := readIn s) (c := s.inAt) .dec
    (n := s.textLen / 2) (fun k hk => readIn_of_isSome (hwritten k (by omega))) fun k hk => hin k (by omega)
  obtain ⟨m, hm, hread, hrest⟩ := completes_of_writeOut (i := .ddec) (n := s.textLen) (by omega)
    (execDdec_of_digraphs hmax heven hu)
  rw [ofNat_textLen] at hm
  refine ⟨m, hm, fun q hq => ?_, hrest⟩
  obtain ⟨p1, p2, hp1, hp2, h1, h2⟩ := hsubst q hq
  exact ⟨p1, p2, hp1, hp2, (hread _ (by omega)).trans h1, (hread _ (by omega)).trans h2⟩

/-- Settles O42: the loop over IN meets letters of the square alone. -/
theorem ddecDecryptsTheText : Obligations.DdecDecryptsTheText := by
  intro s h heven hin
  obtain ⟨m, hm, hsubst, hrest⟩ := ddec_completes h heven hin
  exact ⟨m, hm, fun q hq => hsubst q (by omega), hrest⟩

/-- Settles O43: the length is checked first, and the loop stops at the first byte it cannot read or find. -/
theorem ddecReportsTheFirstFailure : Obligations.DdecReportsTheFirstFailure := by
  intro s hmax
  refine ⟨fun hodd => ?_, fun heven k hk before => ?_⟩
  · simp only [Raises, exec, execDdec, (checkTextMax_ok_iff s).mpr hmax, checkEven_error hodd, bind_ok_check,
      bind_error_check]
    rfl
  · have before' (k' : Nat) (hk' : k' < k) : readIn s k' = .ok (s.inAt k') ∧ InSquare s.build (s.inAt k') := by
      obtain ⟨b, hb, hin⟩ := before k' hk'
      obtain ⟨hread, rfl⟩ := readIn_of_read hb
      exact ⟨hread, hin⟩
    have stops {e : Stop} (he : readIn s k = .error e ∨ readIn s k = .ok (s.inAt k) ∧ ¬ InSquare s.build (s.inAt k)
        ∧ e = .raise .notFound (half k)) : exec .ddec s = conclude s (.error e) :=
      execDdec_of_digraphs hmax heven (digraphs_of_first_failure .dec (by omega) before' he)
    refine ⟨fun hnone => ?_, fun b hb hout => ?_⟩
    · exact stops (e := .fault .unwrittenOperand) (.inl (by simp [readIn, hnone]))
    · obtain ⟨hread, rfl⟩ := readIn_of_read hb
      exact stops (.inr ⟨hread, hout, rfl⟩)

/-! ### The checks before the text (R317, R319, R321) -/

theorem checkTextMax_error {s : State} (h : s.build.textMax < s.textLen) :
    checkTextMax s = .error (.raise .invalidArgument s.inLen) := by
  have hlong : decide (s.textLen ≤ s.build.textMax) = false := decide_eq_false (by omega)
  rw [checkTextMax, hlong, require_false]

theorem checkText_unwritten {s : State} {k : Nat} (hk : k < s.textLen) (h : s.inBuf.read k = none) :
    checkText s = .error (.fault .unwrittenOperand) := by
  refine (scan_of_only_stop (fun k => written_map_cases _) 0 s.textLen).resolve_left fun hok => ?_
  have hsome := (checkText_ok_iff s).mp hok k hk
  rw [h] at hsome
  cases hsome

/-- Settles O44: the length is checked first, and the loop over IN knows one stop alone. -/
theorem textCommandsCheckLengthThenRead : Obligations.TextCommandsCheckLengthThenRead := by
  intro s
  refine ⟨fun hlong => ?_, fun hmax => ?_⟩
  · have hcheck := checkTextMax_error hlong
    refine ⟨?norm, ?denc, ?ddec⟩
    case norm => simp only [Raises, exec, execNorm, hcheck, bind_error_check]; rfl
    case denc => simp only [Raises, exec, execDenc, hcheck, bind_error_check]; rfl
    case ddec => simp only [Raises, exec, execDdec, hcheck, bind_error_check]; rfl
  · rintro ⟨k, hk, hnone⟩
    have hcheck := (checkTextMax_ok_iff s).mpr hmax
    have htext := checkText_unwritten hk hnone
    constructor
    · simp only [exec, execNorm, hcheck, htext, bind_ok_check, bind_error_check]; rfl
    · simp only [exec, execDenc, hcheck, htext, bind_ok_check, bind_error_check]; rfl

/-! ### The round trip (R322) -/

/-- What holds of both places of every pair holds of every place. -/
theorem forall_of_pairs {P : Nat → Prop} {n : Nat} (h : ∀ q, q < n → P (2 * q) ∧ P (2 * q + 1)) {k : Nat}
    (hk : k < 2 * n) : P k := by
  obtain ⟨h0, h1⟩ := h (k / 2) (by omega)
  rcases Nat.mod_two_eq_zero_or_one k with hmod | hmod
  · rwa [show 2 * (k / 2) = k by omega] at h0
  · rwa [show 2 * (k / 2) + 1 = k by omega] at h1

theorem SubstitutesPairs.isSome {b : Build} {dir : Direction} {c : Nat → Byte} {n : Nat} {u : Nat → Option Byte}
    (h : SubstitutesPairs b dir c n u) {k : Nat} (hk : k < 2 * n) : (u k).isSome = true := by
  refine forall_of_pairs (P := fun k => (u k).isSome = true) (fun q hq => ?_) hk
  obtain ⟨p1, p2, -, -, h1, h2⟩ := h q hq
  exact ⟨Option.isSome_of_mem h1, Option.isSome_of_mem h2⟩

/-- The letters ENC gave from a pair are in the square, and DEC of them is the pair. -/
theorem dec_of_enc_pair {b : Build} {c d : Nat → Byte} {n q : Nat}
    (henc : SubstitutesPairs b .enc c n fun k => some (d k)) (hq : q < n) :
    ∃ q1 q2, pos b (d (2 * q)) = some q1 ∧ pos b (d (2 * q + 1)) = some q2
      ∧ (subst b q1 q2 .dec).out1 = c (2 * q) ∧ (subst b q1 q2 .dec).out2 = c (2 * q + 1) := by
  obtain ⟨p1, p2, hp1, hp2, h1, h2⟩ := henc q hq
  obtain ⟨hr1, hc1, hs1⟩ := (pos_eq_some_iff _ _ _).mp hp1
  obtain ⟨hr2, hc2, hs2⟩ := (pos_eq_some_iff _ _ _).mp hp2
  obtain ⟨-, q1, q2, hq1, hq2, hd1, hd2⟩ := decUndoesEncOnEveryPair b p1 p2 hr1 hc1 hr2 hc2
  rw [Option.some.inj h1, Option.some.inj h2]
  exact ⟨q1, q2, hq1, hq2, hd1.trans ((sq_eq_iff b hr1 hc1 _).mpr hs1), hd2.trans ((sq_eq_iff b hr2 hc2 _).mpr hs2)⟩

theorem inSquare_of_enc {b : Build} {c d : Nat → Byte} {n k : Nat}
    (henc : SubstitutesPairs b .enc c n fun k => some (d k)) (hk : k < 2 * n) : InSquare b (d k) := by
  refine forall_of_pairs (P := fun k => InSquare b (d k)) (fun q hq => ?_) hk
  obtain ⟨q1, q2, hq1, hq2, -⟩ := dec_of_enc_pair henc hq
  exact ⟨inSquare_of_pos_eq_some hq1, inSquare_of_pos_eq_some hq2⟩

/-- DEC on what ENC gave gives the letters back. -/
theorem dec_of_enc {b : Build} {c d : Nat → Byte} {n k : Nat} {u : Nat → Option Byte}
    (henc : SubstitutesPairs b .enc c n fun k => some (d k)) (hdec : SubstitutesPairs b .dec d n u) (hk : k < 2 * n) :
    u k = some (c k) := by
  refine forall_of_pairs (P := fun k => u k = some (c k)) (fun q hq => ?_) hk
  obtain ⟨q1, q2, hq1, hq2, hc1, hc2⟩ := dec_of_enc_pair henc hq
  obtain ⟨q1', q2', hq1', hq2', h1, h2⟩ := hdec q hq
  obtain rfl := Option.some.inj (hq1.symm.trans hq1')
  obtain rfl := Option.some.inj (hq2.symm.trans hq2')
  rw [h1, h2, hc1, hc2]
  exact ⟨rfl, rfl⟩

/-- Settles O45: DDEC reads the letters of DENC, and DEC undoes ENC pair by pair. -/
theorem digraphRoundTrip : Obligations.DigraphRoundTrip := by
  intro s t s' h hin henc hbuild hinLen hmax hIN
  have hpairs := normalize_pairs s.text
  have bounds := s.build.bounds
  obtain ⟨m, hm, hsubst, -⟩ := denc_completes h hin
  obtain rfl := Host.Outcome.next.inj (henc.symm.trans hm)
  have hlen : s'.textLen = (normalize s.text).length := by
    rw [State.textLen, hinLen]
    exact Nat.mod_eq_of_lt (by omega)
  have hwritten (k : Nat) (hk : k < (normalize s.text).length) : (s'.inBuf.read k).isSome = true := by
    rw [hIN k hk]
    exact hsubst.isSome (by omega)
  have hletters : SubstitutesPairs s'.build .enc (fun k => (normalize s.text).getD k 0)
      ((normalize s.text).length / 2) fun k => some (s'.inAt k) := by
    intro q hq
    obtain ⟨p1, p2, hp1, hp2, h1, h2⟩ := hsubst q hq
    obtain ⟨-, hin1⟩ := readIn_of_read ((hIN _ (by omega)).trans h1)
    obtain ⟨-, hin2⟩ := readIn_of_read ((hIN _ (by omega)).trans h2)
    rw [hbuild]
    exact ⟨p1, p2, hp1, hp2, congrArg some hin1, congrArg some hin2⟩
  have hready : s'.TextReady := by
    rw [State.TextReady, hlen, hbuild]
    exact ⟨hmax, hwritten⟩
  obtain ⟨m', hm', hdec, -⟩ := ddec_completes hready (by rw [hlen]; exact length_normalize_even _) fun k hk =>
    inSquare_of_enc hletters (by omega)
  rw [hlen] at hdec
  refine ⟨_, hm', rfl, hinLen, fun k hk => (dec_of_enc hletters hdec (by omega)).trans ?_⟩
  simp [hk]

end Sys2Proof.Machine

/-! ## The register space: reads and writes (10_state.md, 20_memory.md R100 to R103) -/

namespace Sys2Proof.Machine

/-! ### A read, by what stands at the offset -/

theorem busRead_of_reg {s : State} {off : Nat} {r : Reg} (h : regAt s.build off = r) :
    (busRead off s).1 = (regRead s r).word s.draws := by
  subst h
  rfl

theorem busRead_of_known {s : State} {off : Nat} {r : Reg} {v : Word} (h : regAt s.build off = r)
    (hv : regRead s r = .known v) : busRead off s = (v, s) := by
  simp only [busRead, h, hv, ReadValue.word, ReadValue.used, Nat.add_zero]

theorem resultRead_of_idle {s : State} (h : s.busy = false) (defined v : Word) : resultRead s defined v = .known v := by
  simp [resultRead, h]

theorem resultArrayRead_of_idle {s : State} (h : s.busy = false) (defined : Word) (r : ReadValue) :
    resultArrayRead s defined r = r := by
  simp [resultArrayRead, h]

theorem busRead_result_of_idle {s : State} {off : Nat} {r : Reg} {defined v : Word} (hidle : s.busy = false)
    (hreg : regAt s.build off = r) (hr : regRead s r = resultRead s defined v) : (busRead off s).1 = v :=
  congrArg Prod.fst (busRead_of_known hreg (hr.trans (resultRead_of_idle hidle defined v)))

theorem busRead_key {s : State} {i j : Nat} {x : BitVec 5} (hi : i < s.build.nMax) (hj : j < s.build.nMax)
    (h : s.key.read (8 * i + j) = some x) : (busRead (0x100 + 0x20 * i + 4 * j) s).1 = x.setWidth 32 := by
  have := s.build.bounds
  have hreg := (regAt_key s.build (show i < 8 by omega) (show j < 8 by omega)).trans (if_pos ⟨hi, hj⟩)
  rw [busRead_of_reg hreg, regRead, entryIndex, h]
  rfl

theorem busRead_vec {s : State} {j : Nat} {x : BitVec 5} (hj : j < s.build.nMax) (h : s.vec.read j = some x) :
    (busRead (0x300 + 4 * j) s).1 = x.setWidth 32 := by
  have := s.build.bounds
  have hreg := (regAt_vec s.build (show j < 8 by omega)).trans (if_pos hj)
  rw [busRead_of_reg hreg, regRead, h]
  rfl

theorem busRead_rmat {s : State} {i j : Nat} {x : Word} (hidle : s.busy = false) (hi : i < s.build.nMax)
    (hj : j < s.build.nMax) (h : s.rmat.read (8 * i + j) = some x) : (busRead (0x200 + 0x20 * i + 4 * j) s).1 = x := by
  have := s.build.bounds
  have hreg := (regAt_rmat s.build (show i < 8 by omega) (show j < 8 by omega)).trans (if_pos ⟨hi, hj⟩)
  rw [busRead_of_reg hreg, regRead, resultArrayRead_of_idle hidle, entryIndex, h]
  exact BitVec.setWidth_eq x

theorem busRead_rvec {s : State} {i : Nat} {x : BitVec 5} (hidle : s.busy = false) (hi : i < s.build.nMax)
    (h : s.rvec.read i = some x) : (busRead (0x320 + 4 * i) s).1 = x.setWidth 32 := by
  have := s.build.bounds
  have hreg := (regAt_rvec s.build (show i < 8 by omega)).trans (if_pos hi)
  rw [busRead_of_reg hreg, regRead, resultArrayRead_of_idle hidle, h]
  rfl

/-- A written byte stands at its place in its word, whether or not the others are written. -/
theorem wordByte_bufferRead {m : Memory Byte} {w k : Nat} {x : Byte} (hk : k < 4) (h : m.read (4 * w + k) = some x)
    (draws : Nat) : wordByte ((bufferRead m w).word draws) k = x := by
  unfold bufferRead
  split_ifs
  · rw [ReadValue.word, wordByte_packWord _ hk, h, Option.getD_some]
  · rw [ReadValue.word, wordByte_packWord _ hk, h, Option.getD_some]

theorem inWords_le (b : Build) : inWords b ≤ 0x400 := by
  have := b.bounds
  simp only [inWords]
  omega

theorem outWords_le (b : Build) : outWords b ≤ 0x400 := by
  have := b.bounds
  simp only [outWords]
  omega

theorem wordByte_busRead_in {s : State} {w k : Nat} {x : Byte} (hw : w < inWords s.build) (hk : k < 4)
    (h : s.inBuf.read (4 * w + k) = some x) : wordByte (busRead (0x1000 + 4 * w) s).1 k = x := by
  have hreg := (regAt_in s.build (hw.trans_le (inWords_le _))).trans (if_pos hw)
  rw [busRead_of_reg hreg]
  exact wordByte_bufferRead hk h _

theorem wordByte_busRead_out {s : State} {w k : Nat} {x : Byte} (hidle : s.busy = false) (hw : w < outWords s.build)
    (hk : k < 4) (h : s.outBuf.read (4 * w + k) = some x) : wordByte (busRead (0x2000 + 4 * w) s).1 k = x := by
  have hreg := (regAt_out s.build (hw.trans_le (outWords_le _))).trans (if_pos hw)
  rw [busRead_of_reg hreg, regRead, resultArrayRead_of_idle hidle]
  exact wordByte_bufferRead hk h _

/-! ### The fields of CFG and STATUS -/

/-- CFG as a number: its fields do not overlap (R32). -/
theorem cfgWord_toNat (b : Build) : (cfgWord b).toNat = b.nMax + 2 ^ 16 * b.textMax + 2 ^ 28 := by
  have := b.bounds
  rw [cfgWord, ofNat_or_shiftLeft (by omega), ofNat_or_shiftLeft (by omega), BitVec.toNat_ofNat]
  exact Nat.mod_eq_of_lt (by omega)

theorem cfgWord_fields (b : Build) :
    ((cfgWord b).extractLsb' 0 4).toNat = b.nMax ∧ (cfgWord b).extractLsb' 4 12 = 0#12
      ∧ ((cfgWord b).extractLsb' 16 12).toNat = b.textMax ∧ (cfgWord b).extractLsb' 28 4 = 1#4 := by
  have := b.bounds
  have hfield (pos len : Nat) :
      ((cfgWord b).extractLsb' pos len).toNat = (b.nMax + 2 ^ 16 * b.textMax + 2 ^ 28) / 2 ^ pos % 2 ^ len := by
    rw [BitVec.extractLsb'_toNat, cfgWord_toNat, Nat.shiftRight_eq_div_pow]
  refine ⟨?_, BitVec.eq_of_toNat_eq ?_, ?_, BitVec.eq_of_toNat_eq ?_⟩
  · rw [hfield]; omega
  · rw [hfield, BitVec.toNat_ofNat]; omega
  · rw [hfield]; omega
  · rw [hfield, BitVec.toNat_ofNat]; omega

theorem flagBits : ∀ f0 f1 f2 f3 : Bool,
    (flagBit f0 0 ||| flagBit f1 1 ||| flagBit f2 2 ||| flagBit f3 3).getLsbD 0 = f0
      ∧ (flagBit f0 0 ||| flagBit f1 1 ||| flagBit f2 2 ||| flagBit f3 3).getLsbD 1 = f1
      ∧ (flagBit f0 0 ||| flagBit f1 1 ||| flagBit f2 2 ||| flagBit f3 3).getLsbD 2 = f2
      ∧ (flagBit f0 0 ||| flagBit f1 1 ||| flagBit f2 2 ||| flagBit f3 3).getLsbD 3 = f3 := by decide

theorem State.err_eq (s : State) : s.err = decide (s.errcode ≠ 0) := by
  rw [Bool.eq_iff_iff, decide_eq_true_eq, State.err, bne_iff_ne]

theorem flagBit_zero : ∀ f : Bool, (flagBit f 0).getLsbD 0 = f := by decide

/-- A register narrower than the bus is read zero-extended. -/
theorem toNat_zeroExtend {n : Nat} (h : n ≤ 32) (x : BitVec n) : (x.setWidth 32).toNat = x.toNat :=
  BitVec.toNat_setWidth_of_le h

theorem toNat_of_eq_setWidth {n : Nat} {w : Word} {x : BitVec n} (h : w = x.setWidth 32) (hn : n ≤ 32) :
    w.toNat = x.toNat := by
  rw [h, toNat_zeroExtend hn]

/-- Settles O48: at each offset the map names the register, whose value the read is. -/
theorem registersReadTheirValues : Obligations.RegistersReadTheirValues := by
  intro s
  refine ⟨⟨busRead_id s, cfgWord_fields s.build, ?status, rfl, ?_, ?_⟩, ⟨flagBit_zero s.ie, ?_, rfl, ?_⟩, ?key, ?vec,
    ?inBuf, fun hidle => ⟨?results, ?rmat, ?rvec, ?outBuf⟩⟩
  case status =>
    rw [← State.err_eq]
    exact flagBits s.busy s.done s.err s.wbusy
  case key => exact fun i j x hi hj h => toNat_of_eq_setWidth (busRead_key hi hj h) (by decide)
  case vec => exact fun j x hj h => toNat_of_eq_setWidth (busRead_vec hj h) (by decide)
  case inBuf => exact fun k x hw h => wordByte_busRead_in hw (Nat.mod_lt k (by decide)) (by rwa [Nat.div_add_mod])
  case results =>
    refine ⟨?_, busRead_result_of_idle (r := .resScalar) hidle rfl rfl, ?_,
      busRead_result_of_idle (r := .resPos) hidle rfl rfl, busRead_result_of_idle (r := .resPair) hidle rfl rfl⟩
    · exact toNat_of_eq_setWidth (busRead_result_of_idle (r := .outLen) hidle rfl rfl) (by decide)
    · exact toNat_of_eq_setWidth (busRead_result_of_idle (r := .resDetmod) hidle rfl rfl) (by decide)
  case rmat => exact fun i j x hi hj h => busRead_rmat hidle hi hj h
  case rvec => exact fun i x hi h => toNat_of_eq_setWidth (busRead_rvec hidle hi h) (by decide)
  case outBuf => exact fun k x hw h =>
      wordByte_busRead_out hidle hw (Nat.mod_lt k (by decide)) (by rwa [Nat.div_add_mod])
  · exact toNat_zeroExtend (by decide) s.errcode
  · exact toNat_zeroExtend (by decide) s.errinfo
  · exact toNat_zeroExtend (by decide) s.ndim
  · exact toNat_zeroExtend (by decide) s.inLen

/-! ### Host writes while BUSY = 0 -/

/-- The low k bits of a word, as a register of k bits keeps and shows them. -/
theorem setWidth_extractLsb'_low {k : Nat} (hk : k ≤ 32) (v : Word) :
    (v.extractLsb' 0 k).setWidth 32 = v &&& BitVec.ofNat 32 (2 ^ k - 1) := by
  have hpow : 2 ^ k - 1 < 2 ^ 32 :=
    (Nat.sub_lt (Nat.two_pow_pos k) Nat.one_pos).trans_le (Nat.pow_le_pow_right (by decide) hk)
  apply BitVec.eq_of_toNat_eq
  rw [BitVec.toNat_setWidth_of_le hk, BitVec.extractLsb'_toNat, BitVec.toNat_and, BitVec.toNat_ofNat,
    Nat.mod_eq_of_lt hpow, Nat.and_two_pow_sub_one_eq_mod, Nat.shiftRight_zero]

theorem busWrite_of_reg {s : State} {off : Nat} {r : Reg} (hidle : s.busy = false) (h : regAt s.build off = r)
    (v : Word) : busWrite off v s = regWrite s r v := by
  rw [busWrite_of_idle hidle, h]

theorem busWrite_ndim {s : State} (hidle : s.busy = false) (v : Word) :
    busWrite 0x01C v s = { s with ndim := v.extractLsb' 0 3 } := busWrite_of_reg (r := .ndim) hidle rfl v

theorem busWrite_operand {s : State} (hidle : s.busy = false) (v : Word) :
    busWrite 0x020 v s = { s with operand := v } := busWrite_of_reg (r := .operand) hidle rfl v

theorem busWrite_inLen {s : State} (hidle : s.busy = false) (v : Word) :
    busWrite 0x024 v s = { s with inLen := v.extractLsb' 0 16 } := busWrite_of_reg (r := .inLen) hidle rfl v

theorem busWrite_key {s : State} (hidle : s.busy = false) {i j : Nat} (hi : i < s.build.nMax) (hj : j < s.build.nMax)
    (v : Word) : busWrite (0x100 + 0x20 * i + 4 * j) v s
      = { s with key := s.key.write (8 * i + j) (v.extractLsb' 0 5) } := by
  have := s.build.bounds
  exact busWrite_of_reg hidle ((regAt_key s.build (by omega) (by omega)).trans (if_pos ⟨hi, hj⟩)) v

theorem busWrite_vec {s : State} (hidle : s.busy = false) {j : Nat} (hj : j < s.build.nMax) (v : Word) :
    busWrite (0x300 + 4 * j) v s = { s with vec := s.vec.write j (v.extractLsb' 0 5) } := by
  have := s.build.bounds
  exact busWrite_of_reg hidle ((regAt_vec s.build (by omega)).trans (if_pos hj)) v

theorem busWrite_in {s : State} (hidle : s.busy = false) {w : Nat} (hw : w < inWords s.build) (v : Word) :
    busWrite (0x1000 + 4 * w) v s = { s with inBuf := s.inBuf.writeRange (4 * w) 4 (wordByte v) } :=
  busWrite_of_reg hidle ((regAt_in s.build (hw.trans_le (inWords_le _))).trans (if_pos hw)) v

/-- The four bytes of a written word. -/
theorem read_writeWord (m : Memory Byte) (w : Nat) (v : Word) {k : Nat} (hk : k < 4) :
    (m.writeRange (4 * w) 4 (wordByte v)).read (4 * w + k) = some (wordByte v k) := by
  rw [Memory.read_writeRange, if_pos (by omega), Nat.add_sub_cancel_left]

theorem read_writeWord_other (m : Memory Byte) {w x : Nat} (h : x / 4 ≠ w) (v : Word) :
    (m.writeRange (4 * w) 4 (wordByte v)).read x = m.read x := by
  rw [Memory.read_writeRange, if_neg (by omega)]

/-! ### A read after the write -/

/-- A word is determined by its four bytes. -/
theorem eq_of_wordByte_eq {v w : Word} (h : ∀ k, k < 4 → wordByte v k = wordByte w k) : v = w := by
  apply BitVec.eq_of_getLsbD_eq
  intro i hi
  have hbyte := congrArg (fun b : Byte => b.getLsbD (i % 8)) (h (i / 8) (by omega))
  have hmod : i % 8 < 8 := Nat.mod_lt _ (by decide)
  simp only [wordByte, BitVec.getLsbD_extractLsb', hmod, decide_true, Bool.true_and, Nat.div_add_mod] at hbyte
  exact hbyte

theorem busRead_ctrl_writeCtrl (s : State) (v : Word) : (busRead 0x008 (s.writeCtrl v)).1 = v &&& 0x1 :=
  have hbit : flagBit (v.getLsbD 0) 0 = if v.getLsbD 0 then 1#32 else 0#32 := BitVec.shiftLeft_zero _
  hbit.trans (BitVec.and_twoPow v 0).symm

/-- Settles O49: the map names the one field, entry or word, and a read of what was written gives it back. -/
theorem writtenOperandsReadBack : Obligations.WrittenOperandsReadBack := by
  intro s v hidle
  have low3 : v.extractLsb' 0 3 = v.setWidth 3 := (BitVec.setWidth_eq_extractLsb' (by decide)).symm
  have low5 : v.extractLsb' 0 5 = v.setWidth 5 := (BitVec.setWidth_eq_extractLsb' (by decide)).symm
  have low16 : v.extractLsb' 0 16 = v.setWidth 16 := (BitVec.setWidth_eq_extractLsb' (by decide)).symm
  refine ⟨⟨busWrite_ctrl v s, busWrite_status v s, ?ndim, busWrite_operand hidle v, ?inLen⟩, fun i j hi hj => ?key,
    fun j hj => ?vec, fun w hw => ?inBuf, ⟨?readCtrl, ?readNdim, ?readOperand, ?readInLen⟩, fun i j hi hj => ?readKey,
    fun j hj => ?readVec, fun w hw => ?readIn⟩
  case ndim => rw [busWrite_ndim hidle, low3]
  case inLen => rw [busWrite_inLen hidle, low16]
  case key =>
    refine ⟨_, busWrite_key hidle hi hj v, ?_, fun x hx => Memory.read_write_other _ _ hx⟩
    rw [Memory.read_write_same, low5]
  case vec =>
    refine ⟨_, busWrite_vec hidle hj v, ?_, fun x hx => Memory.read_write_other _ _ hx⟩
    rw [Memory.read_write_same, low5]
  case inBuf =>
    exact ⟨_, busWrite_in hidle hw v, fun k hk => read_writeWord _ w v hk, fun x hx => read_writeWord_other _ hx v⟩
  case readCtrl => rw [busWrite_ctrl, busRead_ctrl_writeCtrl]
  case readNdim =>
    rw [busWrite_ndim hidle]
    exact setWidth_extractLsb'_low (k := 3) (by decide) v
  case readOperand =>
    rw [busWrite_operand hidle]
    rfl
  case readInLen =>
    rw [busWrite_inLen hidle]
    exact setWidth_extractLsb'_low (k := 16) (by decide) v
  case readKey =>
    rw [busWrite_key hidle hi hj, busRead_key (s := { s with key := s.key.write (8 * i + j) (v.extractLsb' 0 5) })
      hi hj (Memory.read_write_same _ _ _)]
    exact setWidth_extractLsb'_low (k := 5) (by decide) v
  case readVec =>
    rw [busWrite_vec hidle hj, busRead_vec (s := { s with vec := s.vec.write j (v.extractLsb' 0 5) }) hj
      (Memory.read_write_same _ _ _)]
    exact setWidth_extractLsb'_low (k := 5) (by decide) v
  case readIn =>
    rw [busWrite_in hidle hw]
    exact eq_of_wordByte_eq fun k hk =>
      wordByte_busRead_in (s := { s with inBuf := s.inBuf.writeRange (4 * w) 4 (wordByte v) }) hw hk
        (read_writeWord s.inBuf w v hk)

/-! ### Reserved bits and reserved offsets (R57) -/

/-- Whatever is drawn, a read is 0 outside the bits of the mask. -/
def ReadValue.Within (mask : Word) (r : ReadValue) : Prop := ∀ draws, r.word draws &&& ~~~mask = 0

theorem within_known {mask v : Word} (h : v &&& ~~~mask = 0) : (ReadValue.known v).Within mask := fun _ => h

theorem within_drawn (mask : Word) : (ReadValue.drawn fun d => d &&& mask).Within mask := fun draws => by
  rw [ReadValue.word, BitVec.and_assoc, BitVec.and_not_self]
  exact BitVec.and_zero

theorem within_resultRead {s : State} {mask v : Word} (h : v &&& ~~~mask = 0) : (resultRead s mask v).Within mask := by
  unfold resultRead
  split_ifs
  · exact within_drawn mask
  · exact within_known h

theorem within_resultArrayRead {s : State} {mask : Word} {r : ReadValue} (h : r.Within mask) :
    (resultArrayRead s mask r).Within mask := by
  unfold resultArrayRead
  split_ifs
  · exact within_drawn mask
  · exact h

/-- A register of k bits shows no others. -/
theorem setWidth_and_not_lowMask {k : Nat} (hk : k ≤ 32) (x : BitVec k) :
    x.setWidth 32 &&& ~~~(BitVec.ofNat 32 (2 ^ k - 1)) = 0 :=
  and_not_lowMask (by rw [toNat_zeroExtend hk]; exact x.isLt)

theorem within_entryRead (v : Option (BitVec 5)) : (entryRead 0x0000001F v).Within 0x1F := by
  cases v with
  | some x => exact within_known (setWidth_and_not_lowMask (by decide) x)
  | none => exact within_drawn _

theorem busRead_within {s : State} {off : Nat} {r : Reg} {mask : Word} (hreg : regAt s.build off = r)
    (h : (regRead s r).Within mask) : (busRead off s).1 &&& ~~~mask = 0 := by
  rw [busRead_of_reg hreg]
  exact h s.draws

theorem busRead_reserved {s : State} {off : Nat} (h : regAt s.build off = .reserved) : (busRead off s).1 = 0 := by
  rw [busRead_of_reg h]
  rfl

theorem flagBits_within : ∀ f0 f1 f2 f3 : Bool,
    (flagBit f0 0 ||| flagBit f1 1 ||| flagBit f2 2 ||| flagBit f3 3) &&& ~~~(0xF#32) = 0 := by decide

theorem flagBit_within : ∀ f : Bool, flagBit f 0 &&& ~~~(0x1#32) = 0 := by decide

/-- The undefined bits of the registers at 0x008 to 0x038 (R33 to R49). -/
theorem scalar_within {s : State} (h : s.ValuesLegal) {off : Nat} {mask : Word}
    (hm : (off, mask) ∈ [(0x008, 0x1#32), (0x00C, 0xF#32), (0x010, 0x0#32), (0x014, 0xF#32), (0x018, 0xFFFF#32),
      (0x01C, 0x7#32), (0x024, 0xFFFF#32), (0x028, 0xFFFF#32), (0x030, 0x1F#32), (0x034, 0x7777#32),
      (0x038, 0x3FFFF#32)]) : (busRead off s).1 &&& ~~~mask = 0 := by
  obtain ⟨-, -, -, -, posMask, -, pairMask, -, -⟩ := h
  simp only [List.mem_cons, Prod.mk.injEq, List.not_mem_nil, or_false] at hm
  rcases hm with ⟨rfl, rfl⟩ | ⟨rfl, rfl⟩ | ⟨rfl, rfl⟩ | ⟨rfl, rfl⟩ | ⟨rfl, rfl⟩ | ⟨rfl, rfl⟩ | ⟨rfl, rfl⟩
    | ⟨rfl, rfl⟩ | ⟨rfl, rfl⟩ | ⟨rfl, rfl⟩ | ⟨rfl, rfl⟩
  · exact busRead_within (r := .ctrl) rfl (within_known (flagBit_within s.ie))
  · exact busRead_within (r := .status) rfl (within_known (flagBits_within s.busy s.done s.err s.wbusy))
  · exact busRead_within (r := .cmd) rfl (within_known BitVec.zero_and)
  · exact busRead_within (r := .errcode) rfl (within_known (setWidth_and_not_lowMask (by decide) s.errcode))
  · exact busRead_within (r := .errinfo) rfl (within_known (setWidth_and_not_lowMask (by decide) s.errinfo))
  · exact busRead_within (r := .ndim) rfl (within_known (setWidth_and_not_lowMask (by decide) s.ndim))
  · exact busRead_within (r := .inLen) rfl (within_known (setWidth_and_not_lowMask (by decide) s.inLen))
  · exact busRead_within (r := .outLen) rfl (within_resultRead (setWidth_and_not_lowMask (by decide) s.outLen))
  · exact busRead_within (r := .resDetmod) rfl (within_resultRead (setWidth_and_not_lowMask (by decide) s.resDetmod))
  · exact busRead_within (r := .resPos) rfl (within_resultRead posMask)
  · exact busRead_within (r := .resPair) rfl (within_resultRead pairMask)

theorem within_reserved (s : State) (mask : Word) : (regRead s .reserved).Within mask := within_known BitVec.zero_and

theorem within_ite {s : State} {c : Prop} [Decidable c] {r : Reg} {mask : Word} (h : (regRead s r).Within mask) :
    (regRead s (if c then r else .reserved)).Within mask := by
  split_ifs
  · exact h
  · exact within_reserved s mask

/-- The files KEY, VEC and RVEC show five bits of an entry (R50, R52, R53). -/
theorem entry_within {s : State} {off : Nat} (h4 : off % 4 = 0)
    (h : 0x100 ≤ off ∧ off < 0x200 ∨ 0x300 ≤ off ∧ off < 0x340) : (busRead off s).1 &&& ~~~(0x1F#32) = 0 := by
  by_cases hkey : off < 0x200
  · obtain ⟨i, j, hi, hj, rfl⟩ : ∃ i j, i < 8 ∧ j < 8 ∧ off = 0x100 + 0x20 * i + 4 * j :=
      ⟨(off - 0x100) / 0x20, off % 0x20 / 4, by omega, by omega, by omega⟩
    exact busRead_within (regAt_key s.build hi hj) (within_ite (r := .key i j) (within_entryRead _))
  · by_cases hvec : off < 0x320
    · obtain ⟨j, hj, rfl⟩ : ∃ j, j < 8 ∧ off = 0x300 + 4 * j := ⟨(off - 0x300) / 4, by omega, by omega⟩
      exact busRead_within (regAt_vec s.build hj) (within_ite (r := .vec j) (within_entryRead _))
    · obtain ⟨j, hj, rfl⟩ : ∃ j, j < 8 ∧ off = 0x320 + 4 * j := ⟨(off - 0x320) / 4, by omega, by omega⟩
      exact busRead_within (regAt_rvec s.build hj)
        (within_ite (r := .rvec j) (within_resultArrayRead (within_entryRead _)))

/-- RMAT beyond the N_MAX × N_MAX block (R51). -/
theorem regAt_rmat_beyond (b : Build) {i j : Nat} (hi : i < 8) (hj : j < 8) (h : b.nMax ≤ i ∨ b.nMax ≤ j) :
    regAt b (0x200 + 0x20 * i + 4 * j) = .reserved := by
  rw [regAt_rmat b hi hj, if_neg (by omega)]

/-- RVEC beyond N_MAX entries (R53). -/
theorem regAt_rvec_beyond (b : Build) {j : Nat} (hj : j < 8) (h : b.nMax ≤ j) :
    regAt b (0x320 + 4 * j) = .reserved := by
  rw [regAt_rvec b hj, if_neg (by omega)]

/-- OUT beyond OUT_WORDS words (R56). -/
theorem regAt_out_beyond (b : Build) {w : Nat} (hw : w < 0x400) (h : outWords b ≤ w) :
    regAt b (0x2000 + 4 * w) = .reserved := by
  rw [regAt_out b hw, if_neg (by omega)]

/-- Settles O50: a read shows the register's own bits, drawn or not, and a reserved offset holds no register. -/
theorem reservedBitsReadZero : Obligations.ReservedBitsReadZero := by
  intro s hlegal
  refine ⟨fun off h4 => ⟨?scalar, entry_within h4, fun h => busRead_reserved (regAt_reserved s.build (by omega))⟩,
    fun i j hi hj h => ?block, fun j hj h => ?line, fun w hw h => busRead_reserved (regAt_in_beyond s.build hw h),
    fun w hw h => busRead_reserved (regAt_out_beyond s.build hw h)⟩
  case scalar =>
    rintro ⟨off', mask⟩ hm rfl
    exact scalar_within hlegal hm
  case block =>
    exact ⟨busRead_reserved (regAt_key_beyond s.build hi hj h), busRead_reserved (regAt_rmat_beyond s.build hi hj h)⟩
  case line =>
    exact ⟨busRead_reserved (regAt_vec_beyond s.build hj h), busRead_reserved (regAt_rvec_beyond s.build hj h)⟩

/-! ### Reads have no side effect (20_memory.md R103) -/

theorem used_le_one (r : ReadValue) : r.used ≤ 1 := by
  cases r with
  | known v => exact Nat.zero_le 1
  | drawn f => exact le_rfl

/-- A register that is read as it stands uses no draw. -/
def Reg.NeverDrawn (s : State) (r : Reg) : Prop := ∃ v, regRead s r = .known v

theorem busRead_snd_of_neverDrawn {s : State} {off : Nat} {r : Reg} (hreg : regAt s.build off = r)
    (h : r.NeverDrawn s) : (busRead off s).2 = s := by
  obtain ⟨v, hv⟩ := h
  rw [busRead_of_known hreg hv]

theorem busRead_snd_reserved {s : State} {off : Nat} (h : regAt s.build off = .reserved) : (busRead off s).2 = s :=
  busRead_snd_of_neverDrawn h ⟨0, rfl⟩

/-- The registers before OUT_LEN are no results; all of them are read as they stand while BUSY = 0. -/
theorem scalarReg_neverDrawn {s : State} {k : Nat} (hk : k < 15) (h : k < 10 ∨ s.busy = false) :
    (scalarReg k).NeverDrawn s := by
  by_cases hlt : k < 10
  · interval_cases k <;> exact ⟨_, rfl⟩
  · have hidle : s.busy = false := h.resolve_left hlt
    interval_cases k <;> exact ⟨_, resultRead_of_idle hidle _ _⟩

theorem busRead_snd_scalar {s : State} {off : Nat} (h4 : off % 4 = 0) (hlt : off < 0x100)
    (h : off < 0x028 ∨ 0x03C ≤ off ∨ s.busy = false) : (busRead off s).2 = s := by
  by_cases hgap : 0x03C ≤ off
  · exact busRead_snd_reserved (regAt_reserved s.build (by omega))
  · obtain ⟨k, hk, rfl⟩ : ∃ k, k < 15 ∧ off = 4 * k := ⟨off / 4, by omega, by omega⟩
    refine busRead_snd_of_neverDrawn (regAt_scalar s.build (by omega)) (scalarReg_neverDrawn hk ?_)
    rcases h with h | h | hidle
    · exact .inl (by omega)
    · omega
    · exact .inr hidle

/-- From the gap after RVEC to IN there are KSQ and reserved offsets alone. -/
theorem busRead_snd_ksq {s : State} {off : Nat} (h4 : off % 4 = 0) (h : 0x340 ≤ off ∧ off < 0x1000) :
    (busRead off s).2 = s := by
  by_cases hksq : 0x380 ≤ off ∧ off < 0x39C
  · obtain ⟨w, hw, rfl⟩ : ∃ w, w < 7 ∧ off = 0x380 + 4 * w := ⟨(off - 0x380) / 4, by omega, by omega⟩
    exact busRead_snd_of_neverDrawn (regAt_ksq s.build hw) ⟨_, rfl⟩
  · exact busRead_snd_reserved (regAt_reserved s.build (by omega))

/-- Settles O51: a read can use a draw, and only at a result register or an array. -/
theorem readsChangeNoRegister : Obligations.ReadsChangeNoRegister := by
  intro s off h4 hoff
  refine ⟨⟨_, busRead_state off s, Nat.le_add_right _ _, Nat.add_le_add_left (used_le_one _) _⟩, fun h => ?_,
    fun hidle hlt => busRead_snd_scalar h4 hlt (.inr (.inr hidle))⟩
  rcases h with h | h | h | h
  · exact busRead_snd_scalar h4 (by omega) (.inl h)
  · exact busRead_snd_scalar h4 h.2 (.inr (.inl h.1))
  · exact busRead_snd_ksq h4 h
  · exact busRead_snd_reserved (regAt_reserved s.build (by omega))

end Sys2Proof.Machine

/-! ## The outcome of a command and the operands in its bounds (20_memory.md R113) -/

namespace Sys2Proof.Machine

/-! ### Two endings with the same outcome -/

/-- Each result register and entry is written alike from `s` to `t` and from `s'` to `t'`, or not at all. -/
structure ResultsAlike (s s' t t' : State) : Prop where
  resScalar : t'.resScalar = t.resScalar ∨ t.resScalar = s.resScalar ∧ t'.resScalar = s'.resScalar
  resDetmod : t'.resDetmod = t.resDetmod ∨ t.resDetmod = s.resDetmod ∧ t'.resDetmod = s'.resDetmod
  resPos : t'.resPos = t.resPos ∨ t.resPos = s.resPos ∧ t'.resPos = s'.resPos
  resPair : t'.resPair = t.resPair ∨ t.resPair = s.resPair ∧ t'.resPair = s'.resPair
  outLen : t'.outLen = t.outLen ∨ t.outLen = s.outLen ∧ t'.outLen = s'.outLen
  rmat : ∀ x, t'.rmat.read x = t.rmat.read x ∨ t.rmat.read x = s.rmat.read x ∧ t'.rmat.read x = s'.rmat.read x
  rvec : ∀ x, t'.rvec.read x = t.rvec.read x ∨ t.rvec.read x = s.rvec.read x ∧ t'.rvec.read x = s'.rvec.read x
  outBuf : ∀ x, t'.outBuf.read x = t.outBuf.read x
    ∨ t.outBuf.read x = s.outBuf.read x ∧ t'.outBuf.read x = s'.outBuf.read x

theorem resultsAlike_refl (s s' : State) : ResultsAlike s s' s s' :=
  ⟨.inr ⟨rfl, rfl⟩, .inr ⟨rfl, rfl⟩, .inr ⟨rfl, rfl⟩, .inr ⟨rfl, rfl⟩, .inr ⟨rfl, rfl⟩, fun _ => .inr ⟨rfl, rfl⟩,
    fun _ => .inr ⟨rfl, rfl⟩, fun _ => .inr ⟨rfl, rfl⟩⟩

/-- Two runs of a command's pseudocode stop alike, or pass with results alike. -/
inductive Alike (s s' : State) : Check State → Check State → Prop
  | error (e : Stop) : Alike s s' (.error e) (.error e)
  | ok {u u' : State} : ResultsAlike s s' u u' → Alike s s' (.ok u) (.ok u')

/-- A check that answers the same in both runs leaves the rest to compare. -/
theorem Alike.bind {s s' : State} {α : Type} {x x' : Check α} {f f' : α → Check State} (hx : x' = x)
    (hf : ∀ a, x = .ok a → Alike s s' (f a) (f' a)) : Alike s s' (x >>= f) (x' >>= f') := by
  subst hx
  cases x' with
  | error e => exact .error e
  | ok a => exact hf a rfl

/-- What O11 says of two outcomes. -/
def SameOutcome (s s' : State) (o o' : Host.Outcome State Fault Refusal) : Prop :=
  (∀ f, o = .fault f → o' = .fault f)
    ∧ ∀ t, o = .next t → ∃ t', o' = .next t' ∧ t'.errcode = t.errcode ∧ t'.errinfo = t.errinfo ∧ ResultsAlike s s' t t'

theorem Alike.sameOutcome {s s' : State} {r r' : Check State} (h : Alike s s' r r') :
    SameOutcome s s' (conclude s r) (conclude s' r') := by
  cases h with
  | error e =>
    cases e with
    | raise e info =>
      refine ⟨fun f hf => (nomatch hf), fun t ht => ?_⟩
      cases ht
      exact ⟨_, rfl, rfl, rfl, { resultsAlike_refl s s' with }⟩
    | fault f => exact ⟨fun _ hf => hf, fun t ht => (nomatch ht)⟩
  | ok hu =>
    refine ⟨fun f hf => (nomatch hf), fun t ht => ?_⟩
    cases ht
    exact ⟨_, rfl, rfl, rfl, { hu with }⟩

/-! ### Result writes of the same values -/

theorem resultsAlike_writeRmat {s s' : State} (hbuild : s.build = s'.build) {n : Nat} {f f' : Nat → Nat → Word}
    (h : ∀ i, i < n → ∀ j, j < n → f' i j = f i j) : ResultsAlike s s' (s.writeRmat n f) (s'.writeRmat n f') :=
  { resultsAlike_refl s s' with
    rmat := fun x => by
      have bounds := s.build.bounds
      simp only [State.writeRmat_rmat, ← hbuild]
      rw [Memory.read_writeBlock _ _ _ _ _ (by omega), Memory.read_writeBlock _ _ _ _ _ (by omega)]
      split_ifs with hin hblock
      · rw [h _ hblock.1 _ hblock.2]
        exact .inl rfl
      · exact .inl rfl
      · exact .inr ⟨rfl, rfl⟩ }

theorem resultsAlike_writeRvec {s s' : State} (hbuild : s.build = s'.build) {n : Nat} {f f' : Nat → Nat}
    (h : ∀ i, i < n → f' i = f i) : ResultsAlike s s' (s.writeRvec n f) (s'.writeRvec n f') :=
  { resultsAlike_refl s s' with
    rvec := fun x => by
      rw [writeRvec_read, writeRvec_read, ← hbuild]
      split_ifs with hin hlt
      · rw [h x hlt]
        exact .inl rfl
      · exact .inl rfl
      · exact .inr ⟨rfl, rfl⟩ }

theorem resultsAlike_writeOut (s s' : State) (t : List Byte) : ResultsAlike s s' (s.writeOut t) (s'.writeOut t) :=
  { resultsAlike_refl s s' with
    outLen := .inl rfl
    outBuf := fun x => by
      simp only [State.writeOut_outBuf, Memory.read_writeRange]
      split_ifs
      · exact .inl rfl
      · exact .inr ⟨rfl, rfl⟩ }

/-! ### Functions of entries in bounds -/

theorem sumTo_congr {n : Nat} {f g : Nat → Int} (h : ∀ i, i < n → f i = g i) : sumTo n f = sumTo n g := by
  rw [sumTo_eq_sum, sumTo_eq_sum]
  exact Finset.sum_congr rfl fun i _ => h i i.isLt

theorem mvmod_congr {n i : Nat} {A A' : Grid} {v v' : Nat → Int} (hA : ∀ j, j < n → A i j = A' i j)
    (hv : ∀ j, j < n → v j = v' j) : mvmod n A v i = mvmod n A' v' i :=
  congrArg mod26 (sumTo_congr fun j hj => by rw [hA j hj, hv j hj])

theorem adj_congr {n i j : Nat} {A A' : Grid} (h : gridMatrix n A = gridMatrix n A') (hi : i < n) (hj : j < n) :
    adj n A i j = adj n A' i j := by
  have hadj := congrFun₂ (congrArg Matrix.adjugate h) ⟨i, hi⟩ ⟨j, hj⟩
  rwa [← adj_eq_adjugate, ← adj_eq_adjugate] at hadj

theorem blockText_congr {n : Nat} {u u' : Nat → Nat} (h : ∀ i, i < n → u i = u' i) : blockText n u = blockText n u' :=
  List.map_congr_left fun i hi => by rw [h i (List.mem_range.mp hi)]

theorem digraphs_congr {b : Build} {dir : Direction} {rd rd' : Nat → Check Byte} {q n : Nat}
    (h : ∀ k, k < 2 * (q + n) → rd k = rd' k) : digraphs b dir rd q n = digraphs b dir rd' q n := by
  induction n generalizing q with
  | zero => rfl
  | succ n ih =>
    have hrest : digraphs b dir rd (q + 1) n = digraphs b dir rd' (q + 1) n := ih fun k hk => h k (by omega)
    simp only [digraphs, h (2 * q) (by omega), h (2 * q + 1) (by omega), hrest]

/-! ### MVMUL's two forms, check by check (41_linear_algebra.md R220) -/

theorem exec_mvmul_key (s : State) :
    exec (.mvmul .key) s = conclude s (checkKey s >>= fun _ => checkVec s >>= fun _ =>
      .ok (s.writeRvec s.dim (mvmod s.dim s.keyGrid s.vecAt))) := by
  simp only [exec, execMvmul, checkMatrix, bind_assoc, bind_ok_check]

theorem exec_mvmul_rmat (s : State) :
    exec (.mvmul .rmat) s = conclude s (checkDim s >>= fun _ => checkRmat s >>= fun _ => checkVec s >>= fun _ =>
      .ok (s.writeRvec s.dim (mvmod s.dim s.rmatGrid s.vecAt))) := by
  simp only [exec, execMvmul, checkMatrix, bind_assoc, bind_ok_check]

namespace SameOperands

variable {s s' : State} (h : SameOperands s s')
include h

theorem sameKey : SameKey s s' := ⟨h.build, h.ndim, h.inLen, h.key⟩

theorem dim_eq : s'.dim = s.dim := h.sameKey.dim_eq

theorem textLen_eq : s'.textLen = s.textLen := h.sameKey.textLen_eq

/-! ### The checks -/

theorem checkDim_eq : checkDim s' = checkDim s := by
  rw [checkDim, checkDim, h.dim_eq, h.build]

theorem checkKeyEntry_eq {i j : Nat} (hi : i < s.dim) (hj : j < s.dim) :
    checkKeyEntry s' i j = checkKeyEntry s i j := by
  rw [checkKeyEntry, checkKeyEntry, h.key i hi j hj]

theorem checkKey_eq : checkKey s' = checkKey s := by
  rw [checkKey, checkKey, h.checkDim_eq, h.dim_eq]
  refine congrArg _ (funext fun _ => scan_congr 0 s.dim fun i _ hi => scan_congr 0 s.dim fun j _ hj => ?_)
  exact h.checkKeyEntry_eq (by omega) (by omega)

theorem checkIndex_eq (r c : Nat) : checkIndex s' r c = checkIndex s r c := by
  rw [checkIndex, checkIndex, h.dim_eq]

theorem checkRmat_eq : checkRmat s' = checkRmat s := by
  rw [checkRmat, checkRmat, h.dim_eq]
  refine scan_congr 0 s.dim fun i _ hi => scan_congr 0 s.dim fun j _ hj => ?_
  rw [h.rmat i (by omega) j (by omega)]

theorem checkVec_eq : checkVec s' = checkVec s := by
  rw [checkVec, checkVec, h.dim_eq]
  refine scan_congr 0 s.dim fun j _ hj => ?_
  rw [checkVecEntry, checkVecEntry, h.vec j (by omega)]

theorem checkBlock_eq : checkBlock s' = checkBlock s := by
  rw [checkBlock, checkBlock, h.textLen_eq, h.dim_eq, h.inLen]

theorem readIn_eq {k : Nat} (hk : k < s.textLen) : readIn s' k = readIn s k := by
  rw [readIn, readIn, h.text k hk]

/-- Past the length check, the block's bytes are below IN_LEN. -/
theorem checkLetters_eq (hlen : s.textLen = s.dim) : checkLetters s' = checkLetters s := by
  rw [checkLetters, checkLetters, h.dim_eq]
  refine scan_congr 0 s.dim fun j _ hj => ?_
  rw [checkLetter, checkLetter, h.readIn_eq (by omega)]

theorem checkTextMax_eq : checkTextMax s' = checkTextMax s := by
  rw [checkTextMax, checkTextMax, h.textLen_eq, h.build, h.inLen]

theorem checkText_eq : checkText s' = checkText s := by
  rw [checkText, checkText, h.textLen_eq]
  refine scan_congr 0 s.textLen fun k _ hk => ?_
  rw [h.readIn_eq (by omega)]

theorem checkEven_eq : checkEven s' = checkEven s := by
  rw [checkEven, checkEven, h.textLen_eq, h.inLen]

theorem lookup_byte0_eq : lookup s'.build s'.operandByte0 0 = lookup s.build s.operandByte0 0 := by
  rw [State.operandByte0, State.operandByte0, h.build, h.operand]

theorem lookup_byte1_eq : lookup s'.build s'.operandByte1 1 = lookup s.build s.operandByte1 1 := by
  rw [State.operandByte1, State.operandByte1, h.build, h.operand]

/-! ### The values -/

theorem keyGrid_eq {i j : Nat} (hi : i < s.dim) (hj : j < s.dim) : s'.keyGrid i j = s.keyGrid i j := by
  rw [State.keyGrid, State.keyGrid, h.key i hi j hj]

theorem rmatGrid_eq {i j : Nat} (hi : i < s.dim) (hj : j < s.dim) : s'.rmatGrid i j = s.rmatGrid i j := by
  rw [State.rmatGrid, State.rmatGrid, h.rmat i hi j hj]

theorem det_eq : det s'.dim s'.keyGrid = det s.dim s.keyGrid := h.sameKey.det_eq

theorem adj_eq {i j : Nat} (hi : i < s.dim) (hj : j < s.dim) : adj s.dim s'.keyGrid i j = adj s.dim s.keyGrid i j :=
  adj_congr h.sameKey.gridMatrix_eq hi hj

theorem invKey_eq (k : Nat) {i j : Nat} (hi : i < s.dim) (hj : j < s.dim) :
    invKey s.dim k s'.keyGrid i j = invKey s.dim k s.keyGrid i j := by
  rw [invKey, invKey, h.adj_eq hi hj]

theorem vecAt_eq {j : Nat} (hj : j < s.dim) : s'.vecAt j = s.vecAt j := by
  rw [State.vecAt, State.vecAt, h.vec j hj]

theorem inAt_eq {k : Nat} (hk : k < s.textLen) : s'.inAt k = s.inAt k := by
  rw [State.inAt, State.inAt, h.text k hk]

theorem text_eq : s'.text = s.text := by
  rw [State.text, State.text, h.textLen_eq]
  exact List.map_congr_left fun k hk => h.inAt_eq (List.mem_range.mp hk)

/-- The text of a block ciphered with matrices that agree on the n×n block. -/
theorem blockText_eq (hlen : s.textLen = s.dim) {A A' : Grid}
    (hA : ∀ i, i < s.dim → ∀ j, j < s.dim → A' i j = A i j) :
    blockText s'.dim (mvmod s'.dim A' s'.blockAt) = blockText s.dim (mvmod s.dim A s.blockAt) := by
  rw [h.dim_eq]
  refine blockText_congr fun i hi => mvmod_congr (hA i hi) fun j hj => ?_
  rw [State.blockAt, State.blockAt, h.inAt_eq (by omega)]

/-! ### The commands -/

/-- MVMUL past its matrix. -/
theorem alike_mvmul {A A' : Grid} (hA : ∀ i, i < s.dim → ∀ j, j < s.dim → A' i j = A i j) :
    Alike s s' (checkVec s >>= fun _ => .ok (s.writeRvec s.dim (mvmod s.dim A s.vecAt)))
      (checkVec s' >>= fun _ => .ok (s'.writeRvec s'.dim (mvmod s'.dim A' s'.vecAt))) := by
  refine .bind h.checkVec_eq fun _ _ => .ok ?_
  rw [h.dim_eq]
  exact resultsAlike_writeRvec h.build fun i hi => mvmod_congr (hA i hi) fun j hj => h.vecAt_eq hj

theorem sameOutcome (i : Instr) : SameOutcome s s' (exec i s) (exec i s') := by
  cases i with
  | nop => exact (Alike.ok (resultsAlike_refl s s')).sameOutcome
  | det =>
    refine (Alike.bind h.checkKey_eq fun _ _ => .ok ?_).sameOutcome
    rw [h.det_eq]
    exact { resultsAlike_refl s s' with resScalar := .inl rfl, resDetmod := .inl rfl }
  | subm r c =>
    refine (Alike.bind h.checkKey_eq fun _ _ => .bind (h.checkIndex_eq r c) fun _ _ => .ok ?_).sameOutcome
    rw [h.dim_eq]
    refine resultsAlike_writeRmat h.build fun i hi j hj => congrArg intWord (h.keyGrid_eq ?_ ?_)
    · exact (skip_lt hi).trans_le (by omega)
    · exact (skip_lt hj).trans_le (by omega)
  | cof r c =>
    refine (Alike.bind h.checkKey_eq fun _ _ => .bind (h.checkIndex_eq r c) fun _ hindex => .ok ?_).sameOutcome
    obtain ⟨hr, hc⟩ := (checkIndex_ok_iff s r c).mp hindex
    have hcof : cof s'.dim s'.keyGrid r c = cof s.dim s.keyGrid r c := by
      rw [h.dim_eq]
      exact h.adj_eq hc hr
    rw [hcof]
    exact { resultsAlike_refl s s' with resScalar := .inl rfl }
  | adj =>
    refine (Alike.bind h.checkKey_eq fun _ _ => .ok ?_).sameOutcome
    rw [h.dim_eq]
    exact resultsAlike_writeRmat h.build fun i hi j hj => congrArg intWord (h.adj_eq hi hj)
  | modinv =>
    have hinverse : requireInverse (mod26 s'.operandInt) = requireInverse (mod26 s.operandInt) := by
      rw [State.operandInt, State.operandInt, h.operand]
    refine (Alike.bind hinverse fun k _ => .ok ?_).sameOutcome
    exact { resultsAlike_refl s s' with resScalar := .inl rfl }
  | invkey =>
    refine (Alike.bind h.checkKey_eq fun _ _ => .bind (by rw [h.det_eq]) fun k _ => .ok ?_).sameOutcome
    rw [h.det_eq, h.dim_eq]
    have hrmat := resultsAlike_writeRmat h.build fun i hi j hj => congrArg intWord (h.invKey_eq k hi hj)
    exact { hrmat with resScalar := .inl rfl, resDetmod := .inl rfl }
  | mvmul m =>
    cases m with
    | key =>
      rw [exec_mvmul_key, exec_mvmul_key]
      exact (Alike.bind h.checkKey_eq fun _ _ => h.alike_mvmul fun i hi j hj => h.keyGrid_eq hi hj).sameOutcome
    | rmat =>
      rw [exec_mvmul_rmat, exec_mvmul_rmat]
      exact (Alike.bind h.checkDim_eq fun _ _ => .bind h.checkRmat_eq fun _ _ =>
        h.alike_mvmul fun i hi j hj => h.rmatGrid_eq hi hj).sameOutcome
  | menc =>
    refine (Alike.bind h.checkKey_eq fun _ _ => .bind h.checkBlock_eq fun _ hblock => ?_).sameOutcome
    have hlen := (checkBlock_ok_iff s).mp hblock
    refine .bind (h.checkLetters_eq hlen) fun _ _ => .ok ?_
    rw [h.blockText_eq hlen fun i hi j hj => h.keyGrid_eq hi hj]
    exact resultsAlike_writeOut s s' _
  | mdec =>
    refine (Alike.bind h.checkKey_eq fun _ _ => .bind h.checkBlock_eq fun _ hblock => ?_).sameOutcome
    have hlen := (checkBlock_ok_iff s).mp hblock
    refine .bind (by rw [h.det_eq]) fun k _ => .bind (h.checkLetters_eq hlen) fun _ _ => .ok ?_
    have hinvKey (i : Nat) (hi : i < s.dim) (j : Nat) (hj : j < s.dim) :
        invKey s'.dim k s'.keyGrid i j = invKey s.dim k s.keyGrid i j := by
      rw [h.dim_eq]
      exact h.invKey_eq k hi hj
    rw [h.blockText_eq hlen hinvKey]
    exact resultsAlike_writeOut s s' _
  | findpos =>
    refine (Alike.bind h.lookup_byte0_eq fun p _ => .ok ?_).sameOutcome
    exact { resultsAlike_refl s s' with resPos := .inl rfl }
  | dgrule m =>
    refine (Alike.bind h.lookup_byte0_eq fun p1 _ => .bind h.lookup_byte1_eq fun p2 _ => .ok ?_).sameOutcome
    rw [← h.build]
    exact { resultsAlike_refl s s' with resPos := .inl rfl, resPair := .inl rfl }
  | norm =>
    refine (Alike.bind h.checkTextMax_eq fun _ _ => .bind h.checkText_eq fun _ _ => .ok ?_).sameOutcome
    rw [h.text_eq]
    exact resultsAlike_writeOut s s' _
  | denc =>
    refine (Alike.bind h.checkTextMax_eq fun _ _ => .bind h.checkText_eq fun _ _ => .bind ?_ fun u _ =>
      .ok ?_).sameOutcome
    · rw [h.text_eq, h.build]
    · exact resultsAlike_writeOut s s' u
  | ddec =>
    refine (Alike.bind h.checkTextMax_eq fun _ _ => .bind h.checkEven_eq fun _ _ => .bind ?_ fun u _ =>
      .ok ?_).sameOutcome
    · rw [h.textLen_eq, h.build]
      exact digraphs_congr fun k hk => h.readIn_eq (by omega)
    · exact resultsAlike_writeOut s s' u

end SameOperands

/-- Settles O11: each command's checks answer alike, and its result writes are functions of entries in bounds. -/
theorem outcomeReadsOnlyOperandsInBounds : Obligations.OutcomeReadsOnlyOperandsInBounds := by
  intro i s s' h
  obtain ⟨hfault, hnext⟩ := h.sameOutcome i
  refine ⟨hfault, fun t ht => ?_⟩
  obtain ⟨t', ht', hcode, hinfo, alike⟩ := hnext t ht
  exact ⟨t', ht', hcode, hinfo, alike.resScalar, alike.resDetmod, alike.resPos, alike.resPair, alike.outLen,
    alike.rmat, alike.rvec, alike.outBuf⟩

end Sys2Proof.Machine
